-- ==== Sys2Proof/Word.lean ====
section
/-! DEFINITION. The data widths of the TWIP core (spec/00_scope.md R11). -/

namespace Sys2Proof

/-- Every datum the document types as "byte": 8 bits, unsigned (R11). -/
abbrev Byte := BitVec 8

/-- A 16-bit unsigned number: the checksum and the command word (R11, R100). -/
abbrev Word := BitVec 16

/-- A bus address as an operand, 0 to 127 (R101: "dest (0 to 127)", "addr (0 to 127)"). -/
abbrev Addr7 := BitVec 7

end Sys2Proof
end

