-- ==== Sys2Proof/Syntax.lean ====
section
/-! DEFINITION. The twelve operations (spec/opcode_table.json, spec/30_encoding.md R101). -/

namespace Sys2Proof

/-- A request to the TWIP core: one constructor for each row of the opcode table, with its operands
as the operand stream of R101 carries them. -/
inductive Instr where
  /-- `rb.init cap` (R121). -/
  | rbInit (cap : Byte)
  /-- `rb.write b` (R122). -/
  | rbWrite (b : Byte)
  /-- `rb.read` (R123). -/
  | rbRead
  /-- `rb.peek k` (R124). -/
  | rbPeek (k : Byte)
  /-- `rb.empty` (R125). -/
  | rbEmpty
  /-- `rb.avail` (R126). -/
  | rbAvail
  /-- `en.ingest` with its raw bytes (R140); the raw length is the number of bytes. -/
  | enIngest (raw : List Byte)
  /-- `en.send dest, opcode, payload` (R160); the payload length is the number of bytes. -/
  | enSend (dest : Addr7) (opcode : Byte) (payload : List Byte)
  /-- `en.recv` (R180). -/
  | enReceive
  /-- `en.pending` (R198). -/
  | enPending
  /-- `en.cksum sender, flag, opcode, id, length` (R212). -/
  | enCksum (sender flag opcode id length : Byte)
  /-- `en.setaddr a` (R170). -/
  | enSetaddr (a : Addr7)
  deriving DecidableEq, Repr

end Sys2Proof
end

