-- ==== Sys2Proof/WellFormed.lean ====
section
/-! DEFINITION. The operands an encoding can carry (spec/00_scope.md R11, spec/30_encoding.md R101). -/

namespace Sys2Proof

/-- A byte sequence whose length is a 16-bit unsigned number (R11). -/
def lengthFits (bs : List Byte) : Bool := decide (bs.length < 65536)

/-- An operation the command transport can express: the two counted operand streams hold at most
65535 bytes (R11, R140, R160); every other operand's range is its type's. -/
def Instr.wf : Instr → Bool
  | .enIngest raw => lengthFits raw
  | .enSend _ _ payload => lengthFits payload
  | .rbInit _ => true
  | .rbWrite _ => true
  | .rbRead => true
  | .rbPeek _ => true
  | .rbEmpty => true
  | .rbAvail => true
  | .enReceive => true
  | .enPending => true
  | .enCksum _ _ _ _ _ => true
  | .enSetaddr _ => true

end Sys2Proof
end

