-- ==== Sys2Proof/Decode.lean ====
section
/-! DEFINITION. Decoder and encoder of the request stream (spec/30_encoding.md R100 to R103). -/

namespace Sys2Proof

/-! ## Byte order of the streams -/

/-- `c[15:8]`, the byte that travels first (R53, R101). -/
def hiByte (w : Word) : Byte := w.extractLsb' 8 8

/-- `c[7:0]`, the byte that travels second (R53, R101). -/
def loByte (w : Word) : Byte := w.extractLsb' 0 8

/-- `(hi << 8) | lo`: the 16-bit number of two stream bytes, most significant first (R53, R102). -/
def be16 (hi lo : Byte) : Word := hi ++ lo

/-! ## The command word -/

/-- `OP`, bits 15:12 (R100). -/
def opField (w : Word) : BitVec 4 := w.extractLsb' 12 4

/-- `ZERO`, bits 11:8 (R100). -/
def zeroField (w : Word) : BitVec 4 := w.extractLsb' 8 4

/-- `IMM8`, bits 7:0 (R100). -/
def imm8 (w : Word) : Byte := w.extractLsb' 0 8

/-- Why a command word is illegal (R103). -/
inductive IllegalWord where
  /-- `OP` is 0x6, 0x7, 0xE or 0xF. -/
  | reservedOp
  /-- `ZERO` is not 0. -/
  | zeroFieldSet
  /-- `IMM8` is not 0 for an operation that takes none. -/
  | immediateSet
  /-- `IMM8 >= 128` for `EN_SEND` or `EN_SETADDR`. -/
  | addressAbove127
  deriving DecidableEq, Repr

/-- What the decoder reads at the front of the request stream. -/
inductive Decoded where
  /-- A whole request and the stream behind it. -/
  | request (i : Instr) (rest : List Byte)
  /-- An illegal command word; no operand byte is consumed (R103). -/
  | illegal (why : IllegalWord) (rest : List Byte)
  /-- The stream ends inside the command word. -/
  | noWord
  /-- The word is legal and the stream ends inside its operands. -/
  | noOperands
  deriving DecidableEq, Repr

/-- The first `n` bytes of a stream and the rest, when there are that many. -/
def takeBytes (n : Nat) (bs : List Byte) : Option (List Byte × List Byte) :=
  if n ≤ bs.length then some (bs.take n, bs.drop n) else none

/-- An operation that takes no `IMM8`: it must be 0 (R103). -/
def decodePlain (imm : Byte) (i : Instr) (rest : List Byte) : Decoded :=
  if imm = 0 then .request i rest else .illegal .immediateSet rest

/-- `EN_INGEST`: `n[15:8]`, `n[7:0]`, then `n` raw bytes (R101, R102). -/
def decodeIngest (imm : Byte) (rest : List Byte) : Decoded :=
  if imm = 0 then
    match rest with
    | b0 :: b1 :: more =>
      match takeBytes (be16 b0 b1).toNat more with
      | some (raw, rest') => .request (.enIngest raw) rest'
      | none => .noOperands
    | _ => .noOperands
  else .illegal .immediateSet rest

/-- `EN_SEND`: `opcode`, `len[15:8]`, `len[7:0]`, then `len` payload bytes (R101, R102). -/
def decodeSend (imm : Byte) (rest : List Byte) : Decoded :=
  if imm.toNat < 128 then
    match rest with
    | opcode :: b1 :: b2 :: more =>
      match takeBytes (be16 b1 b2).toNat more with
      | some (payload, rest') => .request (.enSend (imm.extractLsb' 0 7) opcode payload) rest'
      | none => .noOperands
    | _ => .noOperands
  else .illegal .addressAbove127 rest

/-- `EN_CKSUM`: five operand bytes (R101, R102). -/
def decodeCksum (imm : Byte) (rest : List Byte) : Decoded :=
  if imm = 0 then
    match rest with
    | s :: f :: o :: i :: l :: rest' => .request (.enCksum s f o i l) rest'
    | _ => .noOperands
  else .illegal .immediateSet rest

/-- `EN_SETADDR` (R101). -/
def decodeSetaddr (imm : Byte) (rest : List Byte) : Decoded :=
  if imm.toNat < 128 then .request (.enSetaddr (imm.extractLsb' 0 7)) rest
  else .illegal .addressAbove127 rest

/-- The opcode map of R101 on the four bits of `OP`. -/
def decodeOp (op : Nat) (imm : Byte) (rest : List Byte) : Decoded :=
  match op with
  | 0x0 => .request (.rbInit imm) rest
  | 0x1 => .request (.rbWrite imm) rest
  | 0x2 => decodePlain imm .rbRead rest
  | 0x3 => .request (.rbPeek imm) rest
  | 0x4 => decodePlain imm .rbEmpty rest
  | 0x5 => decodePlain imm .rbAvail rest
  | 0x8 => decodeIngest imm rest
  | 0x9 => decodeSend imm rest
  | 0xA => decodePlain imm .enReceive rest
  | 0xB => decodePlain imm .enPending rest
  | 0xC => decodeCksum imm rest
  | 0xD => decodeSetaddr imm rest
  | _ => .illegal .reservedOp rest

/-- One command word and the stream behind it (R100, R103). -/
def decodeWord (w : Word) (rest : List Byte) : Decoded :=
  if zeroField w = 0 then decodeOp (opField w).toNat (imm8 w) rest
  else .illegal .zeroFieldSet rest

/-- Total on any bytes.  The command word arrives most significant byte first, as every multi-byte
number of the streams does (R101; log 2). -/
def decode : List Byte → Decoded
  | hi :: lo :: rest => decodeWord (be16 hi lo) rest
  | _ => .noWord

/-! ## The encoder -/

/-- The command word `OP ZERO IMM8` with `ZERO = 0` (R100). -/
def commandWord (op : BitVec 4) (imm : Byte) : Word := op ++ (0 : BitVec 4) ++ imm

/-- The command word of an operation (R101). -/
def encodeWord : Instr → Word
  | .rbInit cap => commandWord 0x0 cap
  | .rbWrite b => commandWord 0x1 b
  | .rbRead => commandWord 0x2 0
  | .rbPeek k => commandWord 0x3 k
  | .rbEmpty => commandWord 0x4 0
  | .rbAvail => commandWord 0x5 0
  | .enIngest _ => commandWord 0x8 0
  | .enSend dest _ _ => commandWord 0x9 (dest.zeroExtend 8)
  | .enReceive => commandWord 0xA 0
  | .enPending => commandWord 0xB 0
  | .enCksum _ _ _ _ _ => commandWord 0xC 0
  | .enSetaddr a => commandWord 0xD (a.zeroExtend 8)

/-- A 16-bit number in a stream, most significant byte first (R101). -/
def streamWord (w : Word) : List Byte := [hiByte w, loByte w]

/-- A counted byte sequence: its 16-bit length, then its bytes (R101). -/
def countedBytes (bs : List Byte) : List Byte := streamWord (BitVec.ofNat 16 bs.length) ++ bs

/-- The operand stream of an operation (R101). -/
def encodeOperands : Instr → List Byte
  | .enIngest raw => countedBytes raw
  | .enSend _ opcode payload => opcode :: countedBytes payload
  | .enCksum s f o i l => [s, f, o, i, l]
  | .rbInit _ => []
  | .rbWrite _ => []
  | .rbRead => []
  | .rbPeek _ => []
  | .rbEmpty => []
  | .rbAvail => []
  | .enReceive => []
  | .enPending => []
  | .enSetaddr _ => []

/-- The bytes of a request: its command word, then its operand stream (R100). -/
def encode (i : Instr) : List Byte := streamWord (encodeWord i) ++ encodeOperands i

/-! ## Words of the opcode table -/

/-- The words of a table entry in stream order: bits 15:0 first, each word most significant byte
first. -/
def tableWords : Nat → Nat → List Byte
  | 0, _ => []
  | k + 1, w => streamWord (BitVec.ofNat 16 w) ++ tableWords k (w >>> 16)

/-- How many operand bytes the request consumes when all of them are 0 (R101): a zero length for
`EN_INGEST` and `EN_SEND`. -/
def zeroOperands (w : Word) : Nat :=
  match (opField w).toNat with
  | 0x8 => 2
  | 0x9 => 3
  | 0xC => 5
  | _ => 0

/-- The bytes of an instruction of the opcode table, with every operand bit above `nbits` zero. -/
def tableBytes (nbits w : Nat) : List Byte :=
  let words := tableWords ((nbits + 15) / 16) w
  words ++ List.replicate (2 + zeroOperands (BitVec.ofNat 16 w) - words.length) 0

/-- The instruction the decoder reads from a word of the opcode table. -/
def decodeTableWord (nbits w : Nat) : Option Instr :=
  match decode (tableBytes nbits w) with
  | .request i _ => some i
  | .illegal _ _ => none
  | .noWord => none
  | .noOperands => none

end Sys2Proof
end

