-- ==== Sys2Proof/Config.lean ====
section
/-! DEFINITION. Constants, build-time parameters and free values (spec/00_scope.md R6 to R10,
spec/93_implementation_defined.md). -/

namespace Sys2Proof.Config

/-- `HEADER_SIZE` (R7): the seven header bytes of a frame. -/
def headerSize : Nat := 7

/-- `MIN_FRAME` (R7): the header size rounded up to a 4-byte boundary. -/
def minFrame : Nat := 8

/-- `ALIGN` (R6): frames are padded to a multiple of this. -/
def align : Nat := 4

/-- `RB_CAP_MAX` (R6): the largest usable ring capacity. -/
def rbCapMax : Nat := 254

/-- `SLOTS_MAX` (R6): the storage slots that exist (R24). -/
def slotsMax : Nat := 255

/-- `TTL_MAX` (R6): the TTL field saturates here. -/
def ttlMax : Nat := 15

/-- The build-time parameters of the block, "arguments of the model" (R8, R9, R10).
They are no state (R33): no step changes them (log 1). -/
structure Params where
  /-- `MAX_BUS_PAYLOAD` (R8): the largest frame handed to the bus. -/
  maxBusPayload : Nat
  /-- `RB_CAPACITY` (R9): the capacity given to the ring buffer at reset. -/
  capacity : Nat
  /-- `AGG_MAX` (R10): the bytes the reassembly aggregate can hold; `none` is "unbounded" (U8). -/
  aggMax : Option Nat
  deriving DecidableEq, Repr

/-- The default parameters (table at the end of 00_scope.md section 4). -/
def Params.default : Params := ⟨32, 254, some 246⟩

/-- The constraints of R8, R9 and R10. -/
abbrev Params.Ok (p : Params) : Prop :=
  p.maxBusPayload % 4 = 0 ∧ 8 ≤ p.maxBusPayload ∧ p.maxBusPayload ≤ 252 ∧
    p.capacity ≤ 254 ∧ ∀ m ∈ p.aggMax, 246 ≤ m

/-- `MAX_CHUNK = MAX_BUS_PAYLOAD - HEADER_SIZE` (R8). -/
def Params.maxChunk (p : Params) : Nat := p.maxBusPayload - headerSize

/-- The aggregate may hold `n` bytes (R10, U8). -/
def Params.aggFits (p : Params) (n : Nat) : Bool :=
  match p.aggMax with
  | some m => n ≤ m
  | none => true

/-- What `BusTransmit` answers (R92, R236). -/
inductive BusStatus where
  | ok
  | tooLong
  | addressNack
  | dataNack
  | other
  deriving DecidableEq, Repr, Inhabited

/-- FREE VALUE (U3, U5): the byte read from a slot whose content the spec leaves open, one for each
draw.  Nothing constrains it (log 8, log 9). -/
opaque freeByte : Nat → Byte

/-- FREE VALUE (U11, R236): the status a `BusTransmit` is answered with when the list of the
environment's answers is used up, one for each draw.  Nothing constrains it (log 7). -/
opaque freeBusStatus : Nat → BusStatus

end Sys2Proof.Config
end

