-- ==== Sys2Proof/Machine/State.lean ====
section
/-! DEFINITION. Machine state (spec/10_state.md), the reasons a step can stop, and reset. -/

namespace Sys2Proof.Machine

/-- Why the machine stops.  None of these is an exception of the hardware, which raises none (R220):
each is the fault by which 93_implementation_defined.md asks a model to stop, or guards a state that
no run reaches. -/
inductive Fault where
  /-- `RB_READ` on an empty buffer (U1; R123).  Raised by a direct `RB_READ` and by the reads of a
  drain after the framing was broken (U4).  Safe: the document calls the behaviour undefined. -/
  | readEmpty
  /-- A drained record's length prefix is below 7, so its payload count would be negative (U4).
  Raised by `EN_RECEIVE` when the framing was broken.  Safe. -/
  | shortPrefix
  /-- The byte that would make the aggregate longer than `AGG_MAX` (U8).  Raised by `EN_RECEIVE`
  when notifications interleave its drain.  Safe. -/
  | aggregateFull
  /-- An access to a slot index above 254 (R50: "`0 .. 254`").  Raised by the ring buffer's one load
  and one store; unreachable while the cursor invariant R28 holds.  Safe. -/
  | noSuchSlot
  /-- The model's own bound on the records of one drain is used up (log 14).  Raised by `EN_RECEIVE`;
  unreachable while the cursor invariant R28 holds.  Safe. -/
  | drainBound
  deriving DecidableEq, Repr

/-- Why an instruction is refused. -/
inductive Refusal where
  /-- The instruction has no meaning in the model yet.  Raised by `exec` only; every instruction of
  the table has its meaning, so no arm raises it.  Safe. -/
  | notModelled (mnemonic : String)
  deriving DecidableEq, Repr

/-- Working registers of one `EN_RECEIVE` (R31). -/
structure RxWork where
  /-- `R_SENDER`. -/
  sender : Byte
  /-- `R_FLAG`. -/
  flag : Byte
  /-- `R_OPCODE`. -/
  opcode : Byte
  /-- `R_ID`. -/
  id : Byte
  /-- `R_CKSUM`. -/
  cksum : Word
  /-- `R_SIZE`. -/
  size : Nat
  /-- `R_COMPLETE`. -/
  complete : Bool
  /-- `AGG`, the payload bytes gathered so far. -/
  agg : List Byte
  /-- `FIRST`: no record has been read yet in this call. -/
  first : Bool
  deriving DecidableEq, Repr

/-- The working registers at the start of an `EN_RECEIVE`: "all zero, `AGG` empty, `FIRST` = 1"
(R31).  Also their value between operations, when they are not kept (log 6). -/
def RxWork.start : RxWork := ⟨0, 0, 0, 0, 0, 0, false, [], true⟩

/-- Working registers of one `EN_SEND` (R32, R160). -/
structure TxWork where
  /-- `COUNT`, the number of fragments. -/
  count : Nat
  /-- `K`, the index of the current fragment. -/
  k : Nat
  /-- `OFF`, the byte offset into the payload. -/
  off : Nat
  /-- `OK`: the most recent transmission was answered `OK`. -/
  ok : Bool
  /-- `last`, the most recent bus status (R160). -/
  last : Config.BusStatus
  /-- The frame under assembly. -/
  frame : List Byte
  deriving DecidableEq, Repr

/-- The sequencer's working registers between operations, when they are not kept (R32; log 6). -/
def TxWork.idle : TxWork := ⟨0, 0, 0, false, .ok, []⟩

/-- The machine.  Persistent state is R20's; the working registers are R31's and R32's; the streams
are what crosses the boundary of the block (R50, R60, R100, R236). -/
structure State where
  /-- Build-time parameters (R8 to R10); never changed (log 1). -/
  params : Config.Params
  /-- `STORE` (R24), the slots that hold a defined value, in canonical form (log 9). -/
  store : List Host.Cell
  /-- `SLOTS` (R25). -/
  slots : Byte
  /-- `RD` (R26). -/
  rd : Byte
  /-- `WR` (R27). -/
  wr : Byte
  /-- `MSG_ID` (R29). -/
  msgId : Byte
  /-- `OWN_ADDR` (R30), bit 7 always 0. -/
  ownAddr : Byte
  /-- Transient state of `EN_RECEIVE` (R31). -/
  rx : RxWork
  /-- Transient state of `EN_SEND` (R32). -/
  tx : TxWork
  /-- Request stream of the host agent (R100). -/
  hostIn : List Byte
  /-- Response stream to the host agent (R101). -/
  hostOut : List Byte
  /-- Frames the ingest agent will deliver: the first entry at the next boundary between two atomic
  steps of the host, and so on; none after the last entry (R62, R237; log 5). -/
  arrivals : List (List (List Byte))
  /-- Statuses answered to the ingest agent (R140). -/
  ingestOut : List Byte
  /-- Statuses the bus collaborator will answer, the next one first (R236; log 7). -/
  busIn : List Config.BusStatus
  /-- Frames handed to the bus collaborator, with their destination (R236). -/
  busOut : List (Addr7 × List Byte)
  /-- The model's own field: the index of the next free value (log 8). -/
  freeCount : Nat
  deriving DecidableEq, Repr

/-- Reset with given parameters (R35, R250): the ring buffer as after `RB_INIT(RB_CAPACITY)`,
`MSG_ID` and `OWN_ADDR` 0, no slot of `STORE` with a defined value, no operation in progress. -/
def State.resetWith (p : Config.Params) : State where
  params := p
  store := []
  slots := BitVec.ofNat 8 (p.capacity + 1)
  rd := 0
  wr := 0
  msgId := 0
  ownAddr := 0
  rx := .start
  tx := .idle
  hostIn := []
  hostOut := []
  arrivals := []
  ingestOut := []
  busIn := []
  busOut := []
  freeCount := 0

/-- The machine right after reset, with the default parameters (R35, R250). -/
def State.reset : State := .resetWith .default

end Sys2Proof.Machine
end

