-- ==== Sys2Proof/Machine/Flags.lean ====
section
/-! DEFINITION. The flag byte, the computed conditions of the ring buffer, and the status codes
(spec/30_encoding.md R80 to R84, R92, R104; spec/10_state.md R23). -/

namespace Sys2Proof.Machine

open Sys2Proof.Config

/-! ## The flag byte -/

/-- `FRAG(f) = f[1:0]` (R82). -/
def frag (f : Byte) : BitVec 2 := f.extractLsb' 0 2

/-- `RSV(f) = f[3:2]` (R82). -/
def rsv (f : Byte) : BitVec 2 := f.extractLsb' 2 2

/-- `TTL(f) = f[7:4]` (R82). -/
def ttl (f : Byte) : BitVec 4 := f.extractLsb' 4 4

/-- `MKFLAG(ttl, frag)`, with the reserved bits 0 (R82). -/
def mkFlag (t : BitVec 4) (g : BitVec 2) : Byte := t ++ (0 : BitVec 2) ++ g

/-- `NOT_FRAGMENTED` (R81). -/
def notFragmented : BitVec 2 := 0

/-- `START_OR_MIDDLE` (R81). -/
def startOrMiddle : BitVec 2 := 1

/-- `END` (R81). -/
def endFragment : BitVec 2 := 2

/-- `(f & 0xFC) | END`: the fragmentation state forced to `END` (R185). -/
def forceEnd (f : Byte) : Byte := (f &&& 0xFC) ||| endFragment.zeroExtend 8

/-- A record with this flag stops a drain successfully: `NOT_FRAGMENTED` or `END` (R185); value 3 is
neither (R84). -/
def terminates (f : Byte) : Bool := frag f = notFragmented || frag f = endFragment

/-! ## The computed conditions -/

/-- *empty*: `RD == WR` (R23, R125). -/
def isEmpty (s : State) : Bool := s.rd = s.wr

/-- *full*: `(WR + 1) mod SLOTS == RD` (R23, R122). -/
def isFull (s : State) : Bool := (s.wr.toNat + 1) % s.slots.toNat = s.rd.toNat

/-! ## Statuses -/

/-- The status an operation returns (R104). -/
inductive Status where
  | ok
  | rbFull
  | dropShort
  | dropMisaligned
  | dropChecksum
  | dropTruncated
  | dropNospace
  | txFail
  | rxEmpty
  | rxComplete
  | rxRequeued
  | rxDroppedTtl
  | rxDroppedNospace
  | illegal
  deriving DecidableEq, Repr

/-- The code of a status (R104). -/
def Status.code : Status → Byte
  | .ok => 0x00
  | .rbFull => 0x01
  | .dropShort => 0x02
  | .dropMisaligned => 0x03
  | .dropChecksum => 0x04
  | .dropTruncated => 0x05
  | .dropNospace => 0x06
  | .txFail => 0x07
  | .rxEmpty => 0x08
  | .rxComplete => 0x09
  | .rxRequeued => 0x0A
  | .rxDroppedTtl => 0x0B
  | .rxDroppedNospace => 0x0C
  | .illegal => 0x0F

/-- The number of a bus status (R92). -/
def busCode : BusStatus → Byte
  | .ok => 0
  | .tooLong => 1
  | .addressNack => 2
  | .dataNack => 3
  | .other => 4

/-- A `bool` of a response stream: 0 for false and 1 for true (R101). -/
def boolByte (b : Bool) : Byte := if b then 1 else 0

end Sys2Proof.Machine
end

