-- ==== Sys2Proof/Machine/Operands.lean ====
section
/-! DEFINITION. Operand forms: effective addresses of the ring buffer, the checksum function, frames,
records and response streams (spec/20_memory.md R51, spec/44_checksum.md R210,
spec/30_encoding.md R85 to R90, R101). -/

namespace Sys2Proof.Machine

open Sys2Proof.Config

/-! ## Cursors and effective addresses -/

/-- A cursor advance `c <- (c + 1) mod SLOTS` (R51). -/
def advance (slots c : Byte) : Byte := BitVec.ofNat 8 ((c.toNat + 1) % slots.toNat)

/-- `(RD + k) mod SLOTS`, the sum formed without loss (R51, R124). -/
def peekSlot (s : State) (k : Nat) : Nat := (s.rd.toNat + k) % s.slots.toNat

/-- The number of stored bytes, `((WR + SLOTS) - RD) mod SLOTS` (R28, R126). -/
def occupied (s : State) : Nat := (s.wr.toNat + s.slots.toNat - s.rd.toNat) % s.slots.toNat

/-- The free space, `SLOTS - 1 - occupied` (R126). -/
def freeSpace (s : State) : Nat := s.slots.toNat - 1 - occupied s

/-! ## The checksum function -/

/-- `CK(sender, flag, opcode, id, length)` in 16-bit arithmetic with wraparound (R210). -/
def ck (sender flag opcode id length : Byte) : Word :=
  ~~~(((sender.zeroExtend 16 <<< 8) + opcode.zeroExtend 16) +
    (((flag.zeroExtend 16 + length.zeroExtend 16) <<< 8) + id.zeroExtend 16))

/-- The accumulator form of the checksum unit: four additions, then the complement (R211). -/
def ckAccumulator (sender flag opcode id length : Byte) : Word :=
  let acc : Word := 0
  let acc := acc + sender.zeroExtend 16 <<< 8
  let acc := acc + opcode.zeroExtend 16
  let acc := acc + (flag + length).zeroExtend 16 <<< 8
  let acc := acc + id.zeroExtend 16
  ~~~acc

/-! ## Frames and records -/

/-- `PAD(m) = (4 - (m mod 4)) mod 4` (R86). -/
def pad (m : Nat) : Nat := (align - m % align) % align

/-- `FRAMELEN(plen) = 7 + plen + PAD(7 + plen)` (R86). -/
def frameLen (plen : Nat) : Nat := headerSize + plen + pad (headerSize + plen)

/-- The seven header bytes in wire order, with the checksum of its own fields, high byte first
(R85, R163, R190). -/
def headerBytes (sender flag opcode id length : Byte) : List Byte :=
  [sender, flag, opcode, id] ++ streamWord (ck sender flag opcode id length) ++ [length]

/-- A frame on the bus: header, payload, zero padding (R85, R164). -/
def frameBytes (sender flag opcode id : Byte) (payload : List Byte) : List Byte :=
  headerBytes sender flag opcode id (BitVec.ofNat 8 payload.length) ++ payload ++
    List.replicate (pad (headerSize + payload.length)) 0

/-- A stored record: the length prefix `L = 7 + plen`, header, payload (R88). -/
def recordBytes (sender flag opcode id : Byte) (payload : List Byte) : List Byte :=
  BitVec.ofNat 8 (headerSize + payload.length) ::
    (headerBytes sender flag opcode id (BitVec.ofNat 8 payload.length) ++ payload)

/-! ## Fields of a raw frame (R142) -/

/-- `raw[j]`; the length tests come first, so that the header bytes exist (R142). -/
def rawByte (raw : List Byte) (j : Nat) : Byte := raw.getD j 0

/-- The transmitted checksum `(raw[4] << 8) | raw[5]` (R142, R215). -/
def rawChecksum (raw : List Byte) : Word := be16 (rawByte raw 4) (rawByte raw 5)

/-- `plen = raw[6]` (R142). -/
def rawPlen (raw : List Byte) : Nat := (rawByte raw 6).toNat

/-- The checksum recomputed over the five covered bytes (R143). -/
def rawRecomputed (raw : List Byte) : Word :=
  ck (rawByte raw 0) (rawByte raw 1) (rawByte raw 2) (rawByte raw 3) (rawByte raw 6)

/-- The outcome of the admission tests, in their order (R140, R148): `ok` admits. -/
def admission (raw : List Byte) (free : Nat) : Status :=
  if raw.length < minFrame then .dropShort
  else if raw.length % align ≠ 0 then .dropMisaligned
  else if rawRecomputed raw ≠ rawChecksum raw then .dropChecksum
  else if headerSize + rawPlen raw > raw.length then .dropTruncated
  else if free < headerSize + rawPlen raw + 1 then .dropNospace
  else .ok

/-- The record stored for an admitted frame: `L`, then `raw[0 .. 6 + plen]` unchanged (R146). -/
def rawRecord (raw : List Byte) : List Byte :=
  BitVec.ofNat 8 (headerSize + rawPlen raw) :: raw.take (headerSize + rawPlen raw)

/-! ## The payload split of `EN_SEND` (R161, R162) -/

/-- `COUNT`: 1 for an empty payload, else `ceil(n / MAX_CHUNK)` (R161). -/
def fragmentCount (n maxChunk : Nat) : Nat :=
  if n = 0 then 1 else (n + maxChunk - 1) / maxChunk

/-- The fragmentation state of fragment `k` of `count` (R162). -/
def fragmentState (count k : Nat) : BitVec 2 :=
  if count = 1 then notFragmented
  else if k + 1 < count then startOrMiddle
  else endFragment

/-! ## Response streams -/

/-- The logical message a `EN_RECEIVE` returns (R90). -/
structure Message where
  sender : Byte
  flag : Byte
  opcode : Byte
  id : Byte
  cksum : Word
  size : Nat
  complete : Bool
  payload : List Byte
  deriving DecidableEq, Repr

/-- "result" of R180: the message the working registers hold. -/
def RxWork.message (r : RxWork) : Message :=
  ⟨r.sender, r.flag, r.opcode, r.id, r.cksum, r.size, r.complete, r.agg⟩

/-- The response stream of `EN_RECEIVE` (R101). -/
def messageStream (st : Status) (m : Message) : List Byte :=
  [st.code, m.sender, m.flag, m.opcode, m.id] ++ streamWord m.cksum ++
    streamWord (BitVec.ofNat 16 m.size) ++ [boolByte m.complete] ++ m.payload

end Sys2Proof.Machine
end

