-- ==== Sys2Proof/Machine/Ops.lean ====
section
/-! DEFINITION. Shared operations: the storage, the six ring buffer operations, `ingest`, taking the
asynchronous notification, the call to the bus, and answering a request (spec/20_memory.md,
spec/40_ring_buffer.md, spec/41_ingest.md, spec/60_exceptions.md). -/

namespace Sys2Proof.Machine

open Sys2Proof.Config

/-! ## The storage `STORE` (R24, R50, R52)

A list of (slot, byte) with rising slots; a slot that is not listed holds no defined value (U3;
log 9). -/

/-- The byte a slot holds, if it holds a defined one. -/
def memRead : List Host.Cell → Nat → Option Byte
  | [], _ => none
  | (x, v) :: m, a => if a = x then some v else memRead m a

/-- `STORE[a] <- b`. -/
def memWrite : List Host.Cell → Nat → Byte → List Host.Cell
  | [], a, b => [(a, b)]
  | (x, v) :: m, a, b =>
    if a < x then (a, b) :: (x, v) :: m
    else if a = x then (a, b) :: m
    else (x, v) :: memWrite m a b

/-- The canonical form: slots strictly rising, each below 255. -/
abbrev Memory.wf (m : List Host.Cell) : Prop :=
  m.Pairwise (fun c d => c.1 < d.1) ∧ ∀ c ∈ m, c.1 < slotsMax

/-- A byte whose value the spec leaves open: the next free value (U3, U5; log 8). -/
def drawByte (s : State) : Byte × State :=
  (freeByte s.freeCount, { s with freeCount := s.freeCount + 1 })

/-- `MemRead(a, 1)` (R52): the slot's byte, or any value when none is defined (U3). -/
def load (a : Nat) (s : State) : Except Fault (Byte × State) :=
  if a < slotsMax then
    match memRead s.store a with
    | some v => .ok (v, s)
    | none => .ok (drawByte s)
  else .error .noSuchSlot

/-! ## The ring buffer operations -/

/-- `RB_INIT cap` (R121). -/
def rbInit (cap : Byte) (s : State) : State :=
  { s with slots := BitVec.ofNat 8 (min cap.toNat rbCapMax + 1), rd := 0, wr := 0 }

/-- `RB_WRITE b` (R122). -/
def rbWrite (b : Byte) (s : State) : Except Fault (Status × State) :=
  if isFull s then .ok (.rbFull, s)
  else if s.wr.toNat < slotsMax then
    .ok (.ok, { s with store := memWrite s.store s.wr.toNat b, wr := advance s.slots s.wr })
  else .error .noSuchSlot

/-- `RB_READ` (R123); an empty buffer is U1. -/
def rbRead (s : State) : Except Fault (Byte × State) :=
  if isEmpty s then .error .readEmpty
  else do
    let (v, s) ← load s.rd.toNat s
    return (v, { s with rd := advance s.slots s.rd })

/-- `RB_PEEK k` (R124): a stored byte when the addressed slot is inside the occupied range, any
value outside it (U5). -/
def rbPeek (k : Nat) (s : State) : Except Fault (Byte × State) :=
  if k % s.slots.toNat < occupied s then load (peekSlot s k) s
  else if peekSlot s k < slotsMax then .ok (drawByte s)
  else .error .noSuchSlot

/-- Successive `RB_WRITE`s whose statuses nobody looks at (R146, R180 steps a9 to a11 without
interleaving). -/
def rbWrites : List Byte → State → Except Fault State
  | [], s => .ok s
  | b :: bs, s => do
    let (_, s) ← rbWrite b s
    rbWrites bs s

/-! ## `ingest` and the notification -/

/-- `EN_INGEST raw` as one atomic step (R140, R61): the admission tests, then the record's writes.
A dropped frame changes nothing. -/
def ingest (raw : List Byte) (s : State) : Except Fault (Status × State) :=
  match admission raw (freeSpace s) with
  | .ok => do
    let s ← rbWrites (rawRecord raw) s
    return (.ok, s)
  | st => .ok (st, s)

/-- The ingest agent's `EN_INGEST`s at one boundary, one after another, never nested (R61, R227);
each is answered to the ingest agent. -/
def ingestAll : List (List Byte) → State → Except Fault State
  | [], s => .ok s
  | raw :: more, s => do
    let (st, s) ← ingest raw s
    ingestAll more { s with ingestOut := s.ingestOut ++ [st.code] }

/-- TAKING THE NOTIFICATION, the hardware's one asynchronous event (R224 to R227), at a boundary
between two atomic steps of the host: the frames scheduled for this boundary are ingested and the
host goes on.  It saves nothing and switches nothing, and its return restores nothing. -/
def notify (s : State) : Except Fault State :=
  match s.arrivals with
  | [] => .ok s
  | frames :: later => ingestAll frames { s with arrivals := later }

/-! ## The bus collaborator -/

/-- `BusTransmit(dest, frame)` (R236): hands the frame over and draws the environment's answer
(U11; log 7). -/
def busTransmit (dest : Addr7) (frame : List Byte) (s : State) : BusStatus × State :=
  let s := { s with busOut := s.busOut ++ [(dest, frame)] }
  match s.busIn with
  | st :: later => (st, { s with busIn := later })
  | [] => (freeBusStatus s.freeCount, { s with freeCount := s.freeCount + 1 })

/-! ## Answering a request -/

/-- The response stream of a request goes to the host agent (R101). -/
def respond (bs : List Byte) (s : State) : State := { s with hostOut := s.hostOut ++ bs }

/-- A response that is a status and the bytes behind it (R101, R104). -/
def answer (st : Status) (bs : List Byte) (s : State) : State := respond (st.code :: bs) s

/-- The outcome of an operation: a next state, or the fault that stopped it. -/
def finish : Except Fault State → Host.Outcome State Fault Refusal
  | .ok s => .next s
  | .error r => .fault r

end Sys2Proof.Machine
end

