-- ==== Sys2Proof/Machine/Checksum.lean ====
section
/-! DEFINITION. `EN_CKSUM` (spec/44_checksum.md R212). -/

namespace Sys2Proof.Machine

/-- `EN_CKSUM s, f, o, i, l` (R212): the value of `CK`, high byte first. -/
def execEnCksum (sender flag opcode id length : Byte) (s : State) :
    Host.Outcome State Fault Refusal :=
  .next (answer .ok (streamWord (ck sender flag opcode id length)) s)

end Sys2Proof.Machine
end

