-- ==== Sys2Proof/Machine/Ingest.lean ====
section
/-! DEFINITION. `EN_INGEST` as a request of the host agent (spec/41_ingest.md R140 to R149). -/

namespace Sys2Proof.Machine

/-- `EN_INGEST raw` (R140), answered with its status. -/
def execEnIngest (raw : List Byte) (s : State) : Host.Outcome State Fault Refusal :=
  finish do
    let (st, s) ← ingest raw s
    return answer st [] s

end Sys2Proof.Machine
end

