-- ==== Sys2Proof/Machine/Receive.lean ====
section
/-! DEFINITION. `EN_RECEIVE`, the reassembly state machine, and `EN_PENDING`
(spec/43_receive.md R180 to R199). -/

namespace Sys2Proof.Machine

open Sys2Proof.Config

/-! ## The ring buffer calls of the host operation

Each is one atomic step; a notification may come before it (R62, R199). -/

/-- `RB_EMPTY()` after the boundary before it. -/
def hostEmpty (s : State) : Except Fault (Bool × State) := do
  let s ← notify s
  return (isEmpty s, s)

/-- `RB_PEEK(k)` after the boundary before it. -/
def hostPeek (k : Nat) (s : State) : Except Fault (Byte × State) := do
  let s ← notify s
  rbPeek k s

/-- `RB_READ()` after the boundary before it. -/
def hostRead (s : State) : Except Fault (Byte × State) := do
  let s ← notify s
  rbRead s

/-- `n` calls of `RB_READ()`, in order. -/
def hostReads : Nat → State → Except Fault (List Byte × State)
  | 0, s => .ok ([], s)
  | n + 1, s => do
    let (v, s) ← hostRead s
    let (vs, s) ← hostReads n s
    return (v :: vs, s)

/-- `RB_AVAIL()` after the boundary before it. -/
def hostAvail (s : State) : Except Fault (Nat × State) := do
  let s ← notify s
  return (freeSpace s, s)

/-- The `RB_WRITE`s of a requeue, in order; a full buffer is ignored (R199, U10). -/
def hostWrites : List Byte → State → Except Fault State
  | [], s => .ok s
  | b :: bs, s => do
    let s ← notify s
    let (_, s) ← rbWrite b s
    hostWrites bs s

/-! ## The drain -/

/-- Step a5 (R182): the header of the first record of a drain goes into the working registers, its
two checksum bytes are discarded. -/
def loadHeader (h : List Byte) (r : RxWork) : RxWork :=
  { r with
    sender := h.getD 0 0, flag := h.getD 1 0, opcode := h.getD 2 0, id := h.getD 3 0
    size := (h.getD 6 0).toNat, first := false }

/-- Steps a5 and a6: seven header bytes are read; those of the first record are kept (R182), those
of later records discarded (R183). -/
def drainHeader (s : State) : Except Fault State := do
  let (h, s) ← hostReads 7 s
  return if s.rx.first then { s with rx := loadHeader h s.rx } else s

/-- Step a7: `AGG = AGG ++ [RB_READ()]`, repeated (R184); a byte beyond `AGG_MAX` is U8. -/
def drainPayload : Nat → State → Except Fault State
  | 0, s => .ok s
  | n + 1, s => do
    let (b, s) ← hostRead s
    if s.params.aggFits (s.rx.agg.length + 1) then
      drainPayload n { s with rx := { s.rx with agg := s.rx.agg ++ [b] } }
    else .error .aggregateFull

/-- Steps a3 to a7: one record is read out of the buffer; its flag is the answer.  A prefix below 7
gives no payload count (U4). -/
def drainRecord (s : State) : Except Fault (Byte × State) := do
  let (f, s) ← hostPeek 2 s
  let (l, s) ← hostRead s
  let s ← drainHeader s
  if l.toNat < headerSize then .error .shortPrefix
  else do
    let s ← drainPayload (l.toNat - headerSize) s
    return (f, s)

/-- Completion detection after a record with flag `f` (R185). -/
def complete (f : Byte) (r : RxWork) : RxWork :=
  { r with
    flag := if frag f = endFragment then forceEnd r.flag else r.flag
    complete := true }

/-- The loop of R180: until a terminating record (R185) or an empty buffer between records (R186).
The first argument bounds the number of records (log 14). -/
def drain : Nat → State → Except Fault State
  | 0, _ => .error .drainBound
  | bound + 1, s => do
    let (e, s) ← hostEmpty s
    if e then .ok s
    else do
      let (f, s) ← drainRecord s
      if terminates f then .ok { s with rx := complete f s.rx } else drain bound s

/-- The frames still to be delivered. -/
def pendingFrames (s : State) : Nat := (s.arrivals.map List.length).sum

/-- The bytes a drain can still meet: those stored, and for each frame still to be delivered fewer
than 255 (log 14). -/
def backlog (s : State) : Nat := occupied s + 255 * pendingFrames s

/-- More records than a drain can meet, since each takes at least one byte (log 14). -/
def drainBudget (s : State) : Nat := backlog s + 1

/-- R187: `R_SIZE = len(AGG)` and the checksum over the aggregate header fields. -/
def totals (r : RxWork) : RxWork :=
  { r with
    size := r.agg.length
    cksum := ck r.sender r.flag r.opcode r.id (BitVec.ofNat 8 r.agg.length) }

/-! ## The end of an `EN_RECEIVE` -/

/-- "return result with status": the message is delivered and not kept (R31, R193). -/
def deliver (st : Status) (s : State) : State :=
  respond (messageStream st s.rx.message) { s with rx := .start }

/-- The record of a requeue: the whole aggregate under the first record's header, TTL + 1, reserved
bits 0 (R190). -/
def requeueRecord (r : RxWork) : List Byte :=
  recordBytes r.sender (mkFlag (ttl r.flag + 1) (frag r.flag)) r.opcode r.id r.agg

/-- Steps a8 to a12 for an incomplete message (R188 to R191). -/
def requeue (s : State) : Except Fault State :=
  if ttlMax ≤ (ttl s.rx.flag).toNat then .ok (deliver .rxDroppedTtl s)
  else do
    let (free, s) ← hostAvail s
    if free < s.rx.size + headerSize + 1 then .ok (deliver .rxDroppedNospace s)
    else do
      let s ← hostWrites (requeueRecord s.rx) s
      return deliver .rxRequeued s

/-- R180 from step a2 on, for a buffer that step a1 found not empty. -/
def receive (s : State) : Except Fault State := do
  let s ← drain (drainBudget s) s
  let s := { s with rx := totals s.rx }
  if s.rx.complete then .ok (deliver .rxComplete s) else requeue s

/-- `EN_RECEIVE` (R180). -/
def execEnReceive (s : State) : Host.Outcome State Fault Refusal :=
  let s := { s with rx := .start }
  finish (if isEmpty s then .ok (deliver .rxEmpty s) else receive s)

/-- `EN_PENDING` (R198): the exact complement of the test `EN_RECEIVE` makes first. -/
def execEnPending (s : State) : Host.Outcome State Fault Refusal :=
  .next (answer .ok [boolByte (!isEmpty s)] s)

end Sys2Proof.Machine
end

