-- ==== Sys2Proof/Machine/RingBuffer.lean ====
section
/-! DEFINITION. The six ring buffer operations as requests of the host agent
(spec/40_ring_buffer.md R120 to R126, R128). -/

namespace Sys2Proof.Machine

/-- `RB_INIT cap` (R121). -/
def execRbInit (cap : Byte) (s : State) : Host.Outcome State Fault Refusal :=
  .next (answer .ok [] (rbInit cap s))

/-- `RB_WRITE b` (R122). -/
def execRbWrite (b : Byte) (s : State) : Host.Outcome State Fault Refusal :=
  finish do
    let (st, s) ← rbWrite b s
    return answer st [] s

/-- `RB_READ` (R123). -/
def execRbRead (s : State) : Host.Outcome State Fault Refusal :=
  finish do
    let (v, s) ← rbRead s
    return answer .ok [v] s

/-- `RB_PEEK k` (R124). -/
def execRbPeek (k : Byte) (s : State) : Host.Outcome State Fault Refusal :=
  finish do
    let (v, s) ← rbPeek k.toNat s
    return answer .ok [v] s

/-- `RB_EMPTY` (R125). -/
def execRbEmpty (s : State) : Host.Outcome State Fault Refusal :=
  .next (answer .ok [boolByte (isEmpty s)] s)

/-- `RB_AVAIL` (R126). -/
def execRbAvail (s : State) : Host.Outcome State Fault Refusal :=
  .next (answer .ok [BitVec.ofNat 8 (freeSpace s)] s)

end Sys2Proof.Machine
end

