-- ==== Sys2Proof/Machine/Send.lean ====
section
/-! DEFINITION. `EN_SEND`, the fragmentation sequencer, and `EN_SETADDR`
(spec/42_send.md R160 to R171). -/

namespace Sys2Proof.Machine

open Sys2Proof.Config

/-- The frame of the current fragment: payload bytes `OFF .. OFF+len-1` under a header with TTL 0,
the fragment's state, the own address and the message id (R160 to R164). -/
def sendFrame (opcode : Byte) (payload : List Byte) (s : State) : List Byte :=
  frameBytes s.ownAddr (mkFlag 0 (fragmentState s.tx.count s.tx.k)) opcode s.msgId
    ((payload.drop s.tx.off).take s.params.maxChunk)

/-- One pass of the loop of R160 for fragment `K`: assemble, transmit, keep the status, advance the
offset whether or not the transmission failed (R165). -/
def sendFragment (dest : Addr7) (opcode : Byte) (payload : List Byte) (s : State) : State :=
  let len := min s.params.maxChunk (payload.length - s.tx.off)
  let s := { s with tx := { s.tx with frame := sendFrame opcode payload s } }
  let (st, s) := busTransmit dest s.tx.frame s
  { s with tx := { s.tx with last := st, ok := st = .ok, off := s.tx.off + len, k := s.tx.k + 1 } }

/-- The loop of R160 over the fragments still to send.  A notification may come after each
transmission, before the next one or the update of `MSG_ID` (R62). -/
def sendLoop (dest : Addr7) (opcode : Byte) (payload : List Byte) : Nat → State → Except Fault State
  | 0, s => .ok s
  | n + 1, s => do
    let s ← notify (sendFragment dest opcode payload s)
    sendLoop dest opcode payload n s

/-- The sequencer at the start of an `EN_SEND` (R160, R161). -/
def sendStart (payload : List Byte) (s : State) : State :=
  { s with tx := { TxWork.idle with count := fragmentCount payload.length s.params.maxChunk } }

/-- The end of an `EN_SEND`: one increment of `MSG_ID` whatever the bus answered (R166), the answer
from the last fragment's status (R165), and the working registers not kept (R32). -/
def sendEnd (s : State) : State :=
  answer (if s.tx.ok then .ok else .txFail) [busCode s.tx.last]
    { s with msgId := s.msgId + 1, tx := .idle }

/-- `EN_SEND dest, opcode, payload` (R160). -/
def execEnSend (dest : Addr7) (opcode : Byte) (payload : List Byte) (s : State) :
    Host.Outcome State Fault Refusal :=
  finish do
    let s := sendStart payload s
    let s ← sendLoop dest opcode payload s.tx.count s
    return sendEnd s

/-- `EN_SETADDR a` (R170). -/
def execEnSetaddr (a : Addr7) (s : State) : Host.Outcome State Fault Refusal :=
  .next (answer .ok [] { s with ownAddr := a.zeroExtend 8 })

end Sys2Proof.Machine
end

