-- ==== Sys2Proof/Machine/Dispatch.lean ====
section
/-! DEFINITION. One arm for each operation of the opcode table. -/

namespace Sys2Proof.Machine

def exec (i : Instr) (s : State) : Host.Outcome State Fault Refusal :=
  match i with
  | .rbInit cap => Sys2Proof.Machine.execRbInit cap s
  | .rbWrite b => Sys2Proof.Machine.execRbWrite b s
  | .rbRead => Sys2Proof.Machine.execRbRead s
  | .rbPeek k => Sys2Proof.Machine.execRbPeek k s
  | .rbEmpty => Sys2Proof.Machine.execRbEmpty s
  | .rbAvail => Sys2Proof.Machine.execRbAvail s
  | .enIngest raw => Sys2Proof.Machine.execEnIngest raw s
  | .enSend dest opcode payload => Sys2Proof.Machine.execEnSend dest opcode payload s
  | .enReceive => Sys2Proof.Machine.execEnReceive s
  | .enPending => Sys2Proof.Machine.execEnPending s
  | .enCksum sender flag opcode id length => Sys2Proof.Machine.execEnCksum sender flag opcode id length s
  | .enSetaddr a => Sys2Proof.Machine.execEnSetaddr a s

end Sys2Proof.Machine
end

