-- ==== Sys2Proof/Machine/Fetch.lean ====
section
/-! DEFINITION. Taking a request from the request stream (spec/30_encoding.md R100, R103). -/

namespace Sys2Proof.Machine

/-- The front of the request stream, decoded. -/
def fetch (s : State) : Decoded := decode s.hostIn

/-- The state with the request stream moved on to `rest`. -/
def consume (rest : List Byte) (s : State) : State := { s with hostIn := rest }

/-- An illegal word: no state changes, no operand is consumed, and the answer is the single status
byte `ST_ILLEGAL` (R103). -/
def answerIllegal (rest : List Byte) (s : State) : State := answer .illegal [] (consume rest s)

/-- The request stream that holds exactly one instruction of the opcode table. -/
def placeRequest (nbits w : Nat) (s : State) : State := { s with hostIn := tableBytes nbits w }

end Sys2Proof.Machine
end

