-- ==== Sys2Proof/Machine/Step.lean ====
section
/-! DEFINITION. One step of the machine (spec/20_memory.md R60 to R62). -/

namespace Sys2Proof.Machine

/-- One step: the notifications of the boundary before the host's next atomic step (R62), then the
request at the front of the host's stream, run to completion (R22).  An illegal word is answered and
passed over (R103).  With no whole request in the stream the block is idle and holds its state
(R240; log 3). -/
def step (s : State) : Host.Outcome State Fault Refusal :=
  match notify s with
  | .error r => .fault r
  | .ok s =>
    match fetch s with
    | .request i rest => exec i (consume rest s)
    | .illegal _ rest => .next (answerIllegal rest s)
    | .noWord => .next s
    | .noOperands => .next s

/-- The state with one instruction of the opcode table as its whole request stream (log 4). -/
def State.withFetchWord (s : State) (nbits w : Nat) : State := placeRequest nbits w s

end Sys2Proof.Machine
end

