-- ==== Sys2Proof/Safety.lean ====
section
/-! DEFINITION. The terms claims are stated in: the invariants of the machine, the byte queue and the
record queue the ring buffer stands for, and the document-level functions of `EN_SEND` and
`EN_RECEIVE` on them (spec/10_state.md R28, R36; spec/40_ring_buffer.md R127;
spec/43_receive.md R195; spec/42_send.md R161). -/

namespace Sys2Proof.Machine

open Sys2Proof.Config

/-! ## Invariants -/

/-- The cursor invariant (R28): `1 <= SLOTS`, `RD < SLOTS`, `WR < SLOTS`. -/
abbrev Cursors (s : State) : Prop := s.rd.toNat < s.slots.toNat ∧ s.wr.toNat < s.slots.toNat

/-- Every frame the environment will deliver has a 16-bit length (R11, R237). -/
abbrev FramesFit (s : State) : Prop := ∀ frames ∈ s.arrivals, ∀ raw ∈ frames, raw.length < 65536

/-- The invariant every step keeps: the parameters meet their constraints (R8 to R10), the cursor
invariant (R28), bit 7 of `OWN_ADDR` is 0 (R30), `STORE` is in its canonical form with slots 0 to 254
only (R24, R50), and the environment's frames are within its contract (R237). -/
structure Inv (s : State) : Prop where
  params : s.params.Ok
  cursors : Cursors s
  ownAddr : s.ownAddr.toNat < 128
  store : Memory.wf s.store
  frames : FramesFit s

/-- Every slot of the occupied range holds a byte some `RB_WRITE` stored (U3: "always address slots
written since the cursors were last equal"). -/
def Written (s : State) : Prop :=
  ∀ k, k < occupied s → (memRead s.store (peekSlot s k)).isSome

/-- No operation is in progress: the transient working registers hold their idle values (R22, R35). -/
abbrev Idle (s : State) : Prop := s.rx = .start ∧ s.tx = .idle

/-- No notification is scheduled inside the coming operations. -/
def Quiet (s : State) : Prop := ∀ frames ∈ s.arrivals, frames = []

/-! ## The byte queue -/

/-- `q` of R127: what the occupied slots hold, in FIFO order. -/
def fifo (s : State) : List (Option Byte) :=
  (List.range (occupied s)).map fun k => memRead s.store (peekSlot s k)

/-- The ring buffer holds exactly the bytes `q` (R127). -/
def Holds (s : State) (q : List Byte) : Prop := fifo s = q.map some

/-- One ring buffer operation on a bounded queue of capacity `slots - 1` (R127): the bytes answered,
and the new slot count and queue.  `none` outside the preconditions (a read of an empty queue, a
peek that addresses no stored byte) and for the engine's operations. -/
def queueOp (i : Instr) (slots : Nat) (q : List Byte) : Option (List Byte × Nat × List Byte) :=
  match i with
  | .rbInit cap => some ([0x00], min cap.toNat 254 + 1, [])
  | .rbWrite b =>
    if q.length < slots - 1 then some ([0x00], slots, q ++ [b]) else some ([0x01], slots, q)
  | .rbRead => q.head?.map fun b => ([0x00, b], slots, q.tail)
  | .rbPeek k => q[k.toNat % slots]?.map fun b => ([0x00, b], slots, q)
  | .rbEmpty => some ([0x00, if q.length = 0 then 1 else 0], slots, q)
  | .rbAvail => some ([0x00, BitVec.ofNat 8 (slots - 1 - q.length)], slots, q)
  | .enIngest _ => none
  | .enSend _ _ _ => none
  | .enReceive => none
  | .enPending => none
  | .enCksum _ _ _ _ _ => none
  | .enSetaddr _ => none

/-- A sequence of ring buffer operations on the bounded queue, with everything answered. -/
def queueRun : List Instr → Nat → List Byte → Option (List Byte × Nat × List Byte)
  | [], slots, q => some ([], slots, q)
  | i :: more, slots, q =>
    match queueOp i slots q with
    | none => none
    | some (out, slots', q') =>
      match queueRun more slots' q' with
      | none => none
      | some (out', last) => some (out ++ out', last)

/-- Operations one after another, stopping at the first fault or refusal. -/
def execAll : List Instr → State → Host.Outcome State Fault Refusal
  | [], s => .next s
  | i :: more, s =>
    match exec i s with
    | .next t => execAll more t
    | .fault r => .fault r
    | .refused r => .refused r

/-! ## The record queue -/

/-- A stored record (R88), without its length prefix, which its payload gives. -/
structure Record where
  sender : Byte
  flag : Byte
  opcode : Byte
  id : Byte
  cksum : Word
  payload : List Byte
  deriving DecidableEq, Repr

/-- The bytes of a record in the buffer (R88). -/
def Record.bytes (r : Record) : List Byte :=
  [BitVec.ofNat 8 (7 + r.payload.length), r.sender, r.flag, r.opcode, r.id, hiByte r.cksum,
    loByte r.cksum, BitVec.ofNat 8 r.payload.length] ++ r.payload

/-- The bounds of R89: `0 <= plen <= 246`. -/
abbrev Record.Fits (r : Record) : Prop := r.payload.length ≤ 246

/-- The bytes of a queue of records. -/
def recordsBytes (rs : List Record) : List Byte := rs.flatMap Record.bytes

/-- The buffer holds exactly the records `rs` (R36). -/
def HoldsRecords (s : State) (rs : List Record) : Prop :=
  (∀ r ∈ rs, r.Fits) ∧ Holds s (recordsBytes rs)

/-- INV-FRAMING (R36). -/
def Framed (s : State) : Prop := ∃ rs, HoldsRecords s rs

/-- The record an admitted frame becomes (R142, R146): its header fields as received and the first
`plen` bytes behind the header. -/
def Record.ofRaw (raw : List Byte) : Record :=
  { sender := rawByte raw 0, flag := rawByte raw 1, opcode := rawByte raw 2, id := rawByte raw 3
    cksum := rawChecksum raw, payload := (raw.drop 7).take (rawPlen raw) }

/-- The records of the frames answered `ST_OK`, where the ingest agent was answered `statuses` for
`frames` (R140, R146). -/
def admitted (frames : List (List Byte)) (statuses : List Byte) : List Record :=
  ((frames.zip statuses).filter fun p => p.2 = 0x00).map fun p => Record.ofRaw p.1

/-- The bytes a drain takes as one record, whatever they mean (R180, U4): a prefix of at least 7 and as
many bytes behind it.  A whole record is one. -/
abbrev Literal (c : List Byte) : Prop := 8 ≤ c.length ∧ (c.getD 0 0).toNat + 1 = c.length

/-! ## `EN_RECEIVE` on the record queue (R195) -/

/-- A record with this flag ends a drain: bits 1:0 are 0 (`NOT_FRAGMENTED`) or 2 (`END`), whatever the
others are; 1 and 3 do not (R81, R84, R185). -/
def endsMessage (flag : Byte) : Bool := flag.toNat % 4 = 0 || flag.toNat % 4 = 2

/-- The records an uninterrupted drain takes, up to and with the first terminating one. -/
def drained : List Record → List Record
  | [] => []
  | r :: rs => if endsMessage r.flag then [r] else r :: drained rs

/-- The records it leaves. -/
def undrained : List Record → List Record
  | [] => []
  | r :: rs => if endsMessage r.flag then rs else undrained rs

/-- A terminating record is in the queue. -/
def hasTerminator (rs : List Record) : Bool := rs.any fun r => endsMessage r.flag

/-- The concatenated payloads. -/
def payloads (rs : List Record) : List Byte := rs.flatMap Record.payload

/-- The flag of the result: the first record's, with bits 1:0 made 2 (`END`) and bits 7:2 kept when the
drain ended at an `END` record (R185). -/
def resultFlag (first : Record) (rs : List Record) : Byte :=
  match rs.getLast? with
  | some l => if l.flag.toNat % 4 = 2 then BitVec.ofNat 8 (first.flag.toNat / 4 * 4 + 2) else first.flag
  | none => first.flag

/-- The message a drain of `first :: _` returns (R187, R193). -/
def resultMessage (first : Record) (queue : List Record) : Message :=
  let d := drained queue
  let flag := if hasTerminator queue then resultFlag first d else first.flag
  let body := payloads d
  { sender := first.sender, flag := flag, opcode := first.opcode, id := first.id
    cksum := ck first.sender flag first.opcode first.id (BitVec.ofNat 8 body.length)
    size := body.length, complete := hasTerminator queue, payload := body }

/-- The record a requeue writes for a queue without terminator that begins with `first` (R190). -/
def requeuedRecord (first : Record) (queue : List Record) : Record :=
  let body := payloads queue
  let flag := BitVec.ofNat 8 (16 * (first.flag.toNat / 16 + 1) + first.flag.toNat % 4)
  { sender := first.sender, flag := flag, opcode := first.opcode, id := first.id
    cksum := ck first.sender flag first.opcode first.id (BitVec.ofNat 8 body.length)
    payload := body }

/-- The message of an `EN_RECEIVE` on an empty buffer (R181). -/
def emptyMessage : Message := ⟨0, 0, 0, 0, 0, 0, false, []⟩

/-- An uninterrupted `EN_RECEIVE` as a function of the record queue (R195): status code (R104), message,
and the queue it leaves. -/
def receiveQueue : List Record → Byte × Message × List Record
  | [] => (0x08, emptyMessage, [])
  | first :: rs =>
    let queue := first :: rs
    let m := resultMessage first queue
    if hasTerminator queue then (0x09, m, undrained queue)
    else if first.flag.toNat / 16 = 15 then (0x0B, m, [])
    else (0x0A, m, [requeuedRecord first queue])

/-- The response stream of an `EN_RECEIVE` (R101): status code and message, numbers most significant
byte first. -/
def messageBytes (code : Byte) (m : Message) : List Byte :=
  [code, m.sender, m.flag, m.opcode, m.id, BitVec.ofNat 8 (m.cksum.toNat / 256),
    BitVec.ofNat 8 (m.cksum.toNat % 256), BitVec.ofNat 8 (m.size / 256),
    BitVec.ofNat 8 (m.size % 256), if m.complete then 1 else 0] ++ m.payload

/-! ## The phases of an `EN_RECEIVE` (R180, R199) -/

/-- The boundaries between two atomic steps that the drain of `queue` passes: one before each call of
steps a2 to a7 (ten and the payload's reads for each record), and one before the last a2 when it finds
the buffer empty. -/
def drainBoundaries (queue : List Record) : Nat :=
  ((drained queue).map fun r => 10 + r.payload.length).sum + if hasTerminator queue then 0 else 1

/-- The state at the end of the drain of an `EN_RECEIVE`, when it ends; none on an empty buffer (step
a1). -/
def drainEnd (s : State) : Option State :=
  if isEmpty s then none
  else
    let s := { s with rx := .start }
    match drain (drainBudget s) s with
    | .ok u => some { u with rx := totals u.rx }
    | .error _ => none

/-- The state at which an `EN_RECEIVE` begins the writes of its requeue, right after the `RB_AVAIL` of
step a8; none when it has no requeue phase (R188 to R191). -/
def requeueStart (s : State) : Option State :=
  match drainEnd s with
  | none => none
  | some u =>
    if u.rx.complete = true ∨ ttlMax ≤ (ttl u.rx.flag).toNat then none
    else
      match hostAvail u with
      | .ok (free, v) => if free < u.rx.size + headerSize + 1 then none else some v
      | .error _ => none

/-- No `EN_INGEST` occurs during the requeue phase of an `EN_RECEIVE` (R36): none at the boundary before
any of the writes of steps a9 to a11.  Before that any number may occur. -/
def QuietRequeue (s : State) : Prop :=
  ∀ v, requeueStart s = some v →
    ∀ frames ∈ v.arrivals.take (requeueRecord v.rx).length, frames = []

/-! ## `EN_SEND` (R160 to R164) -/

/-- The payload bytes of fragment `k` (R161). -/
def chunk (payload : List Byte) (maxChunk k : Nat) : List Byte :=
  (payload.drop (k * maxChunk)).take maxChunk

/-- `COUNT` of one `EN_SEND` (R161). -/
def sendCount (s : State) (payload : List Byte) : Nat :=
  fragmentCount payload.length s.params.maxChunk

/-- The status the environment answers to the `n`-th coming `BusTransmit` (R236): the listed one, or
whichever is drawn. -/
def nthAnswer (s : State) (n : Nat) : BusStatus :=
  s.busIn.getD n (freeBusStatus (s.freeCount + (n - s.busIn.length)))

end Sys2Proof.Machine
end

