-- ==== Sys2Proof/Certificates/Slice0/Obligations.lean ====
section
/-! DEFINITION. Statements about the machine, for the provers. -/

open Sys2Proof Sys2Proof.Machine Sys2Proof.Config

/-! ## Encoding -/

/-- A few command words of R101 with their operand streams, written out from the opcode map, decode to
the operations they stand for. -/
def Obligations.WrittenWordsDecode : Prop :=
  decode [0x00, 0x04] = .request (.rbInit 4) [] ∧
  decode [0x30, 0x02, 0x20] = .request (.rbPeek 2) [0x20] ∧
  decode [0x80, 0x00, 0x00, 0x02, 0xAB, 0xCD] = .request (.enIngest [0xAB, 0xCD]) [] ∧
  decode [0x90, 0x7F, 0x10, 0x00, 0x01, 0xEE] = .request (.enSend 0x7F 0x10 [0xEE]) [] ∧
  decode [0xA0, 0x00] = .request .enReceive [] ∧
  decode [0xC0, 0x00, 0x05, 0x02, 0x03, 0x00, 0x19] = .request (.enCksum 5 2 3 0 0x19) [] ∧
  decode [0xD0, 0x05] = .request (.enSetaddr 5) []

/-- Decoding an encoded well-formed operation gives it back, whatever stands behind it in the stream
(R100 to R102). -/
def Obligations.DecodeOfEncode : Prop :=
  ∀ (i : Instr) (rest : List Byte), i.wf = true → decode (encode i ++ rest) = .request i rest

/-- A stream that decodes to an operation begins with that operation's encoding, and the operation is
well-formed: each request has one spelling (R100 to R103). -/
def Obligations.EncodeOfDecode : Prop :=
  ∀ (bs rest : List Byte) (i : Instr), decode bs = .request i rest →
    bs = encode i ++ rest ∧ i.wf = true

/-- R103: a command word is refused as illegal exactly when `OP` is 0x6, 0x7, 0xE or 0xF, or `ZERO` is
not 0, or `IMM8` is not 0 for an operation without immediate, or `IMM8 >= 128` for `EN_SEND` and
`EN_SETADDR`; nothing behind the word is consumed; and a step that meets an illegal word changes no
state and answers the single status byte `ST_ILLEGAL` (0x0F): a next state, not a trap. -/
def Obligations.IllegalWordsAreThoseOfR103 : Prop :=
  (∀ (w : Word) (rest : List Byte),
    let op := w.toNat / 4096
    let mid := w.toNat / 256 % 16
    let imm := w.toNat % 256
    let bad := op ∈ [0x6, 0x7, 0xE, 0xF] ∨ mid ≠ 0 ∨
      (imm ≠ 0 ∧ op ∈ [0x2, 0x4, 0x5, 0x8, 0xA, 0xB, 0xC]) ∨ (128 ≤ imm ∧ op ∈ [0x9, 0xD])
    (bad ↔ ∃ why rest', decodeWord w rest = .illegal why rest') ∧
    (∀ why rest', decodeWord w rest = .illegal why rest' → rest' = rest)) ∧
  ∀ (s s' : State) (why : IllegalWord) (rest : List Byte),
    notify s = .ok s' → decode s.hostIn = .illegal why rest →
      step s = .next { s' with hostIn := rest, hostOut := s'.hostOut ++ [0x0F] }

/-! ## Steps -/

/-- A step takes the notifications of its boundary and then runs the request at the front of the
host's stream, with the request consumed (R60, R62, R100). -/
def Obligations.StepRunsDecodedRequest : Prop :=
  ∀ (s s' : State) (i : Instr) (rest : List Byte),
    notify s = .ok s' → decode s.hostIn = .request i rest →
      step s = exec i { s' with hostIn := rest }

/-- The model's choice (log 3): with no whole request in the stream the block is idle; the step only
takes the notifications of its boundary (R240: "it is idle and holds its state"). -/
def Obligations.StepIdlesOnIncompleteRequest : Prop :=
  ∀ (s s' : State), notify s = .ok s' →
    (decode s.hostIn = .noWord ∨ decode s.hostIn = .noOperands) → step s = .next s'

/-- Every operation returns (R220), but for the faults 93_implementation_defined.md asks a model for:
under the invariant a step is never refused, and faults only for U1, U4 or U8. -/
def Obligations.StepStopsOnlyForUndefinedPoints : Prop :=
  ∀ s : State, Inv s →
    (∃ t, step s = .next t) ∨ step s = .fault .readEmpty ∨ step s = .fault .shortPrefix ∨
      step s = .fault .aggregateFull

/-! ## Reset and the invariants -/

/-- The reset state, for every choice of the parameters: `SLOTS = RB_CAPACITY + 1`, both cursors,
`MSG_ID` and `OWN_ADDR` 0 (R35, R250; D20), no slot of `STORE` with a defined value, no operation in
progress, `EN_PENDING` false and `EN_RECEIVE` answering `ST_RX_EMPTY`.  That "no operation in progress"
reads as the idle values of the working registers (`Idle`) is the model's choice (log 6), as is an
unlisted slot for one whose content the spec leaves open (log 9). -/
def Obligations.ResetState : Prop :=
  ∀ p : Params, p.Ok →
    let s := State.resetWith p
    s.params = p ∧ s.slots.toNat = p.capacity + 1 ∧ s.rd = 0 ∧ s.wr = 0 ∧ s.msgId = 0 ∧
    s.ownAddr = 0 ∧ (∀ a, memRead s.store a = none) ∧ fifo s = [] ∧ Idle s ∧
    exec .enPending s = .next { s with hostOut := s.hostOut ++ [0x00, 0x00] } ∧
    exec .enReceive s =
      .next { s with hostOut := s.hostOut ++ [0x08, 0, 0, 0, 0, 0, 0, 0, 0, 0] }

/-- The reset state meets the invariants, for every choice of the parameters.  `Idle` there, that no
operation is in progress, asserts the idle values of the working registers of `EN_SEND` and
`EN_RECEIVE`, which are the model's choice (log 6). -/
def Obligations.ResetMeetsInvariants : Prop :=
  ∀ p : Params, p.Ok → Inv (State.resetWith p) ∧ Written (State.resetWith p) ∧
    Framed (State.resetWith p) ∧ Idle (State.resetWith p)

/-- Every step, from any state whatever, keeps the invariant: the cursor invariant (R28), bit 7 of
`OWN_ADDR` 0 (R30), the storage canonical and within slots 0 to 254 (R24, R50). -/
def Obligations.StepKeepsInvariant : Prop :=
  ∀ s t : State, Inv s → step s = .next t → Inv t

/-- Every step keeps "each occupied slot holds a byte some `RB_WRITE` stored": in-range reads never meet
an undefined byte (U3). -/
def Obligations.StepKeepsOccupiedSlotsWritten : Prop :=
  ∀ s t : State, Inv s → Written s → step s = .next t → Written t

/-- Between operations nothing of the transient working state is kept (R22, R31, R32); the idle values it
is given back are the model's choice (log 6). -/
def Obligations.StepLeavesNoOperationInProgress : Prop :=
  ∀ s t : State, Idle s → step s = .next t → Idle t

/-- The "written by" column of R20, over every operation: `SLOTS` only by `RB_INIT`; `RD` only by
`RB_INIT`, `RB_READ` and the reads of `EN_RECEIVE`; `MSG_ID` only by `EN_SEND`; `OWN_ADDR` only by
`EN_SETADDR`; frames go out only by `EN_SEND`; and, with no notification inside the operation, `WR`
only by `RB_INIT`, `RB_WRITE` and the writes of `EN_INGEST` and `EN_RECEIVE`, and `STORE` only by
`RB_WRITE` and the same two. -/
def Obligations.RegistersHaveTheirWriters : Prop :=
  ∀ (i : Instr) (s t : State), exec i s = .next t →
    t.params = s.params ∧
    (t.slots ≠ s.slots → ∃ cap, i = .rbInit cap) ∧
    (t.rd ≠ s.rd → (∃ cap, i = .rbInit cap) ∨ i = .rbRead ∨ i = .enReceive) ∧
    (Quiet s → t.wr ≠ s.wr →
      (∃ cap, i = .rbInit cap) ∨ (∃ b, i = .rbWrite b) ∨ (∃ raw, i = .enIngest raw) ∨
        i = .enReceive) ∧
    (t.msgId ≠ s.msgId → ∃ dest opcode payload, i = .enSend dest opcode payload) ∧
    (t.ownAddr ≠ s.ownAddr → ∃ a, i = .enSetaddr a) ∧
    (t.busOut ≠ s.busOut → ∃ dest opcode payload, i = .enSend dest opcode payload) ∧
    (Quiet s → t.store ≠ s.store →
      (∃ b, i = .rbWrite b) ∨ (∃ raw, i = .enIngest raw) ∨ i = .enReceive)

/-! ## Ring buffer -/

/-- R121: `RB_INIT` clamps the capacity to 254, sets both cursors to 0, leaves `STORE` as it is and
answers `ST_OK`; nothing else changes; the buffer is empty; with capacity 0 every `RB_WRITE` fails and
`RB_AVAIL` answers 0.  That every slot holds no defined value until it is written reads here as: a peek
answers a free value, whatever `STORE` holds.  That form of U3 and U5 is the model's choice (log 8). -/
def Obligations.RbInitSetsCursors : Prop :=
  ∀ (cap : Byte) (s : State),
    (∀ rest, decodeWord (BitVec.ofNat 16 (0x0000 + cap.toNat)) rest = .request (.rbInit cap) rest) ∧
    ∃ t, exec (.rbInit cap) s = .next t ∧
      t = { s with
        slots := BitVec.ofNat 8 (min cap.toNat 254 + 1), rd := 0, wr := 0
        hostOut := s.hostOut ++ [0x00] } ∧
      t.slots.toNat = min cap.toNat 254 + 1 ∧ Cursors t ∧ fifo t = [] ∧
      (∀ k, exec (.rbPeek k) t = .next { t with
        hostOut := t.hostOut ++ [0x00, freeByte t.freeCount], freeCount := t.freeCount + 1 }) ∧
      (cap = 0 →
        (∀ b, exec (.rbWrite b) t = .next { t with hostOut := t.hostOut ++ [0x01] }) ∧
        exec .rbAvail t = .next { t with hostOut := t.hostOut ++ [0x00, 0x00] })

/-- R122: on a full buffer `RB_WRITE` answers `ST_RB_FULL` and changes no state; else it stores its byte
at slot `WR`, advances `WR` modulo `SLOTS` and answers `ST_OK`; every other slot and register is as
before. -/
def Obligations.RbWriteStoresOrRefuses : Prop :=
  ∀ (b : Byte) (s : State), Cursors s →
    (∀ rest, decodeWord (BitVec.ofNat 16 (0x1000 + b.toNat)) rest = .request (.rbWrite b) rest) ∧
    ((s.wr.toNat + 1) % s.slots.toNat = s.rd.toNat →
      exec (.rbWrite b) s = .next { s with hostOut := s.hostOut ++ [0x01] }) ∧
    ((s.wr.toNat + 1) % s.slots.toNat ≠ s.rd.toNat →
      ∃ t, exec (.rbWrite b) s = .next t ∧
        t = { s with
          store := t.store, wr := BitVec.ofNat 8 ((s.wr.toNat + 1) % s.slots.toNat)
          hostOut := s.hostOut ++ [0x00] } ∧
        memRead t.store s.wr.toNat = some b ∧
        ∀ a, a ≠ s.wr.toNat → memRead t.store a = memRead s.store a)

/-- R123: on a buffer that is not empty `RB_READ` answers `ST_OK` and the byte at slot `RD`, and advances
`RD` modulo `SLOTS`; `STORE`, `WR` and everything else stay; on an empty buffer it is the model's
fault (U1).  A slot without a defined byte gives some byte. -/
def Obligations.RbReadTakesOldestByte : Prop :=
  ∀ s : State, Cursors s →
    (∀ rest, decodeWord 0x2000 rest = .request .rbRead rest) ∧
    (s.rd = s.wr → exec .rbRead s = .fault .readEmpty) ∧
    (s.rd ≠ s.wr →
      ∃ v n, exec .rbRead s =
          .next { s with
            rd := BitVec.ofNat 8 ((s.rd.toNat + 1) % s.slots.toNat)
            hostOut := s.hostOut ++ [0x00, v], freeCount := n } ∧
        ∀ b, memRead s.store s.rd.toNat = some b → v = b ∧ n = s.freeCount)

/-- R124: `RB_PEEK k` always answers `ST_OK` and a byte and writes no state the spec names; when
`k mod SLOTS` is below the occupied count, the byte is the one stored at `(RD + k) mod SLOTS`; outside
the occupied range it is any value (U5); `RB_PEEK k` equals `RB_PEEK (k mod SLOTS)`. -/
def Obligations.RbPeekReadsWithoutAdvancing : Prop :=
  ∀ (k : Byte) (s : State), Cursors s →
    (∀ rest, decodeWord (BitVec.ofNat 16 (0x3000 + k.toNat)) rest = .request (.rbPeek k) rest) ∧
    exec (.rbPeek k) s = exec (.rbPeek (BitVec.ofNat 8 (k.toNat % s.slots.toNat))) s ∧
    ∃ v n, exec (.rbPeek k) s =
        .next { s with hostOut := s.hostOut ++ [0x00, v], freeCount := n } ∧
      ∀ b, k.toNat % s.slots.toNat < (s.wr.toNat + s.slots.toNat - s.rd.toNat) % s.slots.toNat →
        memRead s.store ((s.rd.toNat + k.toNat) % s.slots.toNat) = some b →
        v = b ∧ n = s.freeCount

/-- R125: `RB_EMPTY` answers true iff `RD == WR` and changes nothing. -/
def Obligations.RbEmptyTestsCursors : Prop :=
  ∀ s : State,
    (∀ rest, decodeWord 0x4000 rest = .request .rbEmpty rest) ∧
    exec .rbEmpty s =
      .next { s with hostOut := s.hostOut ++ [0x00, if s.rd = s.wr then 1 else 0] }

/-- R126: `RB_AVAIL` answers the free space `SLOTS - 1 - ((WR + SLOTS) - RD) mod SLOTS`, which fits one
byte, and changes nothing; it is 0 exactly when `RB_WRITE` would be refused, and `SLOTS - 1` exactly
when the buffer is empty. -/
def Obligations.RbAvailAnswersFreeSpace : Prop :=
  ∀ s : State, Cursors s →
    (∀ rest, decodeWord 0x5000 rest = .request .rbAvail rest) ∧
    ∃ free : Byte,
      exec .rbAvail s = .next { s with hostOut := s.hostOut ++ [0x00, free] } ∧
      free.toNat =
        s.slots.toNat - 1 - (s.wr.toNat + s.slots.toNat - s.rd.toNat) % s.slots.toNat ∧
      free.toNat ≤ 254 ∧
      (free.toNat = 0 ↔ (s.wr.toNat + 1) % s.slots.toNat = s.rd.toNat) ∧
      (free.toNat = s.slots.toNat - 1 ↔ s.rd = s.wr)

/-- R127: for every sequence of ring buffer operations within the preconditions, the ring buffer is a
bounded queue of capacity `SLOTS - 1`: same answers, and it goes on holding the queue's bytes. -/
def Obligations.RingBufferRefinesQueue : Prop :=
  ∀ (is : List Instr) (s : State) (q out q' : List Byte) (slots' : Nat),
    Cursors s → Holds s q → queueRun is s.slots.toNat q = some (out, slots', q') →
      ∃ t, execAll is s = .next t ∧ t.hostOut = s.hostOut ++ out ∧
        Cursors t ∧ t.slots.toNat = slots' ∧ Holds t q' ∧
        t.msgId = s.msgId ∧ t.ownAddr = s.ownAddr ∧ t.busOut = s.busOut

/-- R129: two ring buffers with the same `SLOTS` and the same queue, at any cursor positions, give the
same answers for every sequence of operations within the preconditions. -/
def Obligations.WraparoundIsInvisible : Prop :=
  ∀ (is : List Instr) (s s' : State) (q out : List Byte) (last : Nat × List Byte),
    Cursors s → Cursors s' → s.slots = s'.slots → Holds s q → Holds s' q →
    queueRun is s.slots.toNat q = some (out, last) →
      ∃ t t', execAll is s = .next t ∧ execAll is s' = .next t' ∧
        t.hostOut = s.hostOut ++ out ∧ t'.hostOut = s'.hostOut ++ out

/-! ## EN_INGEST -/

/-- R140, R142, R148: `EN_INGEST` answers the first failing test in the order short, misaligned,
checksum, truncated, no space, and then changes no state; when none fails it answers `ST_OK`, stores
`L = 7 + plen` and the first `7 + plen` raw bytes at the `8 + plen` slots from `WR`, advances `WR`
past them, and leaves every other slot and register alone. -/
def Obligations.IngestValidatesThenStores : Prop :=
  ∀ (raw : List Byte) (s : State), Cursors s →
    (raw.length < 65536 → ∀ rest,
      decodeWord 0x8000 (BitVec.ofNat 8 (raw.length / 256) :: BitVec.ofNat 8 (raw.length % 256) ::
        (raw ++ rest)) = .request (.enIngest raw) rest) ∧
    let at' := fun j => raw.getD j 0
    let pl := (at' 6).toNat
    let free := s.slots.toNat - 1 - (s.wr.toNat + s.slots.toNat - s.rd.toNat) % s.slots.toNat
    let drop := fun st : Byte => exec (.enIngest raw) s =
      .next { s with hostOut := s.hostOut ++ [st] }
    if raw.length < 8 then drop 0x02
    else if raw.length % 4 ≠ 0 then drop 0x03
    else if ck (at' 0) (at' 1) (at' 2) (at' 3) (at' 6) ≠ be16 (at' 4) (at' 5) then drop 0x04
    else if 7 + pl > raw.length then drop 0x05
    else if free < 7 + pl + 1 then drop 0x06
    else ∃ t, exec (.enIngest raw) s = .next t ∧
      t = { s with
        store := t.store, wr := BitVec.ofNat 8 ((s.wr.toNat + (8 + pl)) % s.slots.toNat)
        hostOut := s.hostOut ++ [0x00] } ∧
      (∀ j, j < 8 + pl → memRead t.store ((s.wr.toNat + j) % s.slots.toNat) =
        (BitVec.ofNat 8 (7 + pl) :: raw.take (7 + pl))[j]?) ∧
      ∀ a, (∀ j, j < 8 + pl → a ≠ (s.wr.toNat + j) % s.slots.toNat) →
        memRead t.store a = memRead s.store a

/-- R146, R36: an admitted frame appends exactly one whole record to the record queue; a dropped frame
leaves the queue as it was; so INV-FRAMING is preserved. -/
def Obligations.IngestAppendsOneRecord : Prop :=
  ∀ (raw : List Byte) (s t : State) (rs : List Record),
    Cursors s → HoldsRecords s rs → exec (.enIngest raw) s = .next t →
      (t.hostOut = s.hostOut ++ [0x00] ∧ HoldsRecords t (rs ++ [Record.ofRaw raw])) ∨
      (∃ st, st ≠ 0x00 ∧ t = { s with hostOut := s.hostOut ++ [st] } ∧ HoldsRecords t rs)

/-- R144, R89: a fragment with `plen >= 247` is never admitted, whatever the buffer. -/
def Obligations.IngestNeverAdmitsAbove246 : Prop :=
  ∀ (raw : List Byte) (s : State), 247 ≤ (raw.getD 6 0).toNat →
    ∃ st : Byte, st ≠ 0x00 ∧
      exec (.enIngest raw) s = .next { s with hostOut := s.hostOut ++ [st] }

/-- R143 (a), R214: take a frame that passes the length and checksum tests and change exactly one of its
seven header bytes to a different value: it is dropped with `ST_DROP_CHECKSUM` and nothing changes. -/
def Obligations.CorruptHeaderByteIsDropped : Prop :=
  ∀ (raw : List Byte) (s : State) (j : Nat) (b : Byte),
    8 ≤ raw.length → raw.length % 4 = 0 →
    ck (raw.getD 0 0) (raw.getD 1 0) (raw.getD 2 0) (raw.getD 3 0) (raw.getD 6 0) =
      be16 (raw.getD 4 0) (raw.getD 5 0) →
    j < 7 → b ≠ raw.getD j 0 →
      exec (.enIngest (raw.set j b)) s = .next { s with hostOut := s.hostOut ++ [0x04] }

/-- INV-FRAMING is kept by every operation but a direct `RB_READ` or `RB_WRITE`: by `EN_INGEST`, and by
`EN_RECEIVE` when no `EN_INGEST` occurs during its requeue phase, whatever comes before it (R36, R195,
R199; R261: "INV-FRAMING still holds after H1"); by `RB_INIT`, whose buffer is empty and holds no record
(R121: "holds trivially afterwards"; R251); by the others, which store nothing of their own. -/
def Obligations.OperationsKeepFraming : Prop :=
  ∀ (i : Instr) (s t : State), Inv s → Framed s → exec i s = .next t →
    i ≠ .rbRead → (∀ b, i ≠ .rbWrite b) → (i = .enReceive → QuietRequeue s) → Framed t

/-- R224, R61: the notification's whole effect is one `EN_INGEST` with the received bytes: on the ring
buffer it does what the host's `EN_INGEST` does, its status goes to the ingest agent, and it touches
nothing of the host's (R226, R31). -/
def Obligations.NotificationIsOneIngest : Prop :=
  ∀ (raw : List Byte) (later : List (List (List Byte))) (s : State), Cursors s →
    ∃ t st, exec (.enIngest raw) s = .next t ∧ t.hostOut = s.hostOut ++ [st] ∧
      notify { s with arrivals := [raw] :: later } =
        .ok { s with
          store := t.store, wr := t.wr, arrivals := later, ingestOut := s.ingestOut ++ [st] }

/-! ## Checksum -/

/-- R210: `CK` with every intermediate reduced modulo 65536. -/
def Obligations.ChecksumFormula : Prop :=
  ∀ sender flag opcode id length : Byte,
    let a := (sender.toNat * 256 % 65536 + opcode.toNat) % 65536
    let b := ((flag.toNat + length.toNat) * 256 % 65536 + id.toNat) % 65536
    (ck sender flag opcode id length).toNat = 0xFFFF - (a + b) % 65536

/-- R213 (a): the closed form. -/
def Obligations.ChecksumClosedForm : Prop :=
  ∀ sender flag opcode id length : Byte,
    (ck sender flag opcode id length).toNat = 0xFFFF -
      (256 * (sender.toNat + flag.toNat + length.toNat) + opcode.toNat + id.toNat) % 65536

/-- R211: the accumulator form of the unit computes `CK`. -/
def Obligations.ChecksumAccumulatorForm : Prop :=
  ∀ sender flag opcode id length : Byte,
    ckAccumulator sender flag opcode id length = ck sender flag opcode id length

/-- R212: `EN_CKSUM` answers `ST_OK` and the value of `CK` on its five operands, high byte first, and
changes no state. -/
def Obligations.CksumAnswersChecksum : Prop :=
  ∀ (sender flag opcode id length : Byte) (s : State),
    (∀ rest, decodeWord 0xC000 (sender :: flag :: opcode :: id :: length :: rest) =
      .request (.enCksum sender flag opcode id length) rest) ∧
    ∃ hi lo : Byte,
      exec (.enCksum sender flag opcode id length) s =
        .next { s with hostOut := s.hostOut ++ [0x00, hi, lo] } ∧
      hi.toNat * 256 + lo.toNat = (ck sender flag opcode id length).toNat

/-! ## EN_SEND and EN_SETADDR -/

/-- R160, R162, R163, R165, R171, R92: for every operand and every answer of the bus, `EN_SEND` hands its
`COUNT` frames to the bus in order: own address, the flag byte `0x00` for a single fragment, else
`0x01` for all but the last and `0x02` for the last, the opcode, the one message id, the checksum of
this fragment's own fields high byte first, the chunk's length, the chunk, zeros to a multiple of 4.
It continues past failures, increments `MSG_ID` once modulo 256, and answers from the status of the
last transmission only, by R92's numbers; the other registers stay, and with no notification inside it the ring buffer
stays too.  The model's choices in it: the idle value of the working registers afterwards (`t.tx`,
log 6), and how the environment's answers are drawn (`nthAnswer`, log 7). -/
def Obligations.SendTransmitsThePlan : Prop :=
  ∀ (dest : Addr7) (opcode : Byte) (payload : List Byte) (s : State),
    s.params.Ok → Cursors s → payload.length < 65536 →
    (∀ rest, decodeWord (BitVec.ofNat 16 (0x9000 + dest.toNat))
      (opcode :: BitVec.ofNat 8 (payload.length / 256) :: BitVec.ofNat 8 (payload.length % 256) ::
        (payload ++ rest)) = .request (.enSend dest opcode payload) rest) ∧
    let m := s.params.maxBusPayload - 7
    let count := if payload.length = 0 then 1 else (payload.length + m - 1) / m
    let frame := fun k =>
      let c := (payload.drop (k * m)).take m
      let flag : Byte := if count = 1 then 0x00 else if k + 1 < count then 0x01 else 0x02
      let sum := (ck s.ownAddr flag opcode s.msgId (BitVec.ofNat 8 c.length)).toNat
      [s.ownAddr, flag, opcode, s.msgId, BitVec.ofNat 8 (sum / 256), BitVec.ofNat 8 (sum % 256),
        BitVec.ofNat 8 c.length] ++ c ++ List.replicate ((4 - (7 + c.length) % 4) % 4) 0
    let last := nthAnswer s (count - 1)
    ∃ t, exec (.enSend dest opcode payload) s = .next t ∧
      t.busOut = s.busOut ++ (List.range count).map (fun k => (dest, frame k)) ∧
      t.msgId.toNat = (s.msgId.toNat + 1) % 256 ∧
      t.hostOut = s.hostOut ++ [if last = .ok then 0x00 else 0x07,
        if last = .ok then 0 else if last = .tooLong then 1 else if last = .addressNack then 2
        else if last = .dataNack then 3 else 4] ∧
      t.busIn = s.busIn.drop count ∧
      t.params = s.params ∧ t.slots = s.slots ∧ t.rd = s.rd ∧ t.ownAddr = s.ownAddr ∧
      t.rx = s.rx ∧ t.tx = .idle ∧ t.hostIn = s.hostIn ∧
      (Quiet s → t.store = s.store ∧ t.wr = s.wr ∧ t.ingestOut = s.ingestOut ∧ Quiet t)

/-- R166, R62: `EN_SEND` increments `MSG_ID` exactly once, whatever the bus answers; notifications
interleaved anywhere inside it change the outcome of neither: the frames, the answer and `MSG_ID` are
those without notifications, and the ring buffer and the ingest agent's answers are those of the same
`EN_INGEST`s alone, which touch neither `MSG_ID` nor `OWN_ADDR`. -/
def Obligations.SendAndNotificationsAreIndependent : Prop :=
  ∀ (dest : Addr7) (opcode : Byte) (payload : List Byte) (s : State),
    s.params.Ok → Cursors s →
    ∃ t u v, exec (.enSend dest opcode payload) s = .next t ∧
      exec (.enSend dest opcode payload) { s with arrivals := [] } = .next u ∧
      ingestAll ((s.arrivals.take (sendCount s payload)).flatten) s = .ok v ∧
      t.busOut = u.busOut ∧ t.hostOut = u.hostOut ∧ t.busIn = u.busIn ∧
      t.msgId = u.msgId ∧ t.msgId.toNat = (s.msgId.toNat + 1) % 256 ∧ t.ownAddr = s.ownAddr ∧
      v.msgId = s.msgId ∧ v.ownAddr = s.ownAddr ∧
      t.store = v.store ∧ t.wr = v.wr ∧ t.ingestOut = v.ingestOut

/-- R161: the split.  There is at least one fragment; the fragments' payloads in order are the payload;
every fragment but the last carries `MAX_CHUNK` bytes and the last the rest, which is 0 bytes for an
empty payload and else 1 to `MAX_CHUNK`. -/
def Obligations.SendSplitsPayload : Prop :=
  ∀ (s : State) (payload : List Byte), s.params.Ok →
    let m := s.params.maxChunk
    let count := sendCount s payload
    1 ≤ count ∧ 1 ≤ m ∧ m ≤ 245 ∧
    (List.range count).flatMap (chunk payload m) = payload ∧
    (∀ k, k + 1 < count → (chunk payload m k).length = m) ∧
    (chunk payload m (count - 1)).length = payload.length - (count - 1) * m ∧
    (payload = [] → count = 1 ∧ (chunk payload m (count - 1)).length = 0) ∧
    (payload ≠ [] → 1 ≤ (chunk payload m (count - 1)).length ∧
      (chunk payload m (count - 1)).length ≤ m)

/-- R87, R164: every frame an `EN_SEND` hands to the bus is for its destination and has a length that is
a multiple of 4 between 8 and `MAX_BUS_PAYLOAD`. -/
def Obligations.SendFramesFitTheBus : Prop :=
  ∀ (dest : Addr7) (opcode : Byte) (payload : List Byte) (s t : State), Inv s →
    exec (.enSend dest opcode payload) s = .next t →
    ∀ sent ∈ t.busOut.drop s.busOut.length, sent.1 = dest ∧
      sent.2.length % 4 = 0 ∧ 8 ≤ sent.2.length ∧ sent.2.length ≤ s.params.maxBusPayload

/-- R170: `EN_SETADDR` writes its 7-bit operand to `OWN_ADDR`, answers `ST_OK`, and changes nothing else;
an immediate of 128 or more is an illegal word. -/
def Obligations.SetaddrWritesOwnAddress : Prop :=
  ∀ (a : Addr7) (s : State),
    (∀ rest, decodeWord (BitVec.ofNat 16 (0xD000 + a.toNat)) rest = .request (.enSetaddr a) rest) ∧
    (∀ (imm : Byte) rest, 128 ≤ imm.toNat →
      decodeWord (BitVec.ofNat 16 (0xD000 + imm.toNat)) rest = .illegal .addressAbove127 rest) ∧
    exec (.enSetaddr a) s =
      .next { s with ownAddr := BitVec.ofNat 8 a.toNat, hostOut := s.hostOut ++ [0x00] }

/-! ## EN_RECEIVE and EN_PENDING -/

/-- R198: `EN_PENDING` answers whether the buffer holds at least one byte and changes nothing; false
implies that an `EN_RECEIVE` answers `ST_RX_EMPTY`, and true implies that its answer is another. -/
def Obligations.PendingIsNotEmpty : Prop :=
  ∀ s : State,
    (∀ rest, decodeWord 0xB000 rest = .request .enPending rest) ∧
    exec .enPending s =
      .next { s with hostOut := s.hostOut ++ [0x00, if s.rd = s.wr then 0 else 1] } ∧
    (s.rd = s.wr → ∃ t, exec .enReceive s = .next t ∧
      t.hostOut = s.hostOut ++ [0x08, 0, 0, 0, 0, 0, 0, 0, 0, 0]) ∧
    (s.rd ≠ s.wr → ∀ t, exec .enReceive s = .next t →
      (t.hostOut.drop s.hostOut.length).head? ≠ some 0x08)

/-- R181: on an empty buffer `EN_RECEIVE` returns the empty result with status `ST_RX_EMPTY`, all fields
0; no state changes, whatever notifications are scheduled.  That the working registers hold their
starting values afterwards is the model's choice (log 6). -/
def Obligations.ReceiveOnEmptyBuffer : Prop :=
  ∀ s : State, s.rd = s.wr →
    exec .enReceive s = .next { s with
      rx := .start, hostOut := s.hostOut ++ [0x08, 0, 0, 0, 0, 0, 0, 0, 0, 0] }

/-- R195, with R182 to R193: an uninterrupted `EN_RECEIVE` is the function `receiveQueue` on the record
queue, written in numbers: the message it answers, byte by byte, the records it leaves, and nothing else changed: only `RD`
when nothing is requeued, and the slots from `WR` on when a record is.  The value of the working
registers afterwards (`rx := .start`) is the model's choice (log 6). -/
def Obligations.ReceiveRefinesRecordQueue : Prop :=
  ∀ (s : State) (rs : List Record), Inv s → Quiet s → HoldsRecords s rs →
    let code := (receiveQueue rs).1
    let m := (receiveQueue rs).2.1
    let rs' := (receiveQueue rs).2.2
    ∃ t, exec .enReceive s = .next t ∧ HoldsRecords t rs' ∧ Quiet t ∧
      t.hostOut = s.hostOut ++ messageBytes code m ∧
      t = { s with
        store := t.store, rd := t.rd, wr := t.wr, rx := .start, hostOut := t.hostOut
        arrivals := t.arrivals } ∧
      (code ≠ 0x0A → t.store = s.store ∧ t.wr = s.wr) ∧
      (code = 0x0A → t.rd = s.wr ∧ ∀ a,
        (∀ j, j < 8 + m.size → a ≠ (s.wr.toNat + j) % s.slots.toNat) →
          memRead t.store a = memRead s.store a)

/-- R199, with R185 to R191, R261 and R262: an `EN_RECEIVE` on a buffer of whole records, with
notifications at any boundaries.  `new` are the records of the frames admitted at the boundaries of the
drain and `late` those admitted at the boundary behind it, before `RB_AVAIL`, as the ingest agent was
answered.  The call answers the message of a drain of the stored records and `new` together, as if
these had all been there before: complete exactly when a terminating record is among them, with the
records behind it left.  Else it answers `ST_RX_DROPPED_TTL` and leaves nothing when the first record's
TTL is 15; `ST_RX_DROPPED_NOSPACE` when `late` leaves less free space than the record to requeue takes,
and leaves `late`; else `ST_RX_REQUEUED`, and leaves `late` and behind it the requeued record when no
frame comes at the boundaries of its writes.  It stops only when the drained payloads exceed a finite
`AGG_MAX` (U8).  The value of the working registers afterwards (`rx := .start`) is the model's choice
(log 6), as is the form of the schedule (log 5). -/
def Obligations.ReceiveUnderNotifications : Prop :=
  ∀ (s : State) (first : Record) (rs : List Record), Inv s → HoldsRecords s (first :: rs) →
    (exec .enReceive s = .fault .aggregateFull ∧
      ∃ new, new.Sublist (s.arrivals.flatten.map Record.ofRaw) ∧
        s.params.aggFits (payloads (drained (first :: rs ++ new))).length = false) ∨
    ∃ t new late statuses,
      exec .enReceive s = .next t ∧
      t = { s with
        store := t.store, rd := t.rd, wr := t.wr, rx := .start, hostOut := t.hostOut
        arrivals := t.arrivals, ingestOut := s.ingestOut ++ statuses } ∧
      let queue := first :: rs ++ new
      let n := drainBoundaries queue
      let m := resultMessage first queue
      let left := s.slots.toNat - 1 - (recordsBytes late).length
      let ends := fun (code : Byte) (boundaries : Nat) =>
        t.hostOut = s.hostOut ++ messageBytes code m ∧ t.arrivals = s.arrivals.drop boundaries ∧
          statuses.length = (s.arrivals.take boundaries).flatten.length
      new = admitted (s.arrivals.take n).flatten statuses ∧
      if hasTerminator queue = true then ends 0x09 n ∧ HoldsRecords t (undrained queue)
      else if first.flag.toNat / 16 = 15 then ends 0x0B n ∧ HoldsRecords t []
      else
        new ++ late = admitted (s.arrivals.take (n + 1)).flatten statuses ∧
        (recordsBytes late).length ≤ s.slots.toNat - 1 ∧
        if left < m.size + 8 then ends 0x0C (n + 1) ∧ HoldsRecords t late
        else
          ends 0x0A (n + 1 + (8 + m.size)) ∧
          ((∀ frames ∈ (s.arrivals.drop (n + 1)).take (8 + m.size), frames = []) →
            HoldsRecords t (late ++ [requeuedRecord first queue]))

/-- R196: on a buffer of whole records the message an uninterrupted drain gathers is at most 246 bytes
long, within every `AGG_MAX`; and an `EN_RECEIVE` that no notification interleaves does not stop for a
full aggregate: it answers that message, ten bytes and at most 246 of payload. -/
def Obligations.ReceivedSizeBound : Prop :=
  ∀ (s : State) (rs : List Record), Inv s → HoldsRecords s rs →
    let m := (receiveQueue rs).2.1
    m.size ≤ 246 ∧ s.params.aggFits m.size = true ∧
    (Quiet s → exec .enReceive s ≠ .fault .aggregateFull ∧
      ∃ t, exec .enReceive s = .next t ∧
        t.hostOut = s.hostOut ++ messageBytes (receiveQueue rs).1 m ∧
        m.payload.length = m.size ∧ t.hostOut.length ≤ s.hostOut.length + (10 + 246))

/-- R194: a partial message with TTL 0, in one record or several, and nothing further arriving:
`EN_RECEIVE` calls 1 to 15 each answer `ST_RX_REQUEUED` and leave it as one record with TTL 1 to 15,
reserved bits 0, bits 1:0 of the first record's flag and all the payloads; call 16 answers
`ST_RX_DROPPED_TTL` and leaves the buffer empty; call 17 answers `ST_RX_EMPTY`. -/
def Obligations.PartialMessageAges : Prop :=
  ∀ (s : State) (first : Record) (rs : List Record), Inv s → Quiet s →
    HoldsRecords s (first :: rs) → hasTerminator (first :: rs) = false →
    first.flag.toNat / 16 = 0 →
    (∀ k, k < 15 → ∃ u t r', execAll (List.replicate k .enReceive) s = .next u ∧
      exec .enReceive u = .next t ∧ (t.hostOut.drop u.hostOut.length).head? = some 0x0A ∧
      HoldsRecords t [r'] ∧ r'.flag.toNat = 16 * (k + 1) + first.flag.toNat % 4 ∧
      r'.payload = payloads (first :: rs) ∧ r'.sender = first.sender ∧
      r'.opcode = first.opcode ∧ r'.id = first.id) ∧
    ∃ u t v, execAll (List.replicate 15 .enReceive) s = .next u ∧
      exec .enReceive u = .next t ∧ (t.hostOut.drop u.hostOut.length).head? = some 0x0B ∧
      fifo t = [] ∧
      exec .enReceive t = .next v ∧ fifo v = [] ∧
      v.hostOut = t.hostOut ++ [0x08, 0, 0, 0, 0, 0, 0, 0, 0, 0]

/-- U4: an `EN_RECEIVE` whose drain meets a length prefix below 7 stops.  `cs` are the records the drain
takes before it, whole or not, each as its own prefix bounds it, and none ends the drain.  With at
least seven bytes behind the short prefix the fault is the one for a short prefix; with fewer, the
reads before step a7 may find the buffer empty first (U1), and surely do when no notification comes.
U4 asks for a fault in both cases and does not say at which point of the record it comes: that it comes
at step a7, behind the header reads, and so which of the two faults comes first, is DEDUCED (log 11). -/
def Obligations.ReceiveFaultsOnShortPrefix : Prop :=
  ∀ (s : State) (cs : List (List Byte)) (l : Byte) (q : List Byte), Inv s →
    (∀ c ∈ cs, Literal c ∧ endsMessage (c.getD 2 0) = false) →
    Holds s (cs.flatten ++ l :: q) → l.toNat < 7 →
      (exec .enReceive s = .fault .shortPrefix ∨ exec .enReceive s = .fault .readEmpty) ∧
      (7 ≤ q.length → exec .enReceive s = .fault .shortPrefix) ∧
      (Quiet s → q.length < 7 → exec .enReceive s = .fault .readEmpty)

/-- R262 (hazard H2) is a run: a state that meets every invariant and holds whole records only; without
its one scheduled frame its `EN_RECEIVE` requeues a partial message and leaves whole records; the frame
is still to come right after `RB_AVAIL` (step a8) and comes before the last write of step a11; it is
admitted, the call answers the same, and afterwards the buffer no longer parses as records. -/
def Obligations.RequeueRaceBreaksFraming : Prop :=
  ∃ (s t u v : State) (frame : List Byte) (m : Message) (n k : Nat), Inv s ∧ Written s ∧ Framed s ∧
    s.arrivals = List.replicate n [] ++ [[frame]] ∧
    (exec .enReceive { s with arrivals := [] } = .next u ∧
      u.hostOut = s.hostOut ++ messageBytes 0x0A m ∧ Framed u) ∧
    (requeueStart s = some v ∧ v.arrivals = List.replicate k [] ++ [[frame]] ∧
      k < (requeueRecord v.rx).length) ∧
    exec .enReceive s = .next t ∧ t.hostOut = s.hostOut ++ messageBytes 0x0A m ∧
    t.ingestOut = s.ingestOut ++ [0x00] ∧ ¬ Framed t

/-- R261 (i) (hazard H1) is a run: a state whose `EN_RECEIVE`, uninterrupted, requeues a partial message,
and one frame that comes at the boundary between the end of the drain and `RB_AVAIL` (step a8): the
call then drops the same message for lack of space, and the buffer holds the frame's record alone. -/
def Obligations.DrainRaceDropsPartial : Prop :=
  ∃ (s t d u : State) (frame : List Byte) (m : Message) (n : Nat), Inv s ∧ Framed s ∧
    s.arrivals = [] ∧
    (exec .enReceive s = .next t ∧ t.hostOut = s.hostOut ++ messageBytes 0x0A m ∧
      Framed t) ∧
    (drainEnd { s with arrivals := List.replicate n [] ++ [[frame]] } = some d ∧
      d.arrivals = [[frame]] ∧ fifo d = []) ∧
    exec .enReceive { s with arrivals := List.replicate n [] ++ [[frame]] } = .next u ∧
    u.hostOut = s.hostOut ++ messageBytes 0x0C m ∧
    u.ingestOut = s.ingestOut ++ [0x00] ∧ HoldsRecords u [Record.ofRaw frame]

/-- R167: every frame of one `EN_SEND` of a core, passed in order to `EN_INGEST` of a core whose buffer
is empty and large enough for the records, all are admitted, and one `EN_RECEIVE` then returns the
payload, complete, with the sender's address, opcode and id. -/
def Obligations.SendIngestReceiveRoundTrip : Prop :=
  ∀ (dest : Addr7) (opcode : Byte) (payload : List Byte) (a b : State),
    Inv a → Inv b → Quiet b → fifo b = [] →
    sendCount a payload * 8 + payload.length ≤ b.slots.toNat - 1 →
    let flag : Byte := if sendCount a payload = 1 then 0x00 else 0x02
    let sum := (ck a.ownAddr flag opcode a.msgId (BitVec.ofNat 8 payload.length)).toNat
    ∃ a' b' b'', exec (.enSend dest opcode payload) a = .next a' ∧
      execAll (((a'.busOut.drop a.busOut.length).map Prod.snd).map .enIngest) b = .next b' ∧
      b'.hostOut = b.hostOut ++ List.replicate (sendCount a payload) 0x00 ∧
      exec .enReceive b' = .next b'' ∧ fifo b'' = [] ∧
      b''.hostOut = b'.hostOut ++ ([0x09, a.ownAddr, flag, opcode, a.msgId,
        BitVec.ofNat 8 (sum / 256), BitVec.ofNat 8 (sum % 256),
        BitVec.ofNat 8 (payload.length / 256), BitVec.ofNat 8 (payload.length % 256), 1] ++ payload)

/-! ## The flag byte in numbers -/

/-- R82: `FRAG`, `RSV`, `TTL` and `MKFLAG` of a flag byte as numbers; R84, R185: a record ends a drain iff
its bits 1:0 are 0 or 2, whatever the others are, and forcing `END` makes bits 1:0 the value 2 and keeps
bits 7:2; R190: the flag of a requeue has TTL + 1, reserved bits 0 and the same bits 1:0. -/
def Obligations.FlagFieldsInNumbers : Prop :=
  ∀ (f : Byte) (t : BitVec 4) (g : BitVec 2),
    (frag f).toNat = f.toNat % 4 ∧ (rsv f).toNat = f.toNat / 4 % 4 ∧ (ttl f).toNat = f.toNat / 16 ∧
    (mkFlag t g).toNat = 16 * t.toNat + g.toNat ∧
    (terminates f = true ↔ f.toNat % 4 = 0 ∨ f.toNat % 4 = 2) ∧
    (forceEnd f).toNat = f.toNat / 4 * 4 + 2 ∧
    (f.toNat / 16 < 15 →
      (mkFlag (ttl f + 1) (frag f)).toNat = 16 * (f.toNat / 16 + 1) + f.toNat % 4)
end

