-- ==== Sys2Proof/Laws/Storage.lean ====
section
/-! SUPPORT. The storage: read after write, and the canonical form is kept. -/

namespace Sys2Proof.Machine

open Sys2Proof.Config

/-- A slot reads as the byte just written to it. -/
theorem memRead_memWrite_same (m : List Host.Cell) (a : Nat) (b : Byte) :
    memRead (memWrite m a b) a = some b := by
  induction m with
  | nil => simp [memWrite, memRead]
  | cons c m ih =>
    obtain ⟨x, v⟩ := c
    unfold memWrite
    split
    · simp [memRead]
    · split
      · simp [memRead]
      · rename_i h; simp [memRead, h, ih]

/-- A write leaves every other slot alone. -/
theorem memRead_memWrite_other (m : List Host.Cell) {a a' : Nat} (b : Byte) (h : a' ≠ a) :
    memRead (memWrite m a b) a' = memRead m a' := by
  induction m with
  | nil => simp [memWrite, memRead, h]
  | cons c m ih =>
    obtain ⟨x, v⟩ := c
    unfold memWrite
    split
    · simp [memRead, h]
    · split
      · rename_i h2; subst h2; simp [memRead, h]
      · simp [memRead, ih]

theorem memRead_memWrite (m : List Host.Cell) (a a' : Nat) (b : Byte) :
    memRead (memWrite m a b) a' = if a' = a then some b else memRead m a' := by
  split
  · next h => subst h; exact memRead_memWrite_same m _ b
  · next h => exact memRead_memWrite_other m b h

/-- A slot of the list after a write was there before or is the one written. -/
theorem mem_memWrite {m : List Host.Cell} {a : Nat} {b : Byte} {c : Host.Cell}
    (h : c ∈ memWrite m a b) : c = (a, b) ∨ c ∈ m := by
  induction m with
  | nil => simpa [memWrite] using h
  | cons d m ih =>
    obtain ⟨x, v⟩ := d
    unfold memWrite at h
    split at h
    · simpa using h
    · split at h
      · simp only [List.mem_cons] at h ⊢; tauto
      · simp only [List.mem_cons] at h ⊢
        rcases h with h | h
        · exact .inr (.inl h)
        · rcases ih h with h | h <;> tauto

/-- A write to a slot that exists keeps the canonical form. -/
theorem memWrite_wf {m : List Host.Cell} {a : Nat} (b : Byte) (hm : Memory.wf m)
    (ha : a < slotsMax) : Memory.wf (memWrite m a b) := by
  refine ⟨?_, fun c hc => ?_⟩
  · have h := hm.1
    clear hm
    induction m with
    | nil => simp [memWrite]
    | cons d m ih =>
      obtain ⟨x, v⟩ := d
      obtain ⟨h1, h2⟩ := List.pairwise_cons.1 h
      unfold memWrite
      split
      · next hlt =>
        refine List.pairwise_cons.2 ⟨fun c hc => ?_, h⟩
        rcases List.mem_cons.1 hc with rfl | hc
        · exact hlt
        · exact Nat.lt_trans hlt (h1 c hc)
      · split
        · next heq => subst heq; exact List.pairwise_cons.2 ⟨h1, h2⟩
        · next hlt hne =>
          refine List.pairwise_cons.2 ⟨fun c hc => ?_, ih h2⟩
          rcases mem_memWrite hc with rfl | hc
          · simp only; omega
          · exact h1 c hc
  · rcases mem_memWrite hc with rfl | hc
    · exact ha
    · exact hm.2 c hc

end Sys2Proof.Machine
end

