-- ==== Sys2Proof/Laws/Cursors.lean ====
section
/-! SUPPORT. Arithmetic of the cursors under the cursor invariant (spec/10_state.md R28). -/

namespace Sys2Proof.Machine

open Sys2Proof.Config

theorem advance_toNat {slots c : Byte} (h : c.toNat < slots.toNat) :
    (advance slots c).toNat = if c.toNat + 1 = slots.toNat then 0 else c.toNat + 1 := by
  have hs := slots.isLt
  unfold advance
  rw [BitVec.toNat_ofNat]
  split
  · next he => rw [he, Nat.mod_self]
  · next he =>
    rw [Nat.mod_eq_of_lt (show c.toNat + 1 < slots.toNat by omega)]
    exact Nat.mod_eq_of_lt (by omega)

theorem advance_lt {slots c : Byte} (h : c.toNat < slots.toNat) :
    (advance slots c).toNat < slots.toNat := by
  rw [advance_toNat h]; split <;> omega

/-- The number of stored bytes, without the remainder. -/
theorem occupied_eq {s : State} (h : Cursors s) :
    occupied s = if s.rd.toNat ≤ s.wr.toNat then s.wr.toNat - s.rd.toNat
      else s.wr.toNat + s.slots.toNat - s.rd.toNat := by
  obtain ⟨h1, h2⟩ := h
  unfold occupied
  split
  · next hle =>
    rw [show s.wr.toNat + s.slots.toNat - s.rd.toNat =
      (s.wr.toNat - s.rd.toNat) + s.slots.toNat by omega, Nat.add_mod_right]
    exact Nat.mod_eq_of_lt (by omega)
  · next hgt => exact Nat.mod_eq_of_lt (by omega)

theorem occupied_lt {s : State} (h : Cursors s) : occupied s < s.slots.toNat := by
  rw [occupied_eq h]
  obtain ⟨h1, h2⟩ := h
  split <;> omega

/-- The slot of the `k`-th stored byte, without the remainder. -/
theorem peekSlot_eq {s : State} (h : Cursors s) {k : Nat} (hk : k < s.slots.toNat) :
    peekSlot s k = if s.rd.toNat + k < s.slots.toNat then s.rd.toNat + k
      else s.rd.toNat + k - s.slots.toNat := by
  obtain ⟨h1, h2⟩ := h
  unfold peekSlot
  split
  · next hlt => exact Nat.mod_eq_of_lt hlt
  · next hge =>
    rw [Nat.mod_eq_sub_mod (by omega)]
    exact Nat.mod_eq_of_lt (by omega)

theorem peekSlot_lt {s : State} (h : Cursors s) (k : Nat) : peekSlot s k < s.slots.toNat :=
  Nat.mod_lt _ (by have := h.1; omega)

theorem slots_le {s : State} : s.slots.toNat ≤ slotsMax := by
  have := s.slots.isLt; simp only [slotsMax]; omega

/-- Every effective address exists (R51). -/
theorem peekSlot_exists {s : State} (h : Cursors s) (k : Nat) : peekSlot s k < slotsMax :=
  Nat.lt_of_lt_of_le (peekSlot_lt h k) slots_le

theorem rd_exists {s : State} (h : Cursors s) : s.rd.toNat < slotsMax :=
  Nat.lt_of_lt_of_le h.1 slots_le

theorem wr_exists {s : State} (h : Cursors s) : s.wr.toNat < slotsMax :=
  Nat.lt_of_lt_of_le h.2 slots_le

theorem isEmpty_iff {s : State} : isEmpty s = true ↔ s.rd = s.wr := by simp [isEmpty]

/-- *empty* is an occupied count of 0. -/
theorem isEmpty_iff_occupied {s : State} (h : Cursors s) : isEmpty s = true ↔ occupied s = 0 := by
  rw [isEmpty_iff, occupied_eq h, ← BitVec.toNat_inj]
  obtain ⟨h1, h2⟩ := h
  split <;> omega

/-- *full* is an occupied count of `SLOTS - 1` (R126). -/
theorem isFull_iff_occupied {s : State} (h : Cursors s) :
    isFull s = true ↔ occupied s + 1 = s.slots.toNat := by
  have hm := h
  obtain ⟨h1, h2⟩ := h
  rw [occupied_eq hm]
  simp only [isFull, decide_eq_true_eq]
  by_cases he : s.wr.toNat + 1 = s.slots.toNat
  · rw [he, Nat.mod_self]; split <;> omega
  · rw [Nat.mod_eq_of_lt (by omega)]; split <;> omega

/-- *full* is a free space of 0 (R126). -/
theorem isFull_iff_freeSpace {s : State} (h : Cursors s) : isFull s = true ↔ freeSpace s = 0 := by
  rw [isFull_iff_occupied h]
  have := occupied_lt h
  unfold freeSpace
  omega

theorem freeSpace_add_occupied {s : State} (h : Cursors s) :
    freeSpace s + occupied s + 1 = s.slots.toNat := by
  have := occupied_lt h
  unfold freeSpace
  omega

theorem freeSpace_le {s : State} : freeSpace s ≤ 254 := by
  have := s.slots.isLt
  unfold freeSpace
  omega

end Sys2Proof.Machine
end

