-- ==== Sys2Proof/Laws/Words.lean ====
section
/-! SUPPORT. The two bytes of a word and the fields of a command word (spec/20_memory.md R53,
spec/30_encoding.md R100). -/

namespace Sys2Proof

theorem be16_toNat (hi lo : Byte) : (be16 hi lo).toNat = hi.toNat * 256 + lo.toNat := by
  refine (BitVec.toNat_append hi lo).trans ?_
  rw [← Nat.shiftLeft_add_eq_or_of_lt lo.isLt, Nat.shiftLeft_eq]

theorem hiByte_toNat (w : Word) : (hiByte w).toNat = w.toNat / 256 := by
  have := w.isLt
  simp [hiByte, Nat.shiftRight_eq_div_pow]
  omega

theorem loByte_toNat (w : Word) : (loByte w).toNat = w.toNat % 256 := by simp [loByte]

/-- The two bytes of a word put together again are the word. -/
theorem be16_hiByte_loByte (w : Word) : be16 (hiByte w) (loByte w) = w := by
  apply BitVec.eq_of_toNat_eq
  rw [be16_toNat, hiByte_toNat, loByte_toNat]
  omega

theorem hiByte_be16 (hi lo : Byte) : hiByte (be16 hi lo) = hi := by
  apply BitVec.eq_of_toNat_eq
  have := lo.isLt
  rw [hiByte_toNat, be16_toNat]
  omega

theorem loByte_be16 (hi lo : Byte) : loByte (be16 hi lo) = lo := by
  apply BitVec.eq_of_toNat_eq
  have := lo.isLt
  rw [loByte_toNat, be16_toNat]
  omega

theorem opField_toNat (w : Word) : (opField w).toNat = w.toNat / 4096 := by
  have := w.isLt
  simp [opField, Nat.shiftRight_eq_div_pow]
  omega

theorem zeroField_toNat (w : Word) : (zeroField w).toNat = w.toNat / 256 % 16 := by
  simp [zeroField, Nat.shiftRight_eq_div_pow]

theorem imm8_toNat (w : Word) : (imm8 w).toNat = w.toNat % 256 := by simp [imm8]

theorem commandWord_toNat (op : BitVec 4) (imm : Byte) :
    (commandWord op imm).toNat = op.toNat * 4096 + imm.toNat := by
  refine (BitVec.toNat_append (op ++ (0 : BitVec 4)) imm).trans ?_
  rw [← Nat.shiftLeft_add_eq_or_of_lt imm.isLt, Nat.shiftLeft_eq, BitVec.toNat_append,
    ← Nat.shiftLeft_add_eq_or_of_lt (0 : BitVec 4).isLt, Nat.shiftLeft_eq]
  have : (0 : BitVec 4).toNat = 0 := rfl
  omega

/-- The fields of a command word (R100). -/
theorem opField_commandWord (op : BitVec 4) (imm : Byte) : opField (commandWord op imm) = op := by
  apply BitVec.eq_of_toNat_eq
  have := imm.isLt
  rw [opField_toNat, commandWord_toNat]
  omega

theorem zeroField_commandWord (op : BitVec 4) (imm : Byte) : zeroField (commandWord op imm) = 0 := by
  apply BitVec.eq_of_toNat_eq
  have := imm.isLt
  rw [zeroField_toNat, commandWord_toNat]
  show _ = 0
  omega

theorem imm8_commandWord (op : BitVec 4) (imm : Byte) : imm8 (commandWord op imm) = imm := by
  apply BitVec.eq_of_toNat_eq
  have := imm.isLt
  rw [imm8_toNat, commandWord_toNat]
  omega

/-- A word whose `ZERO` field is 0 is the command word of its fields. -/
theorem commandWord_fields {w : Word} (h : zeroField w = 0) : commandWord (opField w) (imm8 w) = w := by
  apply BitVec.eq_of_toNat_eq
  have hz := congrArg BitVec.toNat h
  rw [zeroField_toNat] at hz
  have h0 : (0 : BitVec 4).toNat = 0 := rfl
  rw [commandWord_toNat, opField_toNat, imm8_toNat]
  omega

/-- A stream that is long enough splits; one that is exactly counted gives its bytes back. -/
theorem takeBytes_append (bs rest : List Byte) : takeBytes bs.length (bs ++ rest) = some (bs, rest) := by
  simp [takeBytes]

theorem takeBytes_eq_some {n : Nat} {bs a b : List Byte} (h : takeBytes n bs = some (a, b)) :
    bs = a ++ b ∧ a.length = n := by
  unfold takeBytes at h
  split at h
  · cases h; exact ⟨(List.take_append_drop _ _).symm, by simp; omega⟩
  · cases h

end Sys2Proof
end

