-- ==== Sys2Proof/Laws/Flags.lean ====
section
/-! SUPPORT. The flag byte and the response stream of `EN_RECEIVE` in the numbers the document-level
functions are written in (spec/30_encoding.md R82, R84, R101; spec/43_receive.md R185, R190). -/

namespace Sys2Proof.Machine

open Sys2Proof.Config

/-- The machine's test on bits 1:0 is the document-level one. -/
@[simp] theorem endsMessage_eq (f : Byte) : endsMessage f = terminates f := by revert f; decide

theorem ttl_toNat (f : Byte) : (ttl f).toNat = f.toNat / 16 := by revert f; decide

theorem frag_eq_end (f : Byte) : f.toNat % 4 = 2 ↔ frag f = endFragment := by revert f; decide

theorem forceEnd_eq (f : Byte) : BitVec.ofNat 8 (f.toNat / 4 * 4 + 2) = forceEnd f := by
  revert f; decide

/-- The flag of a requeue (R190). -/
theorem requeueFlag_eq (f : Byte) :
    BitVec.ofNat 8 (16 * (f.toNat / 16 + 1) + f.toNat % 4) = mkFlag (ttl f + 1) (frag f) := by
  revert f; decide

/-- The flag of a result, by the machine's own operations (R185). -/
theorem resultFlag_eq (first : Record) (rs : List Record) :
    resultFlag first rs =
      match rs.getLast? with
      | some l => if frag l.flag = endFragment then forceEnd first.flag else first.flag
      | none => first.flag := by
  unfold resultFlag
  cases rs.getLast? with
  | none => rfl
  | some l => simp only [frag_eq_end, forceEnd_eq]

@[simp] theorem hasTerminator_nil : hasTerminator [] = false := rfl

@[simp] theorem hasTerminator_cons (r : Record) (rs : List Record) :
    hasTerminator (r :: rs) = (terminates r.flag || hasTerminator rs) := by
  simp [hasTerminator]

theorem drained_cons (r : Record) (rs : List Record) :
    drained (r :: rs) = if terminates r.flag then [r] else r :: drained rs := by
  simp only [drained, endsMessage_eq]

theorem undrained_cons (r : Record) (rs : List Record) :
    undrained (r :: rs) = if terminates r.flag then rs else undrained rs := by
  simp only [undrained, endsMessage_eq]

theorem hiByte_eq (w : Word) : hiByte w = BitVec.ofNat 8 (w.toNat / 256) := by
  apply BitVec.eq_of_toNat_eq
  have := w.isLt
  rw [hiByte_toNat, BitVec.toNat_ofNat]
  omega

theorem loByte_eq (w : Word) : loByte w = BitVec.ofNat 8 (w.toNat % 256) := by
  apply BitVec.eq_of_toNat_eq
  rw [loByte_toNat, BitVec.toNat_ofNat]
  omega

/-- The response stream of `EN_RECEIVE` in numbers (R101). -/
theorem messageStream_eq (st : Status) (m : Message) :
    messageStream st m = messageBytes st.code m := by
  have h1 : BitVec.ofNat 8 (m.size % 65536 / 256) = BitVec.ofNat 8 (m.size / 256) := by
    apply BitVec.eq_of_toNat_eq
    simp only [BitVec.toNat_ofNat]
    omega
  have h2 : m.size % 65536 % 256 = m.size % 256 := by omega
  simp only [messageStream, messageBytes, streamWord, boolByte, hiByte_eq, loByte_eq,
    BitVec.toNat_ofNat, h1, h2, List.cons_append, List.nil_append]

end Sys2Proof.Machine
end

