-- ==== Sys2Proof/Laws/Outcomes.lean ====
section
/-! SUPPORT. Taking a sequence of fallible operations apart. -/

namespace Sys2Proof.Machine

/-- A sequence answers exactly when its first part does and its second part answers on that. -/
theorem bind_eq_ok {α β : Type} {x : Except Fault α} {f : α → Except Fault β} {b : β} :
    (x >>= f) = .ok b ↔ ∃ a, x = .ok a ∧ f a = .ok b := by
  cases x with
  | error r => exact ⟨fun h => (nomatch h), fun ⟨_, h, _⟩ => (nomatch h)⟩
  | ok a => exact ⟨fun h => ⟨a, rfl, h⟩, fun ⟨_, h, h'⟩ => by cases h; exact h'⟩

/-- A sequence stops exactly when its first part stops, or answers and its second part stops. -/
theorem bind_eq_error {α β : Type} {x : Except Fault α} {f : α → Except Fault β} {r : Fault} :
    (x >>= f) = .error r ↔ x = .error r ∨ ∃ a, x = .ok a ∧ f a = .error r := by
  cases x with
  | error r' =>
    exact ⟨fun h => .inl (by cases h; rfl), fun h => by
      rcases h with h | ⟨_, h, _⟩
      · cases h; rfl
      · cases h⟩
  | ok a =>
    exact ⟨fun h => .inr ⟨a, rfl, h⟩, fun h => by
      rcases h with h | ⟨_, h, h'⟩
      · cases h
      · cases h; exact h'⟩

@[simp] theorem ok_bind {α β : Type} (a : α) (f : α → Except Fault β) :
    ((.ok a : Except Fault α) >>= f) = f a := rfl

@[simp] theorem error_bind {α β : Type} (r : Fault) (f : α → Except Fault β) :
    ((.error r : Except Fault α) >>= f) = .error r := rfl

@[simp] theorem pure_eq_ok {α : Type} (a : α) : (pure a : Except Fault α) = .ok a := rfl

@[simp] theorem finish_ok (s : State) : finish (.ok s) = .next s := rfl

@[simp] theorem finish_error (r : Fault) : finish (.error r) = .fault r := rfl

/-- An operation answers a next state exactly when it did not stop. -/
theorem finish_eq_next {x : Except Fault State} {t : State} : finish x = .next t ↔ x = .ok t := by
  cases x with
  | error r => exact ⟨fun h => (nomatch h), fun h => (nomatch h)⟩
  | ok a => exact ⟨fun h => by cases h; rfl, fun h => by cases h; rfl⟩

/-- An operation faults exactly when it stopped. -/
theorem finish_eq_fault {x : Except Fault State} {r : Fault} : finish x = .fault r ↔ x = .error r := by
  cases x with
  | error r => exact ⟨fun h => by cases h; rfl, fun h => by cases h; rfl⟩
  | ok a => exact ⟨fun h => (nomatch h), fun h => (nomatch h)⟩

end Sys2Proof.Machine
end

