-- ==== Sys2Proof/Laws/State.lean ====
section
/-! SUPPORT. One lemma for each field of `State` and each named update, so that no proof unfolds an
update. -/

namespace Sys2Proof.Machine

/-! ## `respond` -/

@[simp] theorem respond_params (bs : List Byte) (s : State) :
    (respond bs s).params = s.params := rfl

@[simp] theorem respond_store (bs : List Byte) (s : State) :
    (respond bs s).store = s.store := rfl

@[simp] theorem respond_slots (bs : List Byte) (s : State) :
    (respond bs s).slots = s.slots := rfl

@[simp] theorem respond_rd (bs : List Byte) (s : State) :
    (respond bs s).rd = s.rd := rfl

@[simp] theorem respond_wr (bs : List Byte) (s : State) :
    (respond bs s).wr = s.wr := rfl

@[simp] theorem respond_msgId (bs : List Byte) (s : State) :
    (respond bs s).msgId = s.msgId := rfl

@[simp] theorem respond_ownAddr (bs : List Byte) (s : State) :
    (respond bs s).ownAddr = s.ownAddr := rfl

@[simp] theorem respond_rx (bs : List Byte) (s : State) :
    (respond bs s).rx = s.rx := rfl

@[simp] theorem respond_tx (bs : List Byte) (s : State) :
    (respond bs s).tx = s.tx := rfl

@[simp] theorem respond_hostIn (bs : List Byte) (s : State) :
    (respond bs s).hostIn = s.hostIn := rfl

@[simp] theorem respond_hostOut (bs : List Byte) (s : State) :
    (respond bs s).hostOut = s.hostOut ++ bs := rfl

@[simp] theorem respond_arrivals (bs : List Byte) (s : State) :
    (respond bs s).arrivals = s.arrivals := rfl

@[simp] theorem respond_ingestOut (bs : List Byte) (s : State) :
    (respond bs s).ingestOut = s.ingestOut := rfl

@[simp] theorem respond_busIn (bs : List Byte) (s : State) :
    (respond bs s).busIn = s.busIn := rfl

@[simp] theorem respond_busOut (bs : List Byte) (s : State) :
    (respond bs s).busOut = s.busOut := rfl

@[simp] theorem respond_freeCount (bs : List Byte) (s : State) :
    (respond bs s).freeCount = s.freeCount := rfl

/-! ## `answer` -/

@[simp] theorem answer_params (st : Status) (bs : List Byte) (s : State) :
    (answer st bs s).params = s.params := rfl

@[simp] theorem answer_store (st : Status) (bs : List Byte) (s : State) :
    (answer st bs s).store = s.store := rfl

@[simp] theorem answer_slots (st : Status) (bs : List Byte) (s : State) :
    (answer st bs s).slots = s.slots := rfl

@[simp] theorem answer_rd (st : Status) (bs : List Byte) (s : State) :
    (answer st bs s).rd = s.rd := rfl

@[simp] theorem answer_wr (st : Status) (bs : List Byte) (s : State) :
    (answer st bs s).wr = s.wr := rfl

@[simp] theorem answer_msgId (st : Status) (bs : List Byte) (s : State) :
    (answer st bs s).msgId = s.msgId := rfl

@[simp] theorem answer_ownAddr (st : Status) (bs : List Byte) (s : State) :
    (answer st bs s).ownAddr = s.ownAddr := rfl

@[simp] theorem answer_rx (st : Status) (bs : List Byte) (s : State) :
    (answer st bs s).rx = s.rx := rfl

@[simp] theorem answer_tx (st : Status) (bs : List Byte) (s : State) :
    (answer st bs s).tx = s.tx := rfl

@[simp] theorem answer_hostIn (st : Status) (bs : List Byte) (s : State) :
    (answer st bs s).hostIn = s.hostIn := rfl

@[simp] theorem answer_hostOut (st : Status) (bs : List Byte) (s : State) :
    (answer st bs s).hostOut = s.hostOut ++ st.code :: bs := rfl

@[simp] theorem answer_arrivals (st : Status) (bs : List Byte) (s : State) :
    (answer st bs s).arrivals = s.arrivals := rfl

@[simp] theorem answer_ingestOut (st : Status) (bs : List Byte) (s : State) :
    (answer st bs s).ingestOut = s.ingestOut := rfl

@[simp] theorem answer_busIn (st : Status) (bs : List Byte) (s : State) :
    (answer st bs s).busIn = s.busIn := rfl

@[simp] theorem answer_busOut (st : Status) (bs : List Byte) (s : State) :
    (answer st bs s).busOut = s.busOut := rfl

@[simp] theorem answer_freeCount (st : Status) (bs : List Byte) (s : State) :
    (answer st bs s).freeCount = s.freeCount := rfl

/-! ## `consume` -/

@[simp] theorem consume_params (rest : List Byte) (s : State) :
    (consume rest s).params = s.params := rfl

@[simp] theorem consume_store (rest : List Byte) (s : State) :
    (consume rest s).store = s.store := rfl

@[simp] theorem consume_slots (rest : List Byte) (s : State) :
    (consume rest s).slots = s.slots := rfl

@[simp] theorem consume_rd (rest : List Byte) (s : State) :
    (consume rest s).rd = s.rd := rfl

@[simp] theorem consume_wr (rest : List Byte) (s : State) :
    (consume rest s).wr = s.wr := rfl

@[simp] theorem consume_msgId (rest : List Byte) (s : State) :
    (consume rest s).msgId = s.msgId := rfl

@[simp] theorem consume_ownAddr (rest : List Byte) (s : State) :
    (consume rest s).ownAddr = s.ownAddr := rfl

@[simp] theorem consume_rx (rest : List Byte) (s : State) :
    (consume rest s).rx = s.rx := rfl

@[simp] theorem consume_tx (rest : List Byte) (s : State) :
    (consume rest s).tx = s.tx := rfl

@[simp] theorem consume_hostIn (rest : List Byte) (s : State) :
    (consume rest s).hostIn = rest := rfl

@[simp] theorem consume_hostOut (rest : List Byte) (s : State) :
    (consume rest s).hostOut = s.hostOut := rfl

@[simp] theorem consume_arrivals (rest : List Byte) (s : State) :
    (consume rest s).arrivals = s.arrivals := rfl

@[simp] theorem consume_ingestOut (rest : List Byte) (s : State) :
    (consume rest s).ingestOut = s.ingestOut := rfl

@[simp] theorem consume_busIn (rest : List Byte) (s : State) :
    (consume rest s).busIn = s.busIn := rfl

@[simp] theorem consume_busOut (rest : List Byte) (s : State) :
    (consume rest s).busOut = s.busOut := rfl

@[simp] theorem consume_freeCount (rest : List Byte) (s : State) :
    (consume rest s).freeCount = s.freeCount := rfl

/-! ## `rbInit` -/

@[simp] theorem rbInit_params (cap : Byte) (s : State) :
    (rbInit cap s).params = s.params := rfl

@[simp] theorem rbInit_store (cap : Byte) (s : State) :
    (rbInit cap s).store = s.store := rfl

@[simp] theorem rbInit_slots (cap : Byte) (s : State) :
    (rbInit cap s).slots = BitVec.ofNat 8 (min cap.toNat Config.rbCapMax + 1) := rfl

@[simp] theorem rbInit_rd (cap : Byte) (s : State) :
    (rbInit cap s).rd = 0 := rfl

@[simp] theorem rbInit_wr (cap : Byte) (s : State) :
    (rbInit cap s).wr = 0 := rfl

@[simp] theorem rbInit_msgId (cap : Byte) (s : State) :
    (rbInit cap s).msgId = s.msgId := rfl

@[simp] theorem rbInit_ownAddr (cap : Byte) (s : State) :
    (rbInit cap s).ownAddr = s.ownAddr := rfl

@[simp] theorem rbInit_rx (cap : Byte) (s : State) :
    (rbInit cap s).rx = s.rx := rfl

@[simp] theorem rbInit_tx (cap : Byte) (s : State) :
    (rbInit cap s).tx = s.tx := rfl

@[simp] theorem rbInit_hostIn (cap : Byte) (s : State) :
    (rbInit cap s).hostIn = s.hostIn := rfl

@[simp] theorem rbInit_hostOut (cap : Byte) (s : State) :
    (rbInit cap s).hostOut = s.hostOut := rfl

@[simp] theorem rbInit_arrivals (cap : Byte) (s : State) :
    (rbInit cap s).arrivals = s.arrivals := rfl

@[simp] theorem rbInit_ingestOut (cap : Byte) (s : State) :
    (rbInit cap s).ingestOut = s.ingestOut := rfl

@[simp] theorem rbInit_busIn (cap : Byte) (s : State) :
    (rbInit cap s).busIn = s.busIn := rfl

@[simp] theorem rbInit_busOut (cap : Byte) (s : State) :
    (rbInit cap s).busOut = s.busOut := rfl

@[simp] theorem rbInit_freeCount (cap : Byte) (s : State) :
    (rbInit cap s).freeCount = s.freeCount := rfl

/-! ## `drawByte` -/

@[simp] theorem drawByte_params (s : State) :
    (drawByte s).2.params = s.params := rfl

@[simp] theorem drawByte_store (s : State) :
    (drawByte s).2.store = s.store := rfl

@[simp] theorem drawByte_slots (s : State) :
    (drawByte s).2.slots = s.slots := rfl

@[simp] theorem drawByte_rd (s : State) :
    (drawByte s).2.rd = s.rd := rfl

@[simp] theorem drawByte_wr (s : State) :
    (drawByte s).2.wr = s.wr := rfl

@[simp] theorem drawByte_msgId (s : State) :
    (drawByte s).2.msgId = s.msgId := rfl

@[simp] theorem drawByte_ownAddr (s : State) :
    (drawByte s).2.ownAddr = s.ownAddr := rfl

@[simp] theorem drawByte_rx (s : State) :
    (drawByte s).2.rx = s.rx := rfl

@[simp] theorem drawByte_tx (s : State) :
    (drawByte s).2.tx = s.tx := rfl

@[simp] theorem drawByte_hostIn (s : State) :
    (drawByte s).2.hostIn = s.hostIn := rfl

@[simp] theorem drawByte_hostOut (s : State) :
    (drawByte s).2.hostOut = s.hostOut := rfl

@[simp] theorem drawByte_arrivals (s : State) :
    (drawByte s).2.arrivals = s.arrivals := rfl

@[simp] theorem drawByte_ingestOut (s : State) :
    (drawByte s).2.ingestOut = s.ingestOut := rfl

@[simp] theorem drawByte_busIn (s : State) :
    (drawByte s).2.busIn = s.busIn := rfl

@[simp] theorem drawByte_busOut (s : State) :
    (drawByte s).2.busOut = s.busOut := rfl

@[simp] theorem drawByte_freeCount (s : State) :
    (drawByte s).2.freeCount = s.freeCount + 1 := rfl

/-! ## `deliver` -/

@[simp] theorem deliver_params (st : Status) (s : State) :
    (deliver st s).params = s.params := rfl

@[simp] theorem deliver_store (st : Status) (s : State) :
    (deliver st s).store = s.store := rfl

@[simp] theorem deliver_slots (st : Status) (s : State) :
    (deliver st s).slots = s.slots := rfl

@[simp] theorem deliver_rd (st : Status) (s : State) :
    (deliver st s).rd = s.rd := rfl

@[simp] theorem deliver_wr (st : Status) (s : State) :
    (deliver st s).wr = s.wr := rfl

@[simp] theorem deliver_msgId (st : Status) (s : State) :
    (deliver st s).msgId = s.msgId := rfl

@[simp] theorem deliver_ownAddr (st : Status) (s : State) :
    (deliver st s).ownAddr = s.ownAddr := rfl

@[simp] theorem deliver_rx (st : Status) (s : State) :
    (deliver st s).rx = .start := rfl

@[simp] theorem deliver_tx (st : Status) (s : State) :
    (deliver st s).tx = s.tx := rfl

@[simp] theorem deliver_hostIn (st : Status) (s : State) :
    (deliver st s).hostIn = s.hostIn := rfl

@[simp] theorem deliver_hostOut (st : Status) (s : State) :
    (deliver st s).hostOut = s.hostOut ++ messageStream st s.rx.message := rfl

@[simp] theorem deliver_arrivals (st : Status) (s : State) :
    (deliver st s).arrivals = s.arrivals := rfl

@[simp] theorem deliver_ingestOut (st : Status) (s : State) :
    (deliver st s).ingestOut = s.ingestOut := rfl

@[simp] theorem deliver_busIn (st : Status) (s : State) :
    (deliver st s).busIn = s.busIn := rfl

@[simp] theorem deliver_busOut (st : Status) (s : State) :
    (deliver st s).busOut = s.busOut := rfl

@[simp] theorem deliver_freeCount (st : Status) (s : State) :
    (deliver st s).freeCount = s.freeCount := rfl

/-! ## `sendStart` -/

@[simp] theorem sendStart_params (payload : List Byte) (s : State) :
    (sendStart payload s).params = s.params := rfl

@[simp] theorem sendStart_store (payload : List Byte) (s : State) :
    (sendStart payload s).store = s.store := rfl

@[simp] theorem sendStart_slots (payload : List Byte) (s : State) :
    (sendStart payload s).slots = s.slots := rfl

@[simp] theorem sendStart_rd (payload : List Byte) (s : State) :
    (sendStart payload s).rd = s.rd := rfl

@[simp] theorem sendStart_wr (payload : List Byte) (s : State) :
    (sendStart payload s).wr = s.wr := rfl

@[simp] theorem sendStart_msgId (payload : List Byte) (s : State) :
    (sendStart payload s).msgId = s.msgId := rfl

@[simp] theorem sendStart_ownAddr (payload : List Byte) (s : State) :
    (sendStart payload s).ownAddr = s.ownAddr := rfl

@[simp] theorem sendStart_rx (payload : List Byte) (s : State) :
    (sendStart payload s).rx = s.rx := rfl

@[simp] theorem sendStart_tx (payload : List Byte) (s : State) :
    (sendStart payload s).tx = ⟨fragmentCount payload.length s.params.maxChunk, 0, 0, false, .ok, []⟩ := rfl

@[simp] theorem sendStart_hostIn (payload : List Byte) (s : State) :
    (sendStart payload s).hostIn = s.hostIn := rfl

@[simp] theorem sendStart_hostOut (payload : List Byte) (s : State) :
    (sendStart payload s).hostOut = s.hostOut := rfl

@[simp] theorem sendStart_arrivals (payload : List Byte) (s : State) :
    (sendStart payload s).arrivals = s.arrivals := rfl

@[simp] theorem sendStart_ingestOut (payload : List Byte) (s : State) :
    (sendStart payload s).ingestOut = s.ingestOut := rfl

@[simp] theorem sendStart_busIn (payload : List Byte) (s : State) :
    (sendStart payload s).busIn = s.busIn := rfl

@[simp] theorem sendStart_busOut (payload : List Byte) (s : State) :
    (sendStart payload s).busOut = s.busOut := rfl

@[simp] theorem sendStart_freeCount (payload : List Byte) (s : State) :
    (sendStart payload s).freeCount = s.freeCount := rfl

/-! ## `sendEnd` -/

@[simp] theorem sendEnd_params (s : State) :
    (sendEnd s).params = s.params := rfl

@[simp] theorem sendEnd_store (s : State) :
    (sendEnd s).store = s.store := rfl

@[simp] theorem sendEnd_slots (s : State) :
    (sendEnd s).slots = s.slots := rfl

@[simp] theorem sendEnd_rd (s : State) :
    (sendEnd s).rd = s.rd := rfl

@[simp] theorem sendEnd_wr (s : State) :
    (sendEnd s).wr = s.wr := rfl

@[simp] theorem sendEnd_msgId (s : State) :
    (sendEnd s).msgId = s.msgId + 1 := rfl

@[simp] theorem sendEnd_ownAddr (s : State) :
    (sendEnd s).ownAddr = s.ownAddr := rfl

@[simp] theorem sendEnd_rx (s : State) :
    (sendEnd s).rx = s.rx := rfl

@[simp] theorem sendEnd_tx (s : State) :
    (sendEnd s).tx = .idle := rfl

@[simp] theorem sendEnd_hostIn (s : State) :
    (sendEnd s).hostIn = s.hostIn := rfl

@[simp] theorem sendEnd_hostOut (s : State) :
    (sendEnd s).hostOut = s.hostOut ++ (if s.tx.ok then Status.ok else .txFail).code :: [busCode s.tx.last] := rfl

@[simp] theorem sendEnd_arrivals (s : State) :
    (sendEnd s).arrivals = s.arrivals := rfl

@[simp] theorem sendEnd_ingestOut (s : State) :
    (sendEnd s).ingestOut = s.ingestOut := rfl

@[simp] theorem sendEnd_busIn (s : State) :
    (sendEnd s).busIn = s.busIn := rfl

@[simp] theorem sendEnd_busOut (s : State) :
    (sendEnd s).busOut = s.busOut := rfl

@[simp] theorem sendEnd_freeCount (s : State) :
    (sendEnd s).freeCount = s.freeCount := rfl

/-! ## `placeRequest` -/

@[simp] theorem placeRequest_params (nbits w : Nat) (s : State) :
    (placeRequest nbits w s).params = s.params := rfl

@[simp] theorem placeRequest_store (nbits w : Nat) (s : State) :
    (placeRequest nbits w s).store = s.store := rfl

@[simp] theorem placeRequest_slots (nbits w : Nat) (s : State) :
    (placeRequest nbits w s).slots = s.slots := rfl

@[simp] theorem placeRequest_rd (nbits w : Nat) (s : State) :
    (placeRequest nbits w s).rd = s.rd := rfl

@[simp] theorem placeRequest_wr (nbits w : Nat) (s : State) :
    (placeRequest nbits w s).wr = s.wr := rfl

@[simp] theorem placeRequest_msgId (nbits w : Nat) (s : State) :
    (placeRequest nbits w s).msgId = s.msgId := rfl

@[simp] theorem placeRequest_ownAddr (nbits w : Nat) (s : State) :
    (placeRequest nbits w s).ownAddr = s.ownAddr := rfl

@[simp] theorem placeRequest_rx (nbits w : Nat) (s : State) :
    (placeRequest nbits w s).rx = s.rx := rfl

@[simp] theorem placeRequest_tx (nbits w : Nat) (s : State) :
    (placeRequest nbits w s).tx = s.tx := rfl

@[simp] theorem placeRequest_hostIn (nbits w : Nat) (s : State) :
    (placeRequest nbits w s).hostIn = tableBytes nbits w := rfl

@[simp] theorem placeRequest_hostOut (nbits w : Nat) (s : State) :
    (placeRequest nbits w s).hostOut = s.hostOut := rfl

@[simp] theorem placeRequest_arrivals (nbits w : Nat) (s : State) :
    (placeRequest nbits w s).arrivals = s.arrivals := rfl

@[simp] theorem placeRequest_ingestOut (nbits w : Nat) (s : State) :
    (placeRequest nbits w s).ingestOut = s.ingestOut := rfl

@[simp] theorem placeRequest_busIn (nbits w : Nat) (s : State) :
    (placeRequest nbits w s).busIn = s.busIn := rfl

@[simp] theorem placeRequest_busOut (nbits w : Nat) (s : State) :
    (placeRequest nbits w s).busOut = s.busOut := rfl

@[simp] theorem placeRequest_freeCount (nbits w : Nat) (s : State) :
    (placeRequest nbits w s).freeCount = s.freeCount := rfl

/-! ## reset -/

@[simp] theorem resetWith_params (p : Config.Params) :
    (State.resetWith p).params = p := rfl

@[simp] theorem resetWith_store (p : Config.Params) :
    (State.resetWith p).store = [] := rfl

@[simp] theorem resetWith_slots (p : Config.Params) :
    (State.resetWith p).slots = BitVec.ofNat 8 (p.capacity + 1) := rfl

@[simp] theorem resetWith_rd (p : Config.Params) :
    (State.resetWith p).rd = 0 := rfl

@[simp] theorem resetWith_wr (p : Config.Params) :
    (State.resetWith p).wr = 0 := rfl

@[simp] theorem resetWith_msgId (p : Config.Params) :
    (State.resetWith p).msgId = 0 := rfl

@[simp] theorem resetWith_ownAddr (p : Config.Params) :
    (State.resetWith p).ownAddr = 0 := rfl

@[simp] theorem resetWith_rx (p : Config.Params) :
    (State.resetWith p).rx = .start := rfl

@[simp] theorem resetWith_tx (p : Config.Params) :
    (State.resetWith p).tx = .idle := rfl

@[simp] theorem resetWith_hostIn (p : Config.Params) :
    (State.resetWith p).hostIn = [] := rfl

@[simp] theorem resetWith_hostOut (p : Config.Params) :
    (State.resetWith p).hostOut = [] := rfl

@[simp] theorem resetWith_arrivals (p : Config.Params) :
    (State.resetWith p).arrivals = [] := rfl

@[simp] theorem resetWith_ingestOut (p : Config.Params) :
    (State.resetWith p).ingestOut = [] := rfl

@[simp] theorem resetWith_busIn (p : Config.Params) :
    (State.resetWith p).busIn = [] := rfl

@[simp] theorem resetWith_busOut (p : Config.Params) :
    (State.resetWith p).busOut = [] := rfl

@[simp] theorem resetWith_freeCount (p : Config.Params) :
    (State.resetWith p).freeCount = 0 := rfl

end Sys2Proof.Machine
end

