-- ==== Sys2Proof/Laws/Ring.lean ====
section
/-! SUPPORT. What each ring buffer operation can do, said once, and its effect on the byte queue
(spec/40_ring_buffer.md R121 to R127). -/

namespace Sys2Proof.Machine

open Sys2Proof.Config

/-! ## Everything an operation can do -/

/-- A load answers the slot's defined byte and changes nothing, or a free value. -/
theorem load_cases {a : Nat} {s t : State} {v : Byte} (h : load a s = .ok (v, t)) :
    (memRead s.store a = some v ∧ t = s) ∨
      (memRead s.store a = none ∧ v = freeByte s.freeCount ∧
        t = { s with freeCount := s.freeCount + 1 }) := by
  unfold load at h
  split at h
  · split at h
    · next w hw => cases h; exact .inl ⟨hw, rfl⟩
    · next hw => cases h; exact .inr ⟨hw, rfl, rfl⟩
  · cases h

/-- A load stops only on a slot that does not exist. -/
theorem load_ok {a : Nat} (s : State) (ha : a < slotsMax) : ∃ v t, load a s = .ok (v, t) := by
  unfold load
  rw [if_pos ha]
  split <;> exact ⟨_, _, rfl⟩

/-- A load of a slot that holds a defined byte. -/
theorem load_some {a : Nat} {s : State} {v : Byte} (ha : a < slotsMax)
    (hv : memRead s.store a = some v) : load a s = .ok (v, s) := by
  unfold load
  rw [if_pos ha, hv]

/-- `RB_WRITE`: refused on a full buffer with no change at all, else the byte is stored at `WR` and
`WR` advances (R122). -/
theorem rbWrite_cases {b : Byte} {s t : State} {st : Status} (h : rbWrite b s = .ok (st, t)) :
    (isFull s = true ∧ st = .rbFull ∧ t = s) ∨
      (isFull s = false ∧ s.wr.toNat < slotsMax ∧ st = .ok ∧
        t = { s with store := memWrite s.store s.wr.toNat b, wr := advance s.slots s.wr }) := by
  unfold rbWrite at h
  split at h
  · next hf => cases h; exact .inl ⟨hf, rfl, rfl⟩
  · next hf =>
    split at h
    · next hw => cases h; exact .inr ⟨by simpa using hf, hw, rfl, rfl⟩
    · cases h

theorem rbWrite_full {b : Byte} {s : State} (h : isFull s = true) :
    rbWrite b s = .ok (.rbFull, s) := by simp [rbWrite, h]

theorem rbWrite_notFull {b : Byte} {s : State} (hc : Cursors s) (h : isFull s = false) :
    rbWrite b s = .ok (.ok,
      { s with store := memWrite s.store s.wr.toNat b, wr := advance s.slots s.wr }) := by
  simp [rbWrite, h, wr_exists hc]

/-- `RB_WRITE` never stops under the cursor invariant. -/
theorem rbWrite_ok (b : Byte) {s : State} (hc : Cursors s) : ∃ st t, rbWrite b s = .ok (st, t) := by
  cases hf : isFull s
  · exact ⟨_, _, rbWrite_notFull hc hf⟩
  · exact ⟨_, _, rbWrite_full hf⟩

/-- `RB_READ`: the buffer is not empty, the byte comes from slot `RD`, and `RD` advances; only the
count of free values may change besides (R123). -/
theorem rbRead_cases {s t : State} {v : Byte} (h : rbRead s = .ok (v, t)) :
    isEmpty s = false ∧
      ∃ n, t = { s with rd := advance s.slots s.rd, freeCount := n } ∧
        ((memRead s.store s.rd.toNat = some v ∧ n = s.freeCount) ∨
          (memRead s.store s.rd.toNat = none ∧ n = s.freeCount + 1 ∧ v = freeByte s.freeCount)) := by
  unfold rbRead at h
  split at h
  · cases h
  · next he =>
    obtain ⟨⟨w, u⟩, hl, hr⟩ := bind_eq_ok.1 h
    simp only [pure_eq_ok, Except.ok.injEq, Prod.mk.injEq] at hr
    obtain ⟨rfl, rfl⟩ := hr
    refine ⟨by simpa using he, ?_⟩
    rcases load_cases hl with ⟨hm, rfl⟩ | ⟨hm, rfl, rfl⟩
    · exact ⟨_, rfl, .inl ⟨hm, rfl⟩⟩
    · exact ⟨_, rfl, .inr ⟨hm, rfl, rfl⟩⟩

/-- `RB_READ` of a buffer whose oldest byte is `v`. -/
theorem rbRead_some {s : State} {v : Byte} (hc : Cursors s) (he : isEmpty s = false)
    (hv : memRead s.store s.rd.toNat = some v) :
    rbRead s = .ok (v, { s with rd := advance s.slots s.rd }) := by
  simp [rbRead, he, load_some (rd_exists hc) hv]

/-- `RB_READ` of an empty buffer is U1. -/
theorem rbRead_empty {s : State} (he : isEmpty s = true) : rbRead s = .error .readEmpty := by
  simp [rbRead, he]

/-- `RB_READ` stops only on an empty buffer, under the cursor invariant. -/
theorem rbRead_ok {s : State} (hc : Cursors s) (he : isEmpty s = false) :
    ∃ v t, rbRead s = .ok (v, t) := by
  obtain ⟨v, t, h⟩ := load_ok s (rd_exists hc)
  exact ⟨v, { t with rd := advance t.slots t.rd }, by simp [rbRead, he, h]⟩

/-- `RB_PEEK` changes at most the count of free values (R124). -/
theorem rbPeek_cases {k : Nat} {s t : State} {v : Byte} (h : rbPeek k s = .ok (v, t)) :
    ∃ n, t = { s with freeCount := n } ∧
      ((k % s.slots.toNat < occupied s ∧ memRead s.store (peekSlot s k) = some v ∧ n = s.freeCount) ∨
        (v = freeByte s.freeCount ∧ n = s.freeCount + 1)) := by
  unfold rbPeek at h
  split at h
  · next hk =>
    rcases load_cases h with ⟨hm, rfl⟩ | ⟨hm, rfl, rfl⟩
    · exact ⟨_, rfl, .inl ⟨hk, hm, rfl⟩⟩
    · exact ⟨_, rfl, .inr ⟨rfl, rfl⟩⟩
  · split at h
    · cases h; exact ⟨_, rfl, .inr ⟨rfl, rfl⟩⟩
    · cases h

/-- `RB_PEEK` never stops under the cursor invariant. -/
theorem rbPeek_ok (k : Nat) {s : State} (hc : Cursors s) : ∃ v t, rbPeek k s = .ok (v, t) := by
  unfold rbPeek
  rw [if_pos (peekSlot_exists hc k)]
  split
  · exact load_ok s (peekSlot_exists hc k)
  · exact ⟨_, _, rfl⟩

/-! ## The byte queue -/

@[simp] theorem fifo_length (s : State) : (fifo s).length = occupied s := by simp [fifo]

theorem fifo_getElem {s : State} {k : Nat} (h : k < (fifo s).length) :
    (fifo s)[k] = memRead s.store (peekSlot s k) := by simp [fifo]

/-- The queue depends on the storage and the cursors only. -/
theorem fifo_congr {s t : State} (h1 : t.store = s.store) (h2 : t.slots = s.slots)
    (h3 : t.rd = s.rd) (h4 : t.wr = s.wr) : fifo t = fifo s := by
  simp [fifo, occupied, peekSlot, h1, h2, h3, h4]

/-- A successful `RB_WRITE` appends its byte (R127). -/
theorem fifo_write {s : State} (hc : Cursors s) (hf : isFull s = false) (b : Byte) :
    fifo { s with store := memWrite s.store s.wr.toNat b, wr := advance s.slots s.wr } =
      fifo s ++ [some b] := by
  have hnf : ¬ occupied s + 1 = s.slots.toNat := fun h =>
    by rw [← isFull_iff_occupied hc] at h; simp [h] at hf
  have hlt := occupied_lt hc
  have hadv := advance_toNat hc.2
  have hc' : Cursors { s with
      store := memWrite s.store s.wr.toNat b, wr := advance s.slots s.wr } :=
    ⟨hc.1, advance_lt hc.2⟩
  have hocc : occupied { s with
      store := memWrite s.store s.wr.toNat b, wr := advance s.slots s.wr } = occupied s + 1 := by
    rw [occupied_eq hc', occupied_eq hc]
    rw [occupied_eq hc] at hnf hlt
    obtain ⟨h1, h2⟩ := hc
    simp only [hadv]
    split at hnf <;> split <;> split <;> omega
  apply List.ext_getElem
  · simp [hocc]
  · intro k hk hk'
    rw [fifo_getElem hk]
    rw [fifo_length, hocc] at hk
    have hps : peekSlot { s with
      store := memWrite s.store s.wr.toNat b, wr := advance s.slots s.wr } k = peekSlot s k := rfl
    rw [hps, memRead_memWrite]
    have hks := peekSlot_eq hc (show k < s.slots.toNat by omega)
    by_cases hkl : k < occupied s
    · rw [List.getElem_append_left (by simpa using hkl), fifo_getElem, if_neg]
      rw [hks]
      rw [occupied_eq hc] at hkl
      obtain ⟨h1, h2⟩ := hc
      split at hkl <;> split <;> omega
    · obtain rfl : k = occupied s := by omega
      rw [if_pos, List.getElem_append_right (by simp)]
      · simp
      · rw [hks]
        rw [occupied_eq hc]
        obtain ⟨h1, h2⟩ := hc
        split <;> split <;> omega

/-- The queue after `RD` advanced over a stored byte is the queue less its first byte (R127). -/
theorem fifo_advance {s : State} (hc : Cursors s) (he : isEmpty s = false) (n : Nat) :
    fifo s = memRead s.store s.rd.toNat ::
      fifo { s with rd := advance s.slots s.rd, freeCount := n } := by
  have hne : occupied s ≠ 0 := fun h => by
    rw [← isEmpty_iff_occupied hc] at h; simp [h] at he
  have hlt := occupied_lt hc
  have hadv := advance_toNat hc.1
  have hc' : Cursors { s with rd := advance s.slots s.rd, freeCount := n } :=
    ⟨advance_lt hc.1, hc.2⟩
  have hocc : occupied { s with rd := advance s.slots s.rd, freeCount := n } + 1 = occupied s := by
    rw [occupied_eq hc', occupied_eq hc]
    rw [occupied_eq hc] at hne hlt
    obtain ⟨h1, h2⟩ := hc
    simp only [hadv]
    split at hne <;> split <;> split <;> omega
  apply List.ext_getElem
  · simp [hocc]
  · intro k hk hk'
    rw [fifo_getElem hk]
    rw [fifo_length] at hk
    rw [peekSlot_eq hc (by omega)]
    cases k with
    | zero => simp [hc.1]
    | succ k =>
      rw [List.getElem_cons_succ, fifo_getElem]
      have hks := peekSlot_eq hc' (show k < s.slots.toNat by omega)
      rw [hks]
      simp only [hadv]
      congr 1
      obtain ⟨h1, h2⟩ := hc
      split <;> split <;> split <;> omega

/-- `RB_INIT` empties the queue (R127). -/
theorem fifo_rbInit (cap : Byte) (s : State) : fifo (rbInit cap s) = [] := by
  have : occupied (rbInit cap s) = 0 := by
    simp [occupied]
  simp [fifo, this]

/-- `Holds` on an empty buffer. -/
theorem holds_nil_iff {s : State} (hc : Cursors s) : Holds s [] ↔ isEmpty s = true := by
  rw [isEmpty_iff_occupied hc, ← fifo_length, List.length_eq_zero_iff]
  simp [Holds]

theorem Holds.length {s : State} {q : List Byte} (h : Holds s q) : occupied s = q.length := by
  rw [← fifo_length, h, List.length_map]

/-- Reading a queue that is not empty: the first byte comes out and the rest stays. -/
theorem Holds.read {s : State} {b : Byte} {q : List Byte} (hc : Cursors s) (h : Holds s (b :: q)) :
    rbRead s = .ok (b, { s with rd := advance s.slots s.rd }) ∧
      Holds { s with rd := advance s.slots s.rd } q := by
  have he : isEmpty s = false := by
    cases hx : isEmpty s with
    | false => rfl
    | true =>
      have h1 := h.length
      rw [(isEmpty_iff_occupied hc).1 hx] at h1
      simp at h1
  have h2 := fifo_advance hc he s.freeCount
  unfold Holds at h
  rw [h2] at h
  simp only [List.map_cons, List.cons.injEq] at h
  exact ⟨rbRead_some hc he h.1, h.2⟩

/-- Peeking at a stored byte. -/
theorem Holds.peek {s : State} {q : List Byte} (hc : Cursors s) (h : Holds s q) {k : Nat}
    (hk : k < q.length) : rbPeek k s = .ok (q[k], s) := by
  have ho := h.length
  have hlt := occupied_lt hc
  unfold rbPeek
  rw [Nat.mod_eq_of_lt (by omega), if_pos (by omega)]
  refine load_some (peekSlot_exists hc k) ?_
  have h1 := fifo_getElem (s := s) (k := k) (by simp; omega)
  have h2 : fifo s = q.map some := h
  rw [← h1]
  simp only [h2, List.getElem_map]

/-- Writing to a queue with free space appends. -/
theorem Holds.write {s : State} {q : List Byte} (hc : Cursors s) (h : Holds s q) (b : Byte)
    (hf : isFull s = false) :
    Holds { s with store := memWrite s.store s.wr.toNat b, wr := advance s.slots s.wr } (q ++ [b]) := by
  unfold Holds at h ⊢
  rw [fifo_write hc hf, h, List.map_append]
  rfl

end Sys2Proof.Machine
end

