-- ==== Sys2Proof/Laws/Ingest.lean ====
section
/-! SUPPORT. What `ingest` and the notification can do, said once (spec/41_ingest.md,
spec/60_exceptions.md R224 to R227). -/

namespace Sys2Proof.Machine

open Sys2Proof.Config

/-! ## Successive writes -/

/-- Successive writes change the storage and `WR` only. -/
theorem rbWrites_frame {bs : List Byte} {s t : State} (h : rbWrites bs s = .ok t) :
    ∃ m w, t = { s with store := m, wr := w } := by
  induction bs generalizing s with
  | nil => cases h; exact ⟨_, _, rfl⟩
  | cons b bs ih =>
    obtain ⟨⟨st, u⟩, h1, h2⟩ := bind_eq_ok.1 h
    obtain ⟨m, w, rfl⟩ := ih h2
    rcases rbWrite_cases h1 with ⟨-, -, rfl⟩ | ⟨-, -, -, rfl⟩ <;> exact ⟨_, _, rfl⟩

/-- One write keeps the cursor invariant and the canonical form. -/
theorem rbWrite_keeps {b : Byte} {s t : State} {st : Status} (h : rbWrite b s = .ok (st, t))
    (hc : Cursors s) (hm : Memory.wf s.store) : Cursors t ∧ Memory.wf t.store := by
  rcases rbWrite_cases h with ⟨-, -, rfl⟩ | ⟨-, hw, -, rfl⟩
  · exact ⟨hc, hm⟩
  · exact ⟨⟨hc.1, advance_lt hc.2⟩, memWrite_wf b hm hw⟩

/-- Successive writes keep the cursor invariant and the canonical form. -/
theorem rbWrites_keeps {bs : List Byte} {s t : State} (h : rbWrites bs s = .ok t)
    (hc : Cursors s) (hm : Memory.wf s.store) : Cursors t ∧ Memory.wf t.store := by
  induction bs generalizing s with
  | nil => cases h; exact ⟨hc, hm⟩
  | cons b bs ih =>
    obtain ⟨⟨st, u⟩, h1, h2⟩ := bind_eq_ok.1 h
    obtain ⟨hc', hm'⟩ := rbWrite_keeps h1 hc hm
    exact ih h2 hc' hm'

/-- Successive writes never stop under the cursor invariant. -/
theorem rbWrites_ok (bs : List Byte) {s : State} (hc : Cursors s) :
    ∃ t, rbWrites bs s = .ok t ∧ Cursors t := by
  induction bs generalizing s with
  | nil => exact ⟨s, rfl, hc⟩
  | cons b bs ih =>
    obtain ⟨st, u, h⟩ := rbWrite_ok b hc
    have hc' : Cursors u := by
      rcases rbWrite_cases h with ⟨-, -, rfl⟩ | ⟨-, -, -, rfl⟩
      · exact hc
      · exact ⟨hc.1, advance_lt hc.2⟩
    obtain ⟨t, ht, hct⟩ := ih hc'
    exact ⟨t, by simp [rbWrites, h, ht], hct⟩

/-- Writes that fit the free space append their bytes to the queue (R127). -/
theorem rbWrites_fifo {bs : List Byte} {s : State} (hc : Cursors s)
    (hlen : bs.length ≤ freeSpace s) :
    ∃ t, rbWrites bs s = .ok t ∧ Cursors t ∧ fifo t = fifo s ++ bs.map some := by
  induction bs generalizing s with
  | nil => exact ⟨s, rfl, hc, by simp⟩
  | cons b bs ih =>
    have hf : isFull s = false := by
      cases hx : isFull s with
      | false => rfl
      | true => rw [isFull_iff_freeSpace hc] at hx; simp [hx] at hlen
    have hw := rbWrite_notFull (b := b) hc hf
    have hfw := fifo_write hc hf b
    have hc' : Cursors { s with
        store := memWrite s.store s.wr.toNat b, wr := advance s.slots s.wr } :=
      ⟨hc.1, advance_lt hc.2⟩
    have hocc := congrArg List.length hfw
    simp only [fifo_length, List.length_append, List.length_singleton] at hocc
    have h1 := freeSpace_add_occupied hc
    have h2 := freeSpace_add_occupied hc'
    obtain ⟨t, ht, hct, hft⟩ := ih hc' (by
      simp only [List.length_cons] at hlen
      simp only [hocc] at h2
      omega)
    refine ⟨t, by simp [rbWrites, hw, ht], hct, ?_⟩
    rw [hft, hfw]
    simp

/-! ## Admission -/

/-- Successive writes that fit: which slots they store to, and no other (R146). -/
theorem rbWrites_slots {bs : List Byte} {s : State} (hc : Cursors s)
    (hlen : bs.length ≤ freeSpace s) :
    ∃ t, rbWrites bs s = .ok t ∧
      t = { s with
        store := t.store, wr := BitVec.ofNat 8 ((s.wr.toNat + bs.length) % s.slots.toNat) } ∧
      (∀ j, j < bs.length → memRead t.store ((s.wr.toNat + j) % s.slots.toNat) = bs[j]?) ∧
      ∀ a, (∀ j, j < bs.length → a ≠ (s.wr.toNat + j) % s.slots.toNat) →
        memRead t.store a = memRead s.store a := by
  induction bs generalizing s with
  | nil =>
    refine ⟨s, rfl, ?_, by simp, by simp⟩
    rw [List.length_nil, Nat.add_zero, Nat.mod_eq_of_lt hc.2, BitVec.ofNat_toNat, BitVec.setWidth_eq]
  | cons b bs ih =>
    simp only [List.length_cons] at hlen ⊢
    have hf : isFull s = false := by
      cases hx : isFull s with
      | false => rfl
      | true => rw [isFull_iff_freeSpace hc] at hx; omega
    have hw := rbWrite_notFull (b := b) hc hf
    have hfw := congrArg List.length (fifo_write hc hf b)
    simp only [fifo_length, List.length_append, List.length_singleton] at hfw
    have h1 := freeSpace_add_occupied hc
    have hlt := occupied_lt hc
    have hwr := hc.2
    have hc' : Cursors { s with
        store := memWrite s.store s.wr.toNat b, wr := advance s.slots s.wr } :=
      ⟨hc.1, advance_lt hc.2⟩
    have h2 := freeSpace_add_occupied hc'
    obtain ⟨t, ht, he, hr, ho⟩ := ih hc' (by change _ = s.slots.toNat at h2; omega)
    have hadv : ∀ j, ((advance s.slots s.wr).toNat + j) % s.slots.toNat =
        (s.wr.toNat + (j + 1)) % s.slots.toNat := fun j => by
      have h3 : (advance s.slots s.wr).toNat = (s.wr.toNat + 1) % s.slots.toNat := by
        rw [advance_toNat hc.2]
        split
        · next h => rw [h, Nat.mod_self]
        · rw [Nat.mod_eq_of_lt]; omega
      rw [h3, Nat.mod_add_mod]
      congr 1
      omega
    simp only [hadv] at he hr ho
    refine ⟨t, by simp [rbWrites, hw, ht], he, fun j hj => ?_, fun a ha => ?_⟩
    · cases j with
      | zero =>
        rw [Nat.add_zero, Nat.mod_eq_of_lt hc.2, ho _ fun k hk h => ?_]
        · exact memRead_memWrite_same _ _ _
        · rcases Nat.lt_or_ge (s.wr.toNat + (k + 1)) s.slots.toNat with h' | h'
          · rw [Nat.mod_eq_of_lt h'] at h; omega
          · rw [Nat.mod_eq_sub_mod h', Nat.mod_eq_of_lt (by omega)] at h; omega
      | succ j => simpa using hr j (by omega)
    · rw [ho a fun j hj => ha (j + 1) (by omega)]
      refine memRead_memWrite_other _ _ ?_
      have := ha 0 (by omega)
      rwa [Nat.add_zero, Nat.mod_eq_of_lt hc.2] at this

/-- A frame that passes every test (R140): its length, checksum, payload and space. -/
theorem admission_eq_ok {raw : List Byte} {free : Nat} :
    admission raw free = .ok ↔
      8 ≤ raw.length ∧ raw.length % 4 = 0 ∧ rawRecomputed raw = rawChecksum raw ∧
        7 + rawPlen raw ≤ raw.length ∧ 8 + rawPlen raw ≤ free := by
  unfold admission
  simp only [minFrame, align, headerSize]
  by_cases h1 : raw.length < 8
  · simp only [h1, if_true]; constructor
    · intro h; cases h
    · rintro ⟨h, -⟩; omega
  · by_cases h2 : raw.length % 4 = 0
    · by_cases h3 : rawRecomputed raw = rawChecksum raw
      · by_cases h4 : 7 + rawPlen raw > raw.length
        · simp only [h1, h2, h3, h4, if_true, if_false, ne_eq, not_true]; constructor
          · intro h; cases h
          · rintro ⟨-, -, -, h, -⟩; omega
        · by_cases h5 : free < 7 + rawPlen raw + 1
          · simp only [h1, h2, h3, h4, h5, if_true, if_false, ne_eq, not_true]; constructor
            · intro h; cases h
            · rintro ⟨-, -, -, -, h⟩; omega
          · simp only [h1, h2, h3, h4, h5, if_false, ne_eq, not_true]; constructor
            · intro _; exact ⟨by omega, trivial, trivial, by omega, by omega⟩
            · intro _; trivial
      · simp [h1, h2, h3]
    · simp [h1, h2]

/-- The stored bytes of an admitted frame are one whole record (R146, R88). -/
theorem rawRecord_eq {raw : List Byte} {free : Nat} (h : admission raw free = .ok) :
    rawRecord raw = (Record.ofRaw raw).bytes ∧
      (Record.ofRaw raw).payload.length = rawPlen raw := by
  obtain ⟨h8, -, -, h7, -⟩ := admission_eq_ok.1 h
  have hlen : (Record.ofRaw raw).payload.length = rawPlen raw := by
    simp [Record.ofRaw]; omega
  refine ⟨?_, hlen⟩
  unfold Record.bytes
  rw [hlen]
  unfold rawRecord
  simp only [headerSize, Record.ofRaw, rawChecksum, hiByte_be16, loByte_be16]
  obtain ⟨a0, a1, a2, a3, a4, a5, a6, rest, rfl⟩ : ∃ a0 a1 a2 a3 a4 a5 a6 rest,
      raw = a0 :: a1 :: a2 :: a3 :: a4 :: a5 :: a6 :: rest := by
    match raw, h8 with
    | a0 :: a1 :: a2 :: a3 :: a4 :: a5 :: a6 :: rest, _ => exact ⟨_, _, _, _, _, _, _, _, rfl⟩
  simp [rawByte, rawPlen, Nat.add_comm 7, List.take_succ_cons]

/-! ## `ingest` -/

/-- `EN_INGEST` answers the first failing test and changes nothing, or passes every test and writes
one record (R140). -/
theorem ingest_cases {raw : List Byte} {s t : State} {st : Status} (h : ingest raw s = .ok (st, t)) :
    st = admission raw (freeSpace s) ∧
      ((st ≠ .ok ∧ t = s) ∨ (st = .ok ∧ rbWrites (rawRecord raw) s = .ok t)) := by
  unfold ingest at h
  split at h
  · next ha =>
    obtain ⟨u, h1, h2⟩ := bind_eq_ok.1 h
    cases h2
    exact ⟨ha.symm, .inr ⟨rfl, h1⟩⟩
  · next hne =>
    cases h
    exact ⟨rfl, .inl ⟨hne, rfl⟩⟩

/-- `EN_INGEST` never stops under the cursor invariant; it appends nothing or exactly one whole
record (R146). -/
theorem ingest_ok (raw : List Byte) {s : State} (hc : Cursors s) :
    ∃ t, ingest raw s = .ok (admission raw (freeSpace s), t) ∧ Cursors t ∧
      ((admission raw (freeSpace s) ≠ .ok ∧ t = s) ∨
        (admission raw (freeSpace s) = .ok ∧ (Record.ofRaw raw).Fits ∧
          fifo t = fifo s ++ (Record.ofRaw raw).bytes.map some)) := by
  by_cases ha : admission raw (freeSpace s) = .ok
  · obtain ⟨hr, hl⟩ := rawRecord_eq ha
    obtain ⟨-, -, -, h7, h8⟩ := admission_eq_ok.1 ha
    have hfr := freeSpace_le (s := s)
    obtain ⟨t, ht, hct, hft⟩ := rbWrites_fifo (bs := rawRecord raw) hc (by
      rw [hr]; simp [Record.bytes, hl]; omega)
    refine ⟨t, ?_, hct, .inr ⟨ha, by unfold Record.Fits; omega, by rw [hft, hr]⟩⟩
    unfold ingest
    rw [ha]
    simp [ht]
  · refine ⟨s, ?_, hc, .inl ⟨ha, rfl⟩⟩
    unfold ingest
    split
    · next h => exact absurd h ha
    · rfl

/-- `EN_INGEST` changes the storage and `WR` only (R146). -/
theorem ingest_frame {raw : List Byte} {s t : State} {st : Status}
    (h : ingest raw s = .ok (st, t)) : ∃ m w, t = { s with store := m, wr := w } := by
  obtain ⟨-, ⟨-, rfl⟩ | ⟨-, h1⟩⟩ := ingest_cases h
  · exact ⟨_, _, rfl⟩
  · exact rbWrites_frame h1

theorem ingest_keeps {raw : List Byte} {s t : State} {st : Status} (h : ingest raw s = .ok (st, t))
    (hc : Cursors s) (hm : Memory.wf s.store) : Cursors t ∧ Memory.wf t.store := by
  obtain ⟨-, ⟨-, rfl⟩ | ⟨-, h1⟩⟩ := ingest_cases h
  · exact ⟨hc, hm⟩
  · exact rbWrites_keeps h1 hc hm

/-! ## The notification -/

theorem admitted_cons_ok (raw : List Byte) (frames : List (List Byte)) (sts : List Byte) :
    admitted (raw :: frames) (Status.ok.code :: sts) = Record.ofRaw raw :: admitted frames sts := by
  simp [admitted, Status.code]

theorem admitted_cons_drop {st : Status} (h : st ≠ .ok) (raw : List Byte)
    (frames : List (List Byte)) (sts : List Byte) :
    admitted (raw :: frames) (st.code :: sts) = admitted frames sts := by
  have : st.code ≠ 0#8 := by revert h; cases st <;> decide
  simp [admitted, this]

theorem admitted_append {f f' : List (List Byte)} {a a' : List Byte} (h : a.length = f.length) :
    admitted (f ++ f') (a ++ a') = admitted f a ++ admitted f' a' := by
  simp [admitted, List.zip_append h.symm]

/-- Statuses of later frames do not matter. -/
theorem admitted_append_right {f : List (List Byte)} {a : List Byte} (h : a.length = f.length)
    (a' : List Byte) : admitted f (a ++ a') = admitted f a := by
  have := admitted_append (f' := []) (a' := a') h
  simpa [admitted] using this

theorem admitted_sublist {f : List (List Byte)} {a : List Byte} (h : a.length = f.length) :
    (admitted f a).Sublist (f.map Record.ofRaw) := by
  have := (List.filter_sublist (l := f.zip a) (p := fun p => p.2 = 0x00)).map
    fun p => Record.ofRaw p.1
  rwa [show (fun p : List Byte × Byte => Record.ofRaw p.1) = Record.ofRaw ∘ Prod.fst from rfl,
    ← List.map_map (l := f.zip a), List.map_fst_zip (by omega)] at this

/-- From `s` to `t` the next `n` boundaries were passed; `new` are the records of the frames that were
scheduled for them and answered `ST_OK`. -/
structure Notified (s t : State) (n : Nat) (new : List Record) : Prop where
  arrivals : t.arrivals = s.arrivals.drop n
  answered : ∃ sts, t.ingestOut = s.ingestOut ++ sts ∧
    sts.length = (s.arrivals.take n).flatten.length ∧
    new = admitted (s.arrivals.take n).flatten sts

theorem Notified.none {s t : State} (h1 : t.arrivals = s.arrivals) (h2 : t.ingestOut = s.ingestOut) :
    Notified s t 0 [] := ⟨by simp [h1], [], by simp [h2], by simp, by simp [admitted]⟩

theorem Notified.trans {s t u : State} {n n' : Nat} {new new' : List Record}
    (h : Notified s t n new) (h' : Notified t u n' new') : Notified s u (n + n') (new ++ new') := by
  obtain ⟨a, sts, o, l, rfl⟩ := h
  obtain ⟨a', sts', o', l', rfl⟩ := h'
  rw [a] at l'
  refine ⟨by rw [a', a, List.drop_drop], sts ++ sts', by rw [o', o, List.append_assoc], ?_, ?_⟩
  · rw [List.take_add, List.flatten_append, List.length_append, List.length_append, l, l']
  · rw [List.take_add, List.flatten_append, admitted_append l, a]

/-- What was stored and what may still come are records of the frames that were scheduled. -/
theorem Notified.append_sublist {s t : State} {n : Nat} {new later : List Record}
    (h : Notified s t n new) (hl : later.Sublist (t.arrivals.flatten.map Record.ofRaw)) :
    (new ++ later).Sublist (s.arrivals.flatten.map Record.ofRaw) := by
  obtain ⟨ha, sts, -, l, rfl⟩ := h
  conv => rhs; rw [← List.take_append_drop n s.arrivals, List.flatten_append, List.map_append, ← ha]
  exact (admitted_sublist l).append hl

theorem Notified.sublist {s t : State} {n : Nat} {new : List Record} (h : Notified s t n new) :
    new.Sublist (s.arrivals.flatten.map Record.ofRaw) := by
  simpa using h.append_sublist (List.nil_sublist _)

/-- The notification touches the storage, `WR` and the ingest agent's own streams, nothing of the
host's (R226, R31). -/
theorem ingestAll_frame {frames : List (List Byte)} {s t : State}
    (h : ingestAll frames s = .ok t) : ∃ m w o, t = { s with store := m, wr := w, ingestOut := o } := by
  induction frames generalizing s with
  | nil => cases h; exact ⟨_, _, _, rfl⟩
  | cons raw more ih =>
    obtain ⟨⟨st, u⟩, h1, h2⟩ := bind_eq_ok.1 h
    obtain ⟨m, w, rfl⟩ := ingest_frame h1
    obtain ⟨m', w', o', rfl⟩ := ih h2
    exact ⟨_, _, _, rfl⟩

theorem ingestAll_keeps {frames : List (List Byte)} {s t : State} (h : ingestAll frames s = .ok t)
    (hc : Cursors s) (hm : Memory.wf s.store) : Cursors t ∧ Memory.wf t.store := by
  induction frames generalizing s with
  | nil => cases h; exact ⟨hc, hm⟩
  | cons raw more ih =>
    obtain ⟨⟨st, u⟩, h1, h2⟩ := bind_eq_ok.1 h
    obtain ⟨hc', hm'⟩ := ingest_keeps h1 hc hm
    exact ih h2 hc' hm'

/-- The notification never stops under the cursor invariant; it appends whole records (R36, R66). -/
theorem ingestAll_ok (frames : List (List Byte)) {s : State} (hc : Cursors s) :
    ∃ t new, ingestAll frames s = .ok t ∧ Cursors t ∧ (∀ r ∈ new, Record.Fits r) ∧
      fifo t = fifo s ++ (recordsBytes new).map some ∧
      ∃ sts, t.ingestOut = s.ingestOut ++ sts ∧ sts.length = frames.length ∧
        new = admitted frames sts := by
  induction frames generalizing s with
  | nil => exact ⟨s, [], rfl, hc, by simp, by simp [recordsBytes], [], by simp, rfl, rfl⟩
  | cons raw more ih =>
    obtain ⟨u, hu, hcu, hcase⟩ := ingest_ok raw hc
    obtain ⟨t, new, ht, hct, hfit, hft, sts, ho, hl, rfl⟩ := ih
      (s := { u with ingestOut := u.ingestOut ++ [(admission raw (freeSpace s)).code] }) hcu
    have hfu : fifo { u with ingestOut := u.ingestOut ++ [(admission raw (freeSpace s)).code] } =
        fifo u := rfl
    have hou : u.ingestOut = s.ingestOut := by obtain ⟨m, w, rfl⟩ := ingest_frame hu; rfl
    have hout : t.ingestOut = s.ingestOut ++ (admission raw (freeSpace s)).code :: sts := by
      rw [ho, ← hou]; simp
    rcases hcase with ⟨hne, rfl⟩ | ⟨hok, hf, hfi⟩
    · refine ⟨t, _, by simp [ingestAll, hu, ht], hct, hfit, by rw [hft, hfu], _, hout, by simp [hl],
        (admitted_cons_drop hne _ _ _).symm⟩
    · refine ⟨t, Record.ofRaw raw :: admitted more sts, by simp [ingestAll, hu, ht], hct, ?_, ?_,
        _, hout, by simp [hl], by rw [hok, admitted_cons_ok]⟩
      · intro r hr
        rcases List.mem_cons.1 hr with rfl | hr
        · exact hf
        · exact hfit r hr
      · rw [hft, hfu, hfi]
        simp [recordsBytes]

theorem notify_frame {s t : State} (h : notify s = .ok t) :
    ∃ m w o, t = { s with
      store := m, wr := w, ingestOut := o, arrivals := s.arrivals.tail } := by
  unfold notify at h
  split at h
  · next he => cases h; exact ⟨s.store, s.wr, s.ingestOut, by rw [he, List.tail_nil, ← he]⟩
  · next he =>
    obtain ⟨m, w, o, rfl⟩ := ingestAll_frame h
    exact ⟨_, _, _, by rw [he]; rfl⟩

/-- The ingest agent is answered once for each frame (R140). -/
theorem ingestAll_ingestOut {frames : List (List Byte)} {s t : State}
    (h : ingestAll frames s = .ok t) :
    ∃ sts, t.ingestOut = s.ingestOut ++ sts ∧ sts.length = frames.length := by
  induction frames generalizing s with
  | nil => cases h; exact ⟨[], by simp, rfl⟩
  | cons raw more ih =>
    obtain ⟨⟨st, u⟩, h1, h2⟩ := bind_eq_ok.1 h
    obtain ⟨m, w, rfl⟩ := ingest_frame h1
    obtain ⟨sts, o, l⟩ := ih h2
    exact ⟨st.code :: sts, by rw [o]; simp, by simp [l]⟩

theorem notify_ingestOut {s t : State} (h : notify s = .ok t) :
    ∃ sts, t.ingestOut = s.ingestOut ++ sts ∧
      sts.length = (s.arrivals.take 1).flatten.length := by
  unfold notify at h
  split at h
  · next ha => cases h; exact ⟨[], by simp, by simp [ha]⟩
  · next ha =>
    obtain ⟨sts, o, l⟩ := ingestAll_ingestOut h
    exact ⟨sts, o, by simp [ha, l]⟩

theorem notify_keeps {s t : State} (h : notify s = .ok t) (hc : Cursors s)
    (hm : Memory.wf s.store) : Cursors t ∧ Memory.wf t.store := by
  unfold notify at h
  split at h
  · cases h; exact ⟨hc, hm⟩
  · exact ingestAll_keeps h hc hm

/-- Taking the notification never stops under the cursor invariant; it appends whole records to the
queue, and none when none is scheduled. -/
theorem notify_ok {s : State} (hc : Cursors s) :
    ∃ t new, notify s = .ok t ∧ Cursors t ∧ (∀ r ∈ new, Record.Fits r) ∧
      fifo t = fifo s ++ (recordsBytes new).map some ∧ (Quiet s → new = [] ∧ Quiet t) ∧
      Notified s t 1 new := by
  cases ha : s.arrivals with
  | nil =>
    exact ⟨s, [], by simp [notify, ha], hc, by simp, by simp [recordsBytes], fun h => ⟨rfl, h⟩,
      by simp [ha], [], by simp, by simp [ha], by simp [admitted]⟩
  | cons frames later =>
    obtain ⟨t, new, ht, hct, hfit, hft, hans⟩ :=
      ingestAll_ok frames (s := { s with arrivals := later }) hc
    obtain ⟨m, w, o, he⟩ := ingestAll_frame ht
    have hat : t.arrivals = later := by rw [he]
    refine ⟨t, new, by simp [notify, ha, ht], hct, hfit, hft, fun h => ?_,
      by simp [ha, hat], by simpa [ha] using hans⟩
    obtain ⟨sts, -, hl, rfl⟩ := hans
    have hq : frames = [] := h frames (by rw [ha]; exact List.mem_cons_self)
    subst hq
    refine ⟨by simp [admitted], fun fs hfs => h fs ?_⟩
    rw [ha]; exact List.mem_cons_of_mem _ (hat ▸ hfs)

/-- A quiet boundary only moves the schedule on. -/
theorem notify_quiet {s : State} (h : Quiet s) :
    notify s = .ok { s with arrivals := s.arrivals.tail } ∧
      Quiet { s with arrivals := s.arrivals.tail } := by
  refine ⟨?_, fun fs hfs => h fs (List.mem_of_mem_tail hfs)⟩
  cases ha : s.arrivals with
  | nil => simp [notify, ha]; rw [← ha]
  | cons frames later =>
    have : frames = [] := h frames (by rw [ha]; exact List.mem_cons_self)
    simp [notify, ha, this, ingestAll]

end Sys2Proof.Machine
end

