-- ==== Sys2Proof/Laws/PerInstr.lean ====
section
/-! SUPPORT. Statements about every operation as syntax, one lemma for each constructor. -/

namespace Sys2Proof.Laws

namespace EncodesRow

/-- The `mask` of an operation's row in spec/opcode_table.json. -/
def mask : Instr → Word
  | .rbInit _ => 0xFF00
  | .rbWrite _ => 0xFF00
  | .rbRead => 0xFFFF
  | .rbPeek _ => 0xFF00
  | .rbEmpty => 0xFFFF
  | .rbAvail => 0xFFFF
  | .enIngest _ => 0xFFFF
  | .enSend _ _ _ => 0xFF80
  | .enReceive => 0xFFFF
  | .enPending => 0xFFFF
  | .enCksum _ _ _ _ _ => 0xFFFF
  | .enSetaddr _ => 0xFF80

/-- The `match` of an operation's row. -/
def pattern : Instr → Word
  | .rbInit _ => 0x0000
  | .rbWrite _ => 0x1000
  | .rbRead => 0x2000
  | .rbPeek _ => 0x3000
  | .rbEmpty => 0x4000
  | .rbAvail => 0x5000
  | .enIngest _ => 0x8000
  | .enSend _ _ _ => 0x9000
  | .enReceive => 0xA000
  | .enPending => 0xB000
  | .enCksum _ _ _ _ _ => 0xC000
  | .enSetaddr _ => 0xD000

/-- An operation's command word has the fixed bits of its row of the opcode table. -/
def Statement (i : Instr) : Prop := encodeWord i &&& mask i = pattern i

theorem rbInit : ∀ cap, Statement (.rbInit cap) := by unfold Statement; decide
theorem rbWrite : ∀ b, Statement (.rbWrite b) := by unfold Statement; decide
theorem rbRead : Statement .rbRead := by unfold Statement; decide
theorem rbPeek : ∀ k, Statement (.rbPeek k) := by unfold Statement; decide
theorem rbEmpty : Statement .rbEmpty := by unfold Statement; decide
theorem rbAvail : Statement .rbAvail := by unfold Statement; decide
theorem enIngest : ∀ raw, Statement (.enIngest raw) := fun _ => by
  show commandWord 0x8 0 &&& 0xFFFF = 0x8000; decide
theorem enSend : ∀ dest opcode payload, Statement (.enSend dest opcode payload) := fun dest _ _ => by
  show commandWord 0x9 (dest.zeroExtend 8) &&& 0xFF80 = 0x9000
  revert dest; decide
theorem enReceive : Statement .enReceive := by unfold Statement; decide
theorem enPending : Statement .enPending := by unfold Statement; decide
theorem enCksum : ∀ sender flag opcode id length, Statement (.enCksum sender flag opcode id length) :=
  fun _ _ _ _ _ => by show commandWord 0xC 0 &&& 0xFFFF = 0xC000; decide
theorem enSetaddr : ∀ a, Statement (.enSetaddr a) := by unfold Statement; decide

end EncodesRow

end Sys2Proof.Laws
end

