-- ==== Sys2Proof/Laws/Progress.lean ====
section
/-! SUPPORT. What every ring buffer call of `EN_RECEIVE`, and the sequences made of them, keep and
how they use up the backlog (spec/10_state.md R28, R31; spec/70_reset_and_hazards.md R270). -/

namespace Sys2Proof.Machine

open Sys2Proof.Config

/-- `EN_RECEIVE`'s calls leave alone: the parameters, `SLOTS`, `MSG_ID`, `OWN_ADDR`, the sequencer's
registers, and the host's and the bus's streams. -/
structure HostKept (s t : State) : Prop where
  params : t.params = s.params
  slots : t.slots = s.slots
  msgId : t.msgId = s.msgId
  ownAddr : t.ownAddr = s.ownAddr
  tx : t.tx = s.tx
  hostIn : t.hostIn = s.hostIn
  hostOut : t.hostOut = s.hostOut
  busIn : t.busIn = s.busIn
  busOut : t.busOut = s.busOut

theorem HostKept.refl (s : State) : HostKept s s := ⟨rfl, rfl, rfl, rfl, rfl, rfl, rfl, rfl, rfl⟩

theorem HostKept.trans {s t u : State} (h : HostKept s t) (h' : HostKept t u) : HostKept s u :=
  ⟨h'.1.trans h.1, h'.2.trans h.2, h'.3.trans h.3, h'.4.trans h.4, h'.5.trans h.5, h'.6.trans h.6,
    h'.7.trans h.7, h'.8.trans h.8, h'.9.trans h.9⟩

/-- What every sequence of `EN_RECEIVE`'s calls does to a state. -/
structure Progress (s t : State) : Prop where
  kept : HostKept s t
  cursors : Cursors s → Cursors t
  store : Cursors s → Memory.wf s.store → Memory.wf t.store
  frames : FramesFit s → FramesFit t
  backlog : Cursors s → backlog t ≤ backlog s

theorem Progress.refl (s : State) : Progress s s := ⟨.refl s, id, fun _ => id, id, fun _ => Nat.le_refl _⟩

theorem Progress.trans {s t u : State} (h : Progress s t) (h' : Progress t u) : Progress s u :=
  ⟨h.kept.trans h'.kept, fun hc => h'.cursors (h.cursors hc),
    fun hc hm => h'.store (h.cursors hc) (h.store hc hm), fun hf => h'.frames (h.frames hf),
    fun hc => Nat.le_trans (h'.backlog (h.cursors hc)) (h.backlog hc)⟩

/-- Changing only working registers is progress. -/
theorem Progress.setRx (s : State) (r : RxWork) : Progress s { s with rx := r } :=
  ⟨⟨rfl, rfl, rfl, rfl, rfl, rfl, rfl, rfl, rfl⟩, id, fun _ => id, id, fun _ => Nat.le_refl _⟩

theorem recordBytes_length (r : Record) : r.bytes.length = 8 + r.payload.length := by
  simp [Record.bytes]; omega

/-! ## The notification -/

theorem ingestAll_occupied {frames : List (List Byte)} {s t : State}
    (h : ingestAll frames s = .ok t) (hc : Cursors s) :
    occupied t ≤ occupied s + 255 * frames.length := by
  induction frames generalizing s with
  | nil => cases h; simp
  | cons raw more ih =>
    obtain ⟨u, hu, hcu, hcase⟩ := ingest_ok raw hc
    obtain ⟨⟨st, u'⟩, h1, h2⟩ := bind_eq_ok.1 h
    rw [hu] at h1
    cases h1
    have hstep := ih h2 hcu
    have ho : occupied { u with ingestOut := u.ingestOut ++ [(admission raw (freeSpace s)).code] } =
        occupied u := rfl
    rw [ho] at hstep
    simp only [List.length_cons]
    rcases hcase with ⟨-, rfl⟩ | ⟨-, hf, hfi⟩
    · omega
    · have hl := congrArg List.length hfi
      simp only [fifo_length, List.length_append, List.length_map, recordBytes_length] at hl
      unfold Record.Fits at hf
      omega

theorem notify_progress {s t : State} (h : notify s = .ok t) : Progress s t := by
  have hfr := notify_frame h
  refine ⟨?_, fun hc => ?_, fun hc hm => (notify_keeps h hc hm).2, fun hf => ?_, fun hc => ?_⟩
  · obtain ⟨m, w, o, rfl⟩ := hfr
    exact ⟨rfl, rfl, rfl, rfl, rfl, rfl, rfl, rfl, rfl⟩
  · obtain ⟨u, -, hu, hcu, -⟩ := notify_ok hc
    rw [hu] at h; cases h; exact hcu
  · obtain ⟨m, w, o, rfl⟩ := hfr
    exact fun fs hfs => hf fs (List.mem_of_mem_tail hfs)
  · obtain ⟨m, w, o, he⟩ := hfr
    unfold notify at h
    unfold backlog pendingFrames
    split at h
    · cases h; exact Nat.le_refl _
    · next frames later ha =>
      have ho := ingestAll_occupied h hc
      have ho' : occupied { s with arrivals := later } = occupied s := rfl
      have hat : t.arrivals = later := by rw [he, ha]; rfl
      rw [hat, ha]
      simp only [List.map_cons, List.sum_cons]
      rw [ho'] at ho
      omega

/-! ## The host's calls -/

theorem hostEmpty_progress {s t : State} {e : Bool} (h : hostEmpty s = .ok (e, t)) :
    Progress s t ∧ e = isEmpty t := by
  obtain ⟨u, h1, h2⟩ := bind_eq_ok.1 h
  cases h2
  exact ⟨notify_progress h1, rfl⟩

theorem hostAvail_progress {s t : State} {n : Nat} (h : hostAvail s = .ok (n, t)) :
    Progress s t ∧ n = freeSpace t := by
  obtain ⟨u, h1, h2⟩ := bind_eq_ok.1 h
  cases h2
  exact ⟨notify_progress h1, rfl⟩

theorem rbPeek_progress {k : Nat} {s t : State} {v : Byte} (h : rbPeek k s = .ok (v, t)) :
    Progress s t := by
  obtain ⟨n, rfl, -⟩ := rbPeek_cases h
  exact ⟨⟨rfl, rfl, rfl, rfl, rfl, rfl, rfl, rfl, rfl⟩, id, fun _ => id, id, fun _ => Nat.le_refl _⟩

theorem hostPeek_progress {k : Nat} {s t : State} {v : Byte} (h : hostPeek k s = .ok (v, t)) :
    Progress s t := by
  obtain ⟨u, h1, h2⟩ := bind_eq_ok.1 h
  exact (notify_progress h1).trans (rbPeek_progress h2)

/-- A read takes one byte of the backlog. -/
theorem rbRead_progress {s t : State} {v : Byte} (h : rbRead s = .ok (v, t)) :
    Progress s t ∧ (Cursors s → backlog t < backlog s) := by
  obtain ⟨he, n, rfl, -⟩ := rbRead_cases h
  have hlt : Cursors s → backlog { s with rd := advance s.slots s.rd, freeCount := n } <
      backlog s := fun hc => by
    have hf := congrArg List.length (fifo_advance hc he n)
    simp only [fifo_length, List.length_cons] at hf
    unfold backlog
    rw [hf]
    have : pendingFrames { s with rd := advance s.slots s.rd, freeCount := n } =
      pendingFrames s := rfl
    omega
  exact ⟨⟨⟨rfl, rfl, rfl, rfl, rfl, rfl, rfl, rfl, rfl⟩, fun hc => ⟨advance_lt hc.1, hc.2⟩,
    fun _ => id, id, fun hc => Nat.le_of_lt (hlt hc)⟩, hlt⟩

theorem hostRead_progress {s t : State} {v : Byte} (h : hostRead s = .ok (v, t)) :
    Progress s t ∧ (Cursors s → backlog t < backlog s) := by
  obtain ⟨u, h1, h2⟩ := bind_eq_ok.1 h
  have hn := notify_progress h1
  obtain ⟨hp, hl⟩ := rbRead_progress h2
  exact ⟨hn.trans hp, fun hc => Nat.lt_of_lt_of_le (hl (hn.cursors hc)) (hn.backlog hc)⟩

theorem hostReads_progress {n : Nat} {s t : State} {vs : List Byte}
    (h : hostReads n s = .ok (vs, t)) : Progress s t := by
  induction n generalizing s vs with
  | zero => cases h; exact .refl _
  | succ n ih =>
    obtain ⟨⟨v, u⟩, h1, h2⟩ := bind_eq_ok.1 h
    obtain ⟨⟨ws, u'⟩, h3, h4⟩ := bind_eq_ok.1 h2
    cases h4
    exact (hostRead_progress h1).1.trans (ih h3)

theorem drainHeader_progress {s t : State} (h : drainHeader s = .ok t) : Progress s t := by
  obtain ⟨⟨hd, u⟩, h1, h2⟩ := bind_eq_ok.1 h
  have := hostReads_progress h1
  simp only [pure_eq_ok, Except.ok.injEq] at h2
  subst h2
  split
  · exact this.trans (.setRx _ _)
  · exact this

theorem drainPayload_progress {n : Nat} {s t : State} (h : drainPayload n s = .ok t) :
    Progress s t := by
  induction n generalizing s with
  | zero => cases h; exact .refl _
  | succ n ih =>
    obtain ⟨⟨b, u⟩, h1, h2⟩ := bind_eq_ok.1 h
    dsimp only at h2
    split at h2
    · exact ((hostRead_progress h1).1.trans (.setRx _ _)).trans (ih h2)
    · cases h2

theorem drainRecord_progress {s t : State} {f : Byte} (h : drainRecord s = .ok (f, t)) :
    Progress s t ∧ (Cursors s → backlog t < backlog s) := by
  obtain ⟨⟨f', u1⟩, h1, h⟩ := bind_eq_ok.1 h
  obtain ⟨⟨l, u2⟩, h2, h⟩ := bind_eq_ok.1 h
  obtain ⟨u3, h3, h⟩ := bind_eq_ok.1 h
  split at h
  · cases h
  · obtain ⟨u4, h4, h⟩ := bind_eq_ok.1 h
    cases h
    have p1 := hostPeek_progress h1
    obtain ⟨p2, l2⟩ := hostRead_progress h2
    have p3 := (drainHeader_progress h3).trans (drainPayload_progress h4)
    exact ⟨(p1.trans p2).trans p3, fun hc => Nat.lt_of_le_of_lt
      (p3.backlog (p2.cursors (p1.cursors hc)))
      (Nat.lt_of_lt_of_le (l2 (p1.cursors hc)) (p1.backlog hc))⟩

theorem drain_progress {bound : Nat} {s t : State} (h : drain bound s = .ok t) : Progress s t := by
  induction bound generalizing s with
  | zero => cases h
  | succ bound ih =>
    obtain ⟨⟨e, u⟩, h1, h⟩ := bind_eq_ok.1 h
    have p1 := (hostEmpty_progress h1).1
    dsimp only at h
    split at h
    · cases h; exact p1
    · obtain ⟨⟨f, u'⟩, h2, h⟩ := bind_eq_ok.1 h
      have p2 := p1.trans (drainRecord_progress h2).1
      dsimp only at h
      split at h
      · cases h; exact p2.trans (.setRx _ _)
      · exact p2.trans (ih h)

/-! ## The requeue -/

/-- Writes of a requeue keep what the reads keep, but they fill the buffer. -/
structure Writing (s t : State) : Prop where
  kept : HostKept s t
  cursors : Cursors s → Cursors t
  store : Cursors s → Memory.wf s.store → Memory.wf t.store
  frames : FramesFit s → FramesFit t

theorem Progress.writing {s t : State} (h : Progress s t) : Writing s t :=
  ⟨h.kept, h.cursors, h.store, h.frames⟩

theorem Writing.trans {s t u : State} (h : Writing s t) (h' : Writing t u) : Writing s u :=
  ⟨h.kept.trans h'.kept, fun hc => h'.cursors (h.cursors hc),
    fun hc hm => h'.store (h.cursors hc) (h.store hc hm), fun hf => h'.frames (h.frames hf)⟩

theorem rbWrite_writing {b : Byte} {s t : State} {st : Status} (h : rbWrite b s = .ok (st, t)) :
    Writing s t := by
  rcases rbWrite_cases h with ⟨-, -, rfl⟩ | ⟨-, hw, -, rfl⟩
  · exact (Progress.refl _).writing
  · exact ⟨⟨rfl, rfl, rfl, rfl, rfl, rfl, rfl, rfl, rfl⟩, fun hc => ⟨hc.1, advance_lt hc.2⟩,
      fun _ hm => memWrite_wf b hm hw, id⟩

theorem hostWrites_writing {bs : List Byte} {s t : State} (h : hostWrites bs s = .ok t) :
    Writing s t := by
  induction bs generalizing s with
  | nil => cases h; exact (Progress.refl _).writing
  | cons b bs ih =>
    obtain ⟨u, h1, h⟩ := bind_eq_ok.1 h
    obtain ⟨⟨st, u'⟩, h2, h⟩ := bind_eq_ok.1 h
    exact ((notify_progress h1).writing.trans (rbWrite_writing h2)).trans (ih h)

/-! ## The operation stops only for the reasons the spec gives -/

/-- The faults the spec asks for in `EN_RECEIVE`: U1, U4 and U8. -/
def Fault.ofDrain (r : Fault) : Prop := r = .readEmpty ∨ r = .shortPrefix ∨ r = .aggregateFull

theorem notify_not_error {s : State} {r : Fault} (hc : Cursors s) : notify s ≠ .error r := by
  obtain ⟨t, -, ht, -⟩ := notify_ok hc
  rw [ht]; exact fun h => nomatch h

theorem hostRead_error {s : State} {r : Fault} (hc : Cursors s) (h : hostRead s = .error r) :
    r = .readEmpty := by
  rcases bind_eq_error.1 h with h | ⟨t, ht, h⟩
  · exact absurd h (notify_not_error hc)
  · have hct := (notify_progress ht).cursors hc
    cases he : isEmpty t with
    | true => rw [rbRead_empty he] at h; cases h; rfl
    | false => obtain ⟨v, u, hu⟩ := rbRead_ok hct he; rw [hu] at h; cases h

theorem hostReads_error {n : Nat} {s : State} {r : Fault} (hc : Cursors s)
    (h : hostReads n s = .error r) : r = .readEmpty := by
  induction n generalizing s with
  | zero => cases h
  | succ n ih =>
    rcases bind_eq_error.1 h with h | ⟨⟨v, t⟩, ht, h⟩
    · exact hostRead_error hc h
    · rcases bind_eq_error.1 h with h | ⟨_, -, h⟩
      · exact ih ((hostRead_progress ht).1.cursors hc) h
      · cases h

theorem drainPayload_error {n : Nat} {s : State} {r : Fault} (hc : Cursors s)
    (h : drainPayload n s = .error r) : r.ofDrain := by
  induction n generalizing s with
  | zero => cases h
  | succ n ih =>
    rcases bind_eq_error.1 h with h | ⟨⟨b, t⟩, ht, h⟩
    · exact .inl (hostRead_error hc h)
    · dsimp only at h
      split at h
      · exact ih (((hostRead_progress ht).1.trans (.setRx _ _)).cursors hc) h
      · cases h; exact .inr (.inr rfl)

theorem drainRecord_error {s : State} {r : Fault} (hc : Cursors s)
    (h : drainRecord s = .error r) : r.ofDrain := by
  rcases bind_eq_error.1 h with h | ⟨⟨f, u1⟩, h1, h⟩
  · rcases bind_eq_error.1 h with h | ⟨t, ht, h⟩
    · exact absurd h (notify_not_error hc)
    · obtain ⟨v, u, hu⟩ := rbPeek_ok 2 ((notify_progress ht).cursors hc)
      rw [hu] at h; cases h
  · have c1 := (hostPeek_progress h1).cursors hc
    rcases bind_eq_error.1 h with h | ⟨⟨l, u2⟩, h2, h⟩
    · exact .inl (hostRead_error c1 h)
    · have c2 := (hostRead_progress h2).1.cursors c1
      rcases bind_eq_error.1 h with h | ⟨u3, h3, h⟩
      · rcases bind_eq_error.1 h with h | ⟨_, -, h⟩
        · exact .inl (hostReads_error c2 h)
        · cases h
      · have c3 := (drainHeader_progress h3).cursors c2
        split at h
        · cases h; exact .inr (.inl rfl)
        · rcases bind_eq_error.1 h with h | ⟨_, -, h⟩
          · exact drainPayload_error c3 h
          · cases h

/-- The model's bound on a drain is never reached: every record uses up backlog (R270, log 14). -/
theorem drain_error {bound : Nat} {s : State} {r : Fault} (hc : Cursors s)
    (hb : backlog s < bound) (h : drain bound s = .error r) : r.ofDrain := by
  induction bound generalizing s with
  | zero => omega
  | succ bound ih =>
    rcases bind_eq_error.1 h with h | ⟨⟨e, u⟩, h1, h⟩
    · rcases bind_eq_error.1 h with h | ⟨_, -, h⟩
      · exact absurd h (notify_not_error hc)
      · cases h
    · have p1 := (hostEmpty_progress h1).1
      have c1 := p1.cursors hc
      dsimp only at h
      split at h
      · cases h
      · rcases bind_eq_error.1 h with h | ⟨⟨f, u'⟩, h2, h⟩
        · exact drainRecord_error c1 h
        · obtain ⟨p2, l2⟩ := drainRecord_progress h2
          dsimp only at h
          split at h
          · cases h
          · have := l2 c1
            have := p1.backlog hc
            exact ih (p2.cursors c1) (by omega) h

theorem hostWrites_ok (bs : List Byte) {s : State} (hc : Cursors s) : ∃ t, hostWrites bs s = .ok t := by
  induction bs generalizing s with
  | nil => exact ⟨s, rfl⟩
  | cons b bs ih =>
    obtain ⟨u, -, hu, hcu, -⟩ := notify_ok hc
    obtain ⟨st, v, hv⟩ := rbWrite_ok b hcu
    obtain ⟨t, ht⟩ := ih ((rbWrite_writing hv).cursors hcu)
    exact ⟨t, by simp [hostWrites, hu, hv, ht]⟩

/-- The requeue never stops under the cursor invariant. -/
theorem requeue_ok {s : State} (hc : Cursors s) : ∃ t, requeue s = .ok t := by
  unfold requeue
  split
  · exact ⟨_, rfl⟩
  · obtain ⟨u, -, hu, hcu, -⟩ := notify_ok hc
    simp only [hostAvail, hu, ok_bind, pure_eq_ok]
    split
    · exact ⟨_, rfl⟩
    · obtain ⟨t, ht⟩ := hostWrites_ok (requeueRecord u.rx) hcu
      exact ⟨deliver .rxRequeued t, by simp [ht]⟩

/-- `EN_RECEIVE` stops only for U1, U4 or U8 (R180, R270). -/
theorem receive_error {s : State} {r : Fault} (hc : Cursors s) (h : receive s = .error r) :
    r.ofDrain := by
  rcases bind_eq_error.1 h with h | ⟨t, ht, h⟩
  · exact drain_error hc (Nat.lt_succ_self _) h
  · dsimp only at h
    split at h
    · cases h
    · have hct := (drain_progress ht).cursors hc
      obtain ⟨u, hu⟩ := requeue_ok (s := { t with rx := totals t.rx }) hct
      rw [hu] at h; cases h

end Sys2Proof.Machine
end

