-- ==== Sys2Proof/Laws/Reassembly.lean ====
section
/-! SUPPORT. A drain over a buffer of whole records, with notifications at any boundary, said once
(spec/43_receive.md R182 to R187, R195, R199). -/

namespace Sys2Proof.Machine

open Sys2Proof.Config

/-- From `s` to `t`, past `n` boundaries, while only whole records arrived: `new` are the records the
notifications stored, in order; with none scheduled there are none and the storage is as it was. -/
structure Arrived (s t : State) (n : Nat) (new : List Record) : Prop where
  progress : Progress s t
  freeCount : t.freeCount = s.freeCount
  fits : ∀ r ∈ new, r.Fits
  notified : Notified s t n new
  quiet : Quiet s → new = [] ∧ Quiet t ∧ t.ingestOut = s.ingestOut ∧ t.store = s.store ∧ t.wr = s.wr

theorem Arrived.trans {s t u : State} {k k' : Nat} {n n' : List Record} (h : Arrived s t k n)
    (h' : Arrived t u k' n') : Arrived s u (k + k') (n ++ n') :=
  ⟨h.progress.trans h'.progress, h'.freeCount.trans h.freeCount,
    fun r hr => by
      rcases List.mem_append.1 hr with hr | hr
      · exact h.fits r hr
      · exact h'.fits r hr,
    h.notified.trans h'.notified,
    fun hq => by
      obtain ⟨rfl, q1, o1, m1, w1⟩ := h.quiet hq
      obtain ⟨rfl, q2, o2, m2, w2⟩ := h'.quiet q1
      exact ⟨rfl, q2, o2.trans o1, m2.trans m1, w2.trans w1⟩⟩

/-- Progress that takes no boundary and leaves the storage, `WR` and the free values alone. -/
theorem Arrived.still {s t : State} (hp : Progress s t) (hf : t.freeCount = s.freeCount)
    (ha : t.arrivals = s.arrivals) (ho : t.ingestOut = s.ingestOut) (hm : t.store = s.store)
    (hw : t.wr = s.wr) : Arrived s t 0 [] :=
  ⟨hp, hf, by simp, .none ha ho, fun h => ⟨rfl, by unfold Quiet at *; rwa [ha], ho, hm, hw⟩⟩

theorem Arrived.setRx (s : State) (r : RxWork) : Arrived s { s with rx := r } 0 [] :=
  .still (.setRx s r) rfl rfl rfl rfl rfl

/-- Only the working registers changed since. -/
theorem Arrived.thenRx {s t : State} {n : Nat} {new : List Record} (h : Arrived s t n new)
    (r : RxWork) : Arrived s { t with rx := r } n new := by
  simpa using h.trans (.setRx t r)

theorem recordsBytes_append (a b : List Record) :
    recordsBytes (a ++ b) = recordsBytes a ++ recordsBytes b := by simp [recordsBytes]

theorem notify_arrived {s : State} {q : List Byte} (hc : Cursors s) (h : Holds s q) :
    ∃ t new, notify s = .ok t ∧ Arrived s t 1 new ∧ t.rx = s.rx ∧ Holds t (q ++ recordsBytes new) := by
  obtain ⟨t, new, ht, hct, hfit, hft, hq, hnot⟩ := notify_ok hc
  have hp := notify_progress ht
  obtain ⟨m, w, o, rfl⟩ := notify_frame ht
  refine ⟨_, new, ht, ⟨hp, rfl, hfit, hnot, fun hqs => ?_⟩, rfl, ?_⟩
  · obtain ⟨e, he⟩ := notify_quiet hqs
    rw [ht] at e
    simp only [Except.ok.injEq, State.mk.injEq, true_and] at e
    exact ⟨(hq hqs).1, (hq hqs).2, e.2.2.1, e.1, e.2.1⟩
  · unfold Holds at h ⊢
    rw [hft, h, List.map_append]

theorem hostRead_arrived {s : State} {b : Byte} {q : List Byte} (hc : Cursors s)
    (h : Holds s (b :: q)) :
    ∃ t new, hostRead s = .ok (b, t) ∧ Arrived s t 1 new ∧ t.rx = s.rx ∧
      Holds t (q ++ recordsBytes new) := by
  obtain ⟨u, new, hu, hau, hrx, hhu⟩ := notify_arrived hc h
  obtain ⟨hr, hh⟩ := Holds.read (hau.progress.cursors hc) hhu
  refine ⟨{ u with rd := advance u.slots u.rd }, new, ?_, ?_, hrx, hh⟩
  · simp only [hostRead, hu, ok_bind]; exact hr
  · simpa using hau.trans (.still (rbRead_progress hr).1 rfl rfl rfl rfl rfl)

theorem hostPeek_arrived {s : State} {q : List Byte} {k : Nat} (hc : Cursors s) (h : Holds s q)
    (hk : k < q.length) :
    ∃ t new, hostPeek k s = .ok (q[k], t) ∧ Arrived s t 1 new ∧ t.rx = s.rx ∧
      Holds t (q ++ recordsBytes new) := by
  obtain ⟨u, new, hu, hau, hrx, hhu⟩ := notify_arrived hc h
  have hp := Holds.peek (hau.progress.cursors hc) hhu (k := k) (by simp; omega)
  refine ⟨u, new, ?_, hau, hrx, hhu⟩
  simp only [hostPeek, hu, ok_bind, hp]
  rw [List.getElem_append_left hk]

/-- A peek at any offset answers some byte and takes nothing out of the buffer. -/
theorem hostPeek_any (k : Nat) {s : State} {q : List Byte} (hc : Cursors s) (h : Holds s q) :
    ∃ v t new, hostPeek k s = .ok (v, t) ∧ Cursors t ∧ Holds t (q ++ recordsBytes new) ∧
      (Quiet s → new = [] ∧ Quiet t) := by
  obtain ⟨u, new, hu, hau, -, hhu⟩ := notify_arrived hc h
  obtain ⟨v, t, ht⟩ := rbPeek_ok k (hau.progress.cursors hc)
  refine ⟨v, t, new, by simp [hostPeek, hu, ht],
    (rbPeek_progress ht).cursors (hau.progress.cursors hc), ?_, fun hq => ?_⟩
  · obtain ⟨n, rfl, -⟩ := rbPeek_cases ht
    exact hhu
  · obtain ⟨n, rfl, -⟩ := rbPeek_cases ht
    exact ⟨(hau.quiet hq).1, (hau.quiet hq).2.1⟩

theorem hostReads_arrived {bs q : List Byte} {s : State} (hc : Cursors s) (h : Holds s (bs ++ q)) :
    ∃ t new, hostReads bs.length s = .ok (bs, t) ∧ Arrived s t bs.length new ∧ t.rx = s.rx ∧
      Holds t (q ++ recordsBytes new) := by
  induction bs generalizing s q with
  | nil => exact ⟨s, [], rfl, .setRx s s.rx, rfl, by simpa [recordsBytes] using h⟩
  | cons b bs ih =>
    obtain ⟨u, n1, hu, hau, hrx, hhu⟩ := hostRead_arrived hc (by simpa using h)
    obtain ⟨t, n2, ht, hat, hrx', hht⟩ := ih (hau.progress.cursors hc)
      (q := q ++ recordsBytes n1) (by simpa [List.append_assoc] using hhu)
    refine ⟨t, n1 ++ n2, by simp [hostReads, hu, ht], ?_, hrx'.trans hrx, ?_⟩
    · simpa [Nat.add_comm] using hau.trans hat
    · rw [recordsBytes_append, ← List.append_assoc]
      exact hht

/-- More reads than bytes, with none arriving, meet the empty buffer (U1). -/
theorem hostReads_short {q : List Byte} {n : Nat} {s : State} (hc : Cursors s) (hq : Quiet s)
    (h : Holds s q) (hn : q.length < n) : hostReads n s = .error .readEmpty := by
  induction n generalizing s q with
  | zero => omega
  | succ n ih =>
    cases q with
    | nil =>
      obtain ⟨u, new, hu, hau, -, hhu⟩ := notify_arrived hc h
      obtain ⟨rfl, -⟩ := hau.quiet hq
      have he := (holds_nil_iff (hau.progress.cursors hc)).1 hhu
      simp [hostReads, hostRead, hu, rbRead_empty he]
    | cons b q =>
      obtain ⟨u, new, hu, hau, -, hhu⟩ := hostRead_arrived hc h
      obtain ⟨rfl, hqu, -⟩ := hau.quiet hq
      simp only [recordsBytes, List.flatMap_nil, List.append_nil] at hhu
      have := ih (hau.progress.cursors hc) hqu hhu (by simpa using hn)
      simp [hostReads, hu, this]

/-- What the aggregate cannot hold, it cannot hold more of. -/
theorem aggFits_false_mono {p : Params} {n m : Nat} (h : n ≤ m) (hn : p.aggFits n = false) :
    p.aggFits m = false := by
  unfold Params.aggFits at hn ⊢
  split at hn
  · simp only [decide_eq_false_iff_not] at hn ⊢; omega
  · cases hn

/-- The payload reads of a record: all of it goes into the aggregate, or the aggregate is full. -/
theorem drainPayload_arrived {bs q : List Byte} {s : State} (hc : Cursors s)
    (h : Holds s (bs ++ q)) :
    (s.params.aggFits (s.rx.agg.length + bs.length) = false ∧
        drainPayload bs.length s = .error .aggregateFull) ∨
      ∃ t new, drainPayload bs.length s = .ok t ∧ Arrived s t bs.length new ∧
        t.rx = { s.rx with agg := s.rx.agg ++ bs } ∧ Holds t (q ++ recordsBytes new) := by
  induction bs generalizing s q with
  | nil => exact .inr ⟨s, [], rfl, .setRx s s.rx, by simp, by simpa [recordsBytes] using h⟩
  | cons b bs ih =>
    obtain ⟨u, n1, hu, hau, hrx, hhu⟩ := hostRead_arrived hc (by simpa using h)
    have hpar := hau.progress.kept.params
    by_cases hlt : u.params.aggFits (u.rx.agg.length + 1) = true
    · have hstep : drainPayload (b :: bs).length s =
          drainPayload bs.length { u with rx := { u.rx with agg := u.rx.agg ++ [b] } } := by
        simp [drainPayload, hu, hlt]
      rw [hstep]
      have hset := Arrived.setRx u { u.rx with agg := u.rx.agg ++ [b] }
      rcases ih (hset.progress.cursors (hau.progress.cursors hc))
        (s := { u with rx := { u.rx with agg := u.rx.agg ++ [b] } }) (q := q ++ recordsBytes n1)
        (by show Holds u _; simpa [List.append_assoc] using hhu) with ⟨hgt, he⟩ | ⟨t, n2, ht, hat, hrx', hht⟩
      · refine .inl ⟨?_, he⟩
        rw [← hpar, ← hrx]
        simp only [List.length_append, List.length_cons, List.length_nil] at hgt ⊢
        exact aggFits_false_mono (by omega) hgt
      · refine .inr ⟨t, n1 ++ n2, ht, ?_, ?_, ?_⟩
        · simpa [Nat.add_comm] using hau.trans (hset.trans hat)
        · rw [hrx', hrx]; simp
        · rw [recordsBytes_append, ← List.append_assoc]
          exact hht
    · refine .inl ⟨?_, by simp [drainPayload, hu, hlt]⟩
      rw [← hpar, ← hrx]
      exact aggFits_false_mono (n := u.rx.agg.length + 1)
        (by simp only [List.length_cons]; omega) (by simpa using hlt)

/-! ## One record -/

/-- What seven header bytes and the payload behind them do to the working registers (R182 to R184). -/
def absorbBytes (h p : List Byte) (w : RxWork) : RxWork :=
  { (if w.first then loadHeader h w else w) with agg := w.agg ++ p }

/-- What one record does to the working registers (R182 to R184). -/
def absorb (r : Record) (w : RxWork) : RxWork :=
  { (if w.first then
      { w with
        sender := r.sender, flag := r.flag, opcode := r.opcode, id := r.id
        size := (BitVec.ofNat 8 r.payload.length).toNat, first := false }
    else w) with agg := w.agg ++ r.payload }

theorem drainHeader_arrived {h q : List Byte} {s : State} (hc : Cursors s) (hl : h.length = 7)
    (hh : Holds s (h ++ q)) :
    ∃ t new, drainHeader s = .ok t ∧ Arrived s t 7 new ∧ t.rx = absorbBytes h [] s.rx ∧
      Holds t (q ++ recordsBytes new) := by
  obtain ⟨u, new, hu, hau, hrx, hhu⟩ := hostReads_arrived hc hh
  rw [hl] at hu hau
  by_cases hf : u.rx.first = true
  · refine ⟨{ u with rx := loadHeader h u.rx }, new,
      by simp only [drainHeader, hu, ok_bind, hf, if_true]; rfl, hau.thenRx _, ?_, hhu⟩
    rw [hrx] at hf ⊢
    simp [absorbBytes, hf, loadHeader]
  · refine ⟨u, new, by simp [drainHeader, hu, hf], hau, ?_, hhu⟩
    rw [hrx] at hf ⊢
    simp only [absorbBytes]
    rw [if_neg hf]
    simp

/-- A drain takes a prefix `l` of at least 7 and the `l` bytes behind it as one record, whatever they
mean (U4): they go into the working registers, or the aggregate is full (U8). -/
theorem drainRecord_literal {l : Byte} {h p q : List Byte} {s : State} (hc : Cursors s)
    (hl : h.length = 7) (hlp : l.toNat = 7 + p.length) (hh : Holds s (l :: (h ++ (p ++ q)))) :
    (s.params.aggFits (s.rx.agg.length + p.length) = false ∧
        drainRecord s = .error .aggregateFull) ∨
      ∃ t new, drainRecord s = .ok (h.getD 1 0, t) ∧ Arrived s t (9 + p.length) new ∧
        t.rx = absorbBytes h p s.rx ∧ Holds t (q ++ recordsBytes new) := by
  obtain ⟨u1, n1, h1, a1, x1, q1⟩ := hostPeek_arrived hc hh (k := 2) (by simp; omega)
  have c1 := a1.progress.cursors hc
  have hflag : (l :: (h ++ (p ++ q)))[2]'(by simp; omega) = h.getD 1 0 := by
    simp only [List.getElem_cons_succ]
    rw [List.getElem_append_left (by omega), List.getD_eq_getElem _ _ (by omega)]
  rw [hflag] at h1
  obtain ⟨u2, n2, h2, a2, x2, q2⟩ := hostRead_arrived c1 (b := l)
    (q := h ++ (p ++ (q ++ recordsBytes n1))) (by simpa [List.append_assoc] using q1)
  have c2 := a2.progress.cursors c1
  obtain ⟨u3, n3, h3, a3, x3, q3⟩ := drainHeader_arrived (h := h)
    (q := p ++ (q ++ recordsBytes n1 ++ recordsBytes n2)) c2 hl (by simpa [List.append_assoc] using q2)
  have c3 := a3.progress.cursors c2
  have hagg : u3.rx.agg = s.rx.agg := by rw [x3, x2, x1]; simp [absorbBytes]
  have hpar : u3.params = s.params :=
    a3.progress.kept.params.trans (a2.progress.kept.params.trans a1.progress.kept.params)
  have hunf : drainRecord s = (do
      let s ← drainPayload p.length u3
      return (h.getD 1 0, s)) := by
    simp only [drainRecord, h1, h2, h3, ok_bind, hlp, headerSize]
    rw [if_neg (by omega), Nat.add_sub_cancel_left]
  rw [hunf]
  rcases drainPayload_arrived c3 (bs := p) (q := q ++ recordsBytes n1 ++ recordsBytes n2 ++
    recordsBytes n3) (by simpa [List.append_assoc] using q3) with ⟨hgt, he⟩ | ⟨t, n4, ht, a4, x4, q4⟩
  · refine .inl ⟨by rw [← hagg, ← hpar]; exact hgt, by rw [he]; rfl⟩
  · refine .inr ⟨t, n1 ++ (n2 ++ (n3 ++ n4)), by rw [ht]; rfl, ?_, ?_, ?_⟩
    · have := a1.trans (a2.trans (a3.trans a4))
      rwa [show 1 + (1 + (7 + p.length)) = 9 + p.length by omega] at this
    · rw [x4, x3, x2, x1]
      simp [absorbBytes]
    · simpa [recordsBytes_append, List.append_assoc] using q4

/-- One record comes out of the buffer whole and goes into the working registers, or the aggregate
is full (U8). -/
theorem drainRecord_arrived {r : Record} {q : List Byte} {s : State} (hc : Cursors s)
    (hfit : r.Fits) (h : Holds s (r.bytes ++ q)) :
    (s.params.aggFits (s.rx.agg.length + r.payload.length) = false ∧
        drainRecord s = .error .aggregateFull) ∨
      ∃ t new, drainRecord s = .ok (r.flag, t) ∧ Arrived s t (9 + r.payload.length) new ∧
        t.rx = absorb r s.rx ∧ Holds t (q ++ recordsBytes new) := by
  have hlen : (BitVec.ofNat 8 (7 + r.payload.length)).toNat = 7 + r.payload.length := by
    rw [BitVec.toNat_ofNat]
    unfold Record.Fits at hfit
    omega
  have := drainRecord_literal (l := BitVec.ofNat 8 (7 + r.payload.length))
    (h := [r.sender, r.flag, r.opcode, r.id, hiByte r.cksum, loByte r.cksum,
      BitVec.ofNat 8 r.payload.length]) (p := r.payload) (q := q) hc rfl hlen
    (by simpa [Record.bytes] using h)
  simpa [absorbBytes, absorb, loadHeader] using this

/-- A length prefix below 7 stops the drain (U4): with seven bytes behind it for the prefix, without
them possibly for the empty buffer the header reads meet, and surely so when none arrive. -/
theorem drainRecord_short {l : Byte} {q : List Byte} {s : State} (hc : Cursors s)
    (hl : l.toNat < 7) (h : Holds s (l :: q)) :
    (drainRecord s = .error .shortPrefix ∨ drainRecord s = .error .readEmpty) ∧
      (7 ≤ q.length → drainRecord s = .error .shortPrefix) ∧
      (Quiet s → q.length < 7 → drainRecord s = .error .readEmpty) := by
  obtain ⟨v, u1, n1, h1, c1, q1, z1⟩ := hostPeek_any 2 hc h
  obtain ⟨u2, n2, h2, a2, -, q2⟩ := hostRead_arrived c1 (b := l) (q := q ++ recordsBytes n1)
    (by simpa using q1)
  have c2 := a2.progress.cursors c1
  have hlt : l.toNat < headerSize := hl
  have hok : ∀ u3, drainHeader u2 = .ok u3 → drainRecord s = .error .shortPrefix := fun u3 h3 => by
    simp [drainRecord, h1, h2, h3, hlt]
  have herr : ∀ r, hostReads 7 u2 = .error r → drainRecord s = .error r := fun r h3 => by
    simp [drainRecord, h1, h2, drainHeader, h3]
  refine ⟨?_, fun h7 => ?_, fun hq h7 => ?_⟩
  · cases h3 : drainHeader u2 with
    | ok u3 => exact .inl (hok u3 h3)
    | error r =>
      rcases bind_eq_error.1 h3 with h4 | ⟨_, -, h4⟩
      · have hr := hostReads_error c2 h4
        subst hr
        exact .inr (herr _ h4)
      · cases h4
  · obtain ⟨u3, -, h3, -⟩ := drainHeader_arrived (h := q.take 7)
      (q := q.drop 7 ++ recordsBytes n1 ++ recordsBytes n2) c2 (by simpa using h7) (by
        rw [List.append_assoc, ← List.append_assoc (q.take 7), List.take_append_drop,
          ← List.append_assoc]
        exact q2)
    exact hok u3 h3
  · obtain ⟨rfl, z⟩ := z1 hq
    obtain ⟨rfl, z', -⟩ := a2.quiet z
    simp only [recordsBytes, List.flatMap_nil, List.append_nil] at q2
    exact herr _ (hostReads_short c2 z' q2 h7)

/-! ## The whole drain -/

/-- What a drain of the records `rs` does to the working registers (R182 to R185). -/
def absorbAll : List Record → RxWork → RxWork
  | [], w => w
  | r :: rs, w =>
    if terminates r.flag then complete r.flag (absorb r w) else absorbAll rs (absorb r w)

@[simp] theorem drainBoundaries_nil : drainBoundaries [] = 1 := rfl

/-- A record that ends the drain: its ten calls and its payload's. -/
theorem drainBoundaries_last {r : Record} (h : terminates r.flag = true) (rs : List Record) :
    drainBoundaries (r :: rs) = 10 + r.payload.length := by
  simp [drainBoundaries, drained, hasTerminator, h]

/-- A record behind which the drain goes on. -/
theorem drainBoundaries_cons {r : Record} (h : terminates r.flag = false) (rs : List Record) :
    drainBoundaries (r :: rs) = 10 + r.payload.length + drainBoundaries rs := by
  simp [drainBoundaries, drained, hasTerminator, h, Nat.add_assoc]

/-- A drain of a buffer of whole records takes the records up to the first terminating one, the
records that arrived meanwhile standing behind those that were there (R195, R199: "exactly as if it
had arrived before the call"), or the aggregate is full (U8). -/
theorem drain_arrived {bound : Nat} {rs : List Record} {s : State} (hc : Cursors s)
    (hfit : ∀ r ∈ rs, r.Fits) (h : Holds s (recordsBytes rs)) (hb : backlog s < bound) :
    (drain bound s = .error .aggregateFull ∧
        ∃ new, new.Sublist (s.arrivals.flatten.map Record.ofRaw) ∧
          s.params.aggFits (s.rx.agg.length + (payloads (drained (rs ++ new))).length) = false) ∨
      ∃ t new, drain bound s = .ok t ∧ Arrived s t (drainBoundaries (rs ++ new)) new ∧
        t.rx = absorbAll (rs ++ new) s.rx ∧ (∀ r ∈ undrained (rs ++ new), r.Fits) ∧
        Holds t (recordsBytes (undrained (rs ++ new))) := by
  induction bound generalizing rs s with
  | zero => omega
  | succ bound ih =>
    obtain ⟨u1, n1, h1, a1, x1, q1⟩ := notify_arrived hc h
    have c1 := a1.progress.cursors hc
    rw [← recordsBytes_append] at q1
    have hfit1 : ∀ r ∈ rs ++ n1, r.Fits := fun r hr => by
      rcases List.mem_append.1 hr with hr | hr
      · exact hfit r hr
      · exact a1.fits r hr
    cases hrs : rs ++ n1 with
    | nil =>
      rw [hrs] at q1
      have he : isEmpty u1 = true := (holds_nil_iff c1).1 q1
      refine .inr ⟨u1, n1, by simp [drain, hostEmpty, h1, he], ?_, ?_, ?_, ?_⟩
      · rw [hrs]; exact a1
      · rw [hrs, x1]; rfl
      · rw [hrs]; simp [undrained]
      · rw [hrs]; exact q1
    | cons r more =>
      rw [hrs] at q1 hfit1
      have q1' : Holds u1 (r.bytes ++ recordsBytes more) := by simpa [recordsBytes] using q1
      have he : isEmpty u1 = false := by
        cases hx : isEmpty u1 with
        | false => rfl
        | true =>
          have hl := q1'.length
          rw [(isEmpty_iff_occupied c1).1 hx] at hl
          simp [Record.bytes] at hl
      have hstep : drain (bound + 1) s = (do
          let (f, s) ← drainRecord u1
          if terminates f then .ok { s with rx := complete f s.rx } else drain bound s) := by
        simp [drain, hostEmpty, h1, he]
      rw [hstep]
      rcases drainRecord_arrived c1 (hfit1 r (by simp)) q1' with
        ⟨hgt, herr⟩ | ⟨u2, n2, h2, a2, x2, q2⟩
      · refine .inl ⟨by rw [herr]; rfl, n1, a1.notified.sublist, ?_⟩
        rw [hrs]
        rw [a1.progress.kept.params, x1] at hgt
        refine aggFits_false_mono ?_ hgt
        simp only [drained]
        split <;> simp [payloads]
      · rw [h2]
        simp only [ok_bind]
        rw [← recordsBytes_append] at q2
        have a12 := a1.trans a2
        rw [← Nat.add_assoc] at a12
        by_cases ht : terminates r.flag = true
        · rw [if_pos ht]
          refine .inr ⟨_, n1 ++ n2, rfl, ?_, ?_, ?_, ?_⟩
          · rw [← List.append_assoc, hrs, List.cons_append, drainBoundaries_last ht]
            exact a12.thenRx _
          · rw [← List.append_assoc, hrs]
            simp [absorbAll, ht, x2, x1]
          · rw [← List.append_assoc, hrs]
            simp only [List.cons_append, undrained_cons, ht, if_true]
            intro r' hr'
            rcases List.mem_append.1 hr' with hr' | hr'
            · exact hfit1 r' (List.mem_cons_of_mem _ hr')
            · exact a2.fits r' hr'
          · rw [← List.append_assoc, hrs]
            simp only [List.cons_append, undrained_cons, ht, if_true]
            exact q2
        · rw [if_neg ht]
          have htf : terminates r.flag = false := by simpa using ht
          have hlt : backlog u2 < bound := by
            have := (drainRecord_progress h2).2 c1
            have := a1.progress.backlog hc
            omega
          rcases ih (a2.progress.cursors c1) (rs := more ++ n2) (fun r' hr' => by
              rcases List.mem_append.1 hr' with hr' | hr'
              · exact hfit1 r' (List.mem_cons_of_mem _ hr')
              · exact a2.fits r' hr') q2 hlt with
            ⟨herr, new, hsub, hgt⟩ | ⟨t, n3, h3, a3, x3, f3, q3⟩
          · refine .inl ⟨herr, n1 ++ n2 ++ new, ?_, ?_⟩
            · exact a12.notified.append_sublist hsub
            · rw [← List.append_assoc, ← List.append_assoc, hrs]
              rw [a2.progress.kept.params, a1.progress.kept.params, x2, x1] at hgt
              simp only [List.cons_append, drained_cons, htf, Bool.false_eq_true, if_false, payloads,
                List.flatMap_cons, List.length_append, absorb] at hgt ⊢
              exact aggFits_false_mono (by omega) hgt
          · refine .inr ⟨t, n1 ++ (n2 ++ n3), h3, ?_, ?_, ?_, ?_⟩
            · rw [← List.append_assoc, hrs, List.cons_append, drainBoundaries_cons htf,
                ← List.append_assoc]
              have := a12.trans a3
              rw [List.append_assoc n1] at this
              exact this
            · rw [x3, ← List.append_assoc, hrs, x2, x1]
              simp [absorbAll, ht]
            · rw [← List.append_assoc, hrs]
              simp only [List.cons_append, undrained_cons, ht]
              simpa [List.append_assoc] using f3
            · rw [← List.append_assoc, hrs]
              simp only [List.cons_append, undrained_cons, ht]
              simpa [List.append_assoc] using q3

end Sys2Proof.Machine
end

