-- ==== Sys2Proof/Laws/Requeue.lean ====
section
/-! SUPPORT. The end of an `EN_RECEIVE`: what it writes, and what it answers and leaves in the buffer
with notifications at any boundary (spec/43_receive.md R188 to R195, R199). -/

namespace Sys2Proof.Machine

open Sys2Proof.Config

/-- The end of an `EN_RECEIVE` writes what `Writing` allows, then delivers (R188 to R193). -/
theorem requeue_writing {s t : State} (h : requeue s = .ok t) :
    ∃ u st, Writing s u ∧ st ∈ [.rxDroppedTtl, .rxDroppedNospace, .rxRequeued] ∧ t = deliver st u := by
  unfold requeue at h
  split at h
  · cases h; exact ⟨s, _, (Progress.refl s).writing, by simp, rfl⟩
  · obtain ⟨⟨n, u⟩, h1, h⟩ := bind_eq_ok.1 h
    have p1 := (hostAvail_progress h1).1.writing
    dsimp only at h
    split at h
    · cases h; exact ⟨u, _, p1, by simp, rfl⟩
    · obtain ⟨u', h2, h⟩ := bind_eq_ok.1 h
      cases h
      exact ⟨u', _, p1.trans (hostWrites_writing h2), by simp, rfl⟩

/-- An `EN_RECEIVE` on a buffer that is not empty (R180). -/
theorem receive_writing {s t : State} (h : receive s = .ok t) :
    ∃ u st, Writing s u ∧ st ∈ [.rxComplete, .rxDroppedTtl, .rxDroppedNospace, .rxRequeued] ∧
      t = deliver st u := by
  obtain ⟨u, h1, h⟩ := bind_eq_ok.1 h
  have p1 := (drain_progress h1).trans (.setRx u (totals u.rx))
  dsimp only at h
  split at h
  · cases h; exact ⟨_, _, p1.writing, by simp, rfl⟩
  · obtain ⟨v, st, hv, hst, rfl⟩ := requeue_writing h
    exact ⟨v, st, p1.writing.trans hv, List.mem_cons_of_mem _ hst, rfl⟩

/-- A write does not look at the schedule of notifications. -/
theorem rbWrite_arrivals {b : Byte} {s t : State} {st : Status} (a : List (List (List Byte)))
    (h : rbWrite b s = .ok (st, t)) :
    rbWrite b { s with arrivals := a } = .ok (st, { t with arrivals := a }) := by
  rcases rbWrite_cases h with ⟨hf, rfl, rfl⟩ | ⟨hf, hlt, rfl, rfl⟩
  · exact rbWrite_full hf
  · have hf' : isFull { s with arrivals := a } = false := hf
    unfold rbWrite
    rw [hf']
    simp [hlt]

theorem rbWrites_arrivals {bs : List Byte} {s t : State} (a : List (List (List Byte)))
    (h : rbWrites bs s = .ok t) :
    rbWrites bs { s with arrivals := a } = .ok { t with arrivals := a } := by
  induction bs generalizing s with
  | nil => cases h; rfl
  | cons b bs ih =>
    obtain ⟨⟨st, u⟩, h1, h2⟩ := bind_eq_ok.1 h
    simp only [rbWrites, rbWrite_arrivals a h1, ok_bind]
    exact ih h2

/-- The writes of a requeue that nothing interleaves are successive writes (R195). -/
theorem hostWrites_quiet {bs : List Byte} {s t : State}
    (hq : ∀ frames ∈ s.arrivals.take bs.length, frames = []) (h : rbWrites bs s = .ok t) :
    hostWrites bs s = .ok { t with arrivals := s.arrivals.drop bs.length } := by
  induction bs generalizing s t with
  | nil =>
    cases h
    rfl
  | cons b bs ih =>
    obtain ⟨⟨st, u⟩, h1, h2⟩ := bind_eq_ok.1 h
    have hn : notify s = .ok { s with arrivals := s.arrivals.tail } := by
      cases ha : s.arrivals with
      | nil => simp [notify, ha]; rw [← ha]
      | cons frames later =>
        have : frames = [] := hq frames (by simp [ha])
        simp [notify, ha, this, ingestAll]
    have h3 := ih (s := { u with arrivals := s.arrivals.tail }) (fun frames hf => hq frames (by
      cases ha : s.arrivals with
      | nil => simp [ha] at hf
      | cons f later =>
        simp only [ha, List.tail_cons] at hf
        simp [hf])) (rbWrites_arrivals s.arrivals.tail h2)
    simp only [hostWrites, hn, ok_bind, rbWrite_arrivals s.arrivals.tail h1, h3]
    cases s.arrivals <;> simp

/-- The writes of a requeue pass one boundary each and leave the working registers alone, whatever
interleaves them. -/
theorem hostWrites_arrivals {bs : List Byte} {s t : State} (h : hostWrites bs s = .ok t) :
    t.arrivals = s.arrivals.drop bs.length ∧ t.rx = s.rx ∧ t.freeCount = s.freeCount ∧
      ∃ sts, t.ingestOut = s.ingestOut ++ sts ∧
        sts.length = (s.arrivals.take bs.length).flatten.length := by
  induction bs generalizing s with
  | nil => cases h; exact ⟨rfl, rfl, rfl, [], by simp, by simp⟩
  | cons b bs ih =>
    obtain ⟨u, h1, h⟩ := bind_eq_ok.1 h
    obtain ⟨⟨st, v⟩, h2, h⟩ := bind_eq_ok.1 h
    obtain ⟨a, r, f, sts, o, l⟩ := ih h
    obtain ⟨sts', o', l'⟩ := notify_ingestOut h1
    obtain ⟨m, w, o'', rfl⟩ := notify_frame h1
    have hk : v.arrivals = s.arrivals.drop 1 ∧ v.rx = s.rx ∧ v.freeCount = s.freeCount ∧
        v.ingestOut = s.ingestOut ++ sts' := by
      rcases rbWrite_cases h2 with ⟨-, -, rfl⟩ | ⟨-, -, -, rfl⟩ <;> exact ⟨by simp, rfl, rfl, o'⟩
    obtain ⟨k1, k2, k3, k4⟩ := hk
    refine ⟨by rw [a, k1]; simp [Nat.add_comm], r.trans k2, f.trans k3, sts' ++ sts,
      by rw [o, k4, List.append_assoc], ?_⟩
    rw [List.length_cons, Nat.add_comm bs.length, List.take_add, List.flatten_append,
      List.length_append, List.length_append, l, l', k1]

/-- The requeued record holds as many bytes as the space test counted (R189, R190). -/
theorem requeueRecord_length (w : RxWork) : (requeueRecord w).length = 8 + w.agg.length := by
  simp [requeueRecord, recordBytes, headerBytes, streamWord]
  omega

/-- The record a requeue writes is whole (R190). -/
theorem requeueRecord_eq (w : RxWork) :
    requeueRecord w = Record.bytes
      { sender := w.sender, flag := mkFlag (ttl w.flag + 1) (frag w.flag), opcode := w.opcode
        id := w.id, payload := w.agg
        cksum := ck w.sender (mkFlag (ttl w.flag + 1) (frag w.flag)) w.opcode w.id
          (BitVec.ofNat 8 w.agg.length) } := by
  simp [requeueRecord, recordBytes, headerBytes, streamWord, Record.bytes, headerSize]

/-- The end of an incomplete `EN_RECEIVE` whose drain left the buffer empty (R188 to R191, R199): with
the TTL at its maximum it is dropped at once; else `late` are the records that come at the boundary
before the space test, and the aggregate is dropped when they leave no space for it, or written behind
them. -/
theorem requeue_arrived {s : State} (hc : Cursors s) (h : Holds s []) (hz : s.rx.size = s.rx.agg.length) :
    (15 ≤ (ttl s.rx.flag).toNat ∧ requeue s = .ok (deliver .rxDroppedTtl s)) ∨
      ((ttl s.rx.flag).toNat < 15 ∧ ∃ v late, hostAvail s = .ok (freeSpace v, v) ∧
        Arrived s v 1 late ∧ v.rx = s.rx ∧ HoldsRecords v late ∧
        ((freeSpace v < s.rx.size + 8 ∧ requeue s = .ok (deliver .rxDroppedNospace v)) ∨
          (s.rx.size + 8 ≤ freeSpace v ∧ ∃ t, hostWrites (requeueRecord s.rx) v = .ok t ∧
            requeue s = .ok (deliver .rxRequeued t) ∧
            ((∀ frames ∈ v.arrivals.take (8 + s.rx.size), frames = []) →
              fifo t = ((recordsBytes late) ++ requeueRecord s.rx).map some)))) := by
  by_cases ht : 15 ≤ (ttl s.rx.flag).toNat
  · exact .inl ⟨ht, by simp [requeue, ttlMax, ht]⟩
  refine .inr ⟨by omega, ?_⟩
  obtain ⟨v, late, hv, ha, hx, hh⟩ := notify_arrived hc h
  have hcv := ha.progress.cursors hc
  have hav : hostAvail s = .ok (freeSpace v, v) := by simp [hostAvail, hv]
  refine ⟨v, late, hav, ha, hx, ⟨ha.fits, by simpa using hh⟩, ?_⟩
  have hreq : requeue s = if freeSpace v < s.rx.size + 8 then .ok (deliver .rxDroppedNospace v)
      else do
        let t ← hostWrites (requeueRecord s.rx) v
        return deliver .rxRequeued t := by
    simp only [requeue, ttlMax, ht, hav, hx, headerSize, ok_bind, if_false]
  by_cases hf : freeSpace v < s.rx.size + 8
  · exact .inl ⟨hf, by rw [hreq, if_pos hf]⟩
  · obtain ⟨t, ht'⟩ := hostWrites_ok (requeueRecord s.rx) hcv
    refine .inr ⟨by omega, t, ht', by rw [hreq, if_neg hf, ht']; rfl, fun hq => ?_⟩
    have hl := requeueRecord_length s.rx
    obtain ⟨t', hw, -, hft⟩ := rbWrites_fifo (bs := requeueRecord s.rx) hcv (by omega)
    have := hostWrites_quiet (bs := requeueRecord s.rx) (s := v) (by rw [hl, ← hz]; exact hq) hw
    rw [ht'] at this
    cases this
    show fifo t' = _
    unfold Holds at hh
    rw [hft, hh]
    simp

end Sys2Proof.Machine
end

