-- ==== Sys2Proof/Laws/Receiving.lean ====
section
/-! SUPPORT. What an `EN_RECEIVE` on a buffer of whole records gathers, said once: the working registers
after the drain are the document-level result (spec/43_receive.md R182 to R187, R193, R195). -/

namespace Sys2Proof.Machine

open Sys2Proof.Config

/-! ## Queues of records -/

/-- Without a terminating record a drain takes all of the queue. -/
theorem drained_of_no_terminator {rs : List Record} (h : hasTerminator rs = false) :
    drained rs = rs ∧ undrained rs = [] := by
  induction rs with
  | nil => exact ⟨rfl, rfl⟩
  | cons r rs ih =>
    rw [hasTerminator_cons, Bool.or_eq_false_iff] at h
    obtain ⟨h1, h2⟩ := ih h.2
    simp [drained_cons, undrained_cons, h.1, h1, h2]

theorem drained_ne_nil {rs : List Record} (h : hasTerminator rs = true) : drained rs ≠ [] := by
  cases rs with
  | nil => simp [hasTerminator] at h
  | cons r rs =>
    simp only [drained]
    split <;> simp

theorem payloads_drained_le (rs : List Record) :
    (payloads (drained rs)).length ≤ (payloads rs).length := by
  induction rs with
  | nil => exact Nat.le_refl _
  | cons r rs ih =>
    simp only [drained]
    split
    · simp [payloads]
    · simp only [payloads, List.flatMap_cons, List.length_append] at ih ⊢
      omega

theorem recordsBytes_length (rs : List Record) :
    (recordsBytes rs).length = 8 * rs.length + (payloads rs).length := by
  induction rs with
  | nil => rfl
  | cons r rs ih =>
    simp only [recordsBytes, payloads, List.flatMap_cons, List.length_append, recordBytes_length,
      List.length_cons] at ih ⊢
    omega

/-- Whole records that are all in the buffer at once (R196). -/
theorem HoldsRecords.length_lt {s : State} {rs : List Record} (hc : Cursors s)
    (h : HoldsRecords s rs) : 8 * rs.length + (payloads rs).length < s.slots.toNat := by
  have := h.2.length
  have := occupied_lt hc
  have := recordsBytes_length rs
  omega

/-- Every aggregate of an uninterrupted drain fits (R10, R196). -/
theorem aggFits_of_le {p : Params} (hp : p.Ok) {n : Nat} (hn : n ≤ 246) : p.aggFits n = true := by
  unfold Params.aggFits
  split
  · next m hm =>
    have := hp.2.2.2.2 m hm
    simp
    omega
  · rfl

/-! ## The working registers after a drain -/

/-- Records behind the first give their payloads and, at the end, their fragmentation state. -/
theorem absorbAll_later {rs : List Record} {w : RxWork} (hf : w.first = false) :
    absorbAll rs w =
      { w with
        agg := w.agg ++ payloads (drained rs)
        complete := w.complete || hasTerminator rs
        flag :=
          if hasTerminator rs then
            match (drained rs).getLast? with
            | some l => if frag l.flag = endFragment then forceEnd w.flag else w.flag
            | none => w.flag
          else w.flag } := by
  induction rs generalizing w with
  | nil => simp [absorbAll, drained, payloads, hasTerminator]
  | cons r rs ih =>
    by_cases ht : terminates r.flag = true
    · simp [absorbAll, ht, drained, payloads, hasTerminator, absorb, hf, complete]
    · have ht' : terminates r.flag = false := by simpa using ht
      simp only [absorbAll, ht', Bool.false_eq_true, if_false]
      rw [ih (by simp [absorb, hf])]
      simp only [absorb, hf, drained_cons, ht', payloads, hasTerminator_cons, Bool.false_or,
        List.flatMap_cons, Bool.false_eq_true, if_false, List.append_assoc]
      congr 1
      split
      · next hany =>
        obtain ⟨a, l, hal⟩ := List.exists_cons_of_ne_nil (drained_ne_nil (rs := rs) hany)
        rw [hal, List.getLast?_cons_cons]
      · rfl

/-- The working registers after a drain and R187 are the result of R195. -/
theorem absorbAll_start (first : Record) (rs : List Record) :
    (totals (absorbAll (first :: rs) .start)).message = resultMessage first (first :: rs) ∧
      (totals (absorbAll (first :: rs) .start)).complete = hasTerminator (first :: rs) := by
  by_cases ht : terminates first.flag = true
  · simp [absorbAll, ht, drained, payloads, hasTerminator, absorb, RxWork.start, complete, totals,
      RxWork.message, resultMessage, resultFlag_eq]
  · have ht' : terminates first.flag = false := by simpa using ht
    have hall : hasTerminator (first :: rs) = hasTerminator rs := by simp [ht']
    have hdr : drained (first :: rs) = first :: drained rs := by simp [drained_cons, ht']
    have : absorbAll (first :: rs) .start = absorbAll rs (absorb first .start) := by
      simp [absorbAll, ht']
    rw [this, absorbAll_later (by simp [absorb, RxWork.start])]
    cases hh : hasTerminator rs with
    | true =>
      obtain ⟨a, l, hal⟩ := List.exists_cons_of_ne_nil (drained_ne_nil hh)
      simp only [totals, RxWork.message, resultMessage, hall, hh, if_true, resultFlag_eq, hdr, absorb,
        RxWork.start, payloads, List.flatMap_cons, hal, List.getLast?_cons_cons, List.nil_append,
        Bool.or_true, and_true] <;> rfl
    | false =>
      simp [totals, RxWork.message, resultMessage, hall, hh, hdr, absorb, RxWork.start, payloads]

/-- `EN_RECEIVE` up to the end of its drain: the aggregate is full (U8), or `u` is the state at the end
of the drain, `new` the records that came during it, and what is left of the call depends on `u` only. -/
theorem receive_drained {s : State} {first : Record} {rs : List Record} (hc : Cursors s)
    (h : HoldsRecords s (first :: rs)) (hrx : s.rx = .start) :
    (exec .enReceive s = .fault .aggregateFull ∧
        ∃ new, new.Sublist (s.arrivals.flatten.map Record.ofRaw) ∧
          s.params.aggFits (payloads (drained (first :: rs ++ new))).length = false) ∨
      ∃ u new, drainEnd s = some u ∧ Arrived s u (drainBoundaries (first :: rs ++ new)) new ∧
        HoldsRecords u (undrained (first :: rs ++ new)) ∧
        u.rx.message = resultMessage first (first :: rs ++ new) ∧
        u.rx.complete = hasTerminator (first :: rs ++ new) ∧
        exec .enReceive s =
          finish (if u.rx.complete then .ok (deliver .rxComplete u) else requeue u) := by
  have he : isEmpty s = false := by
    cases hx : isEmpty s with
    | false => rfl
    | true =>
      have := h.2.length
      rw [(isEmpty_iff_occupied hc).1 hx] at this
      simp [recordsBytes, Record.bytes] at this
  have hs : { s with rx := RxWork.start } = s := by rw [← hrx]
  rcases drain_arrived (bound := drainBudget s) hc h.1 h.2 (Nat.lt_succ_self _) with
    ⟨h1, new, h2, h3⟩ | ⟨t, new, ht, ha, hx, hf, hh⟩
  · refine .inl ⟨?_, new, h2, ?_⟩
    · simp only [exec, execEnReceive, hs, he, receive, h1]; rfl
    · rw [hrx] at h3; simpa [RxWork.start] using h3
  · rw [hrx, List.cons_append] at hx
    obtain ⟨m1, m2⟩ := absorbAll_start first (rs ++ new)
    refine .inr ⟨{ t with rx := totals t.rx }, new, ?_, ha.thenRx _, ⟨hf, hh⟩, ?_, ?_, ?_⟩
    · simp only [drainEnd, hs, he, ht]; rfl
    · show (totals t.rx).message = _
      rw [hx]; exact m1
    · show (totals t.rx).complete = _
      rw [hx]; exact m2
    · simp only [exec, execEnReceive, hs, he, receive, ht, ok_bind]; rfl

end Sys2Proof.Machine
end

