-- ==== Sys2Proof/Laws/Sending.lean ====
section
/-! SUPPORT. `ingest` depends on the ring buffer alone, and the loop of `EN_SEND` said once
(spec/20_memory.md R61, R62; spec/42_send.md R160 to R166). -/

namespace Sys2Proof.Machine

open Sys2Proof.Config

/-! ## What a write and an `ingest` depend on -/

/-- The same ring buffer, whatever the rest of the state. -/
structure SameRing (s s' : State) : Prop where
  store : s'.store = s.store
  slots : s'.slots = s.slots
  rd : s'.rd = s.rd
  wr : s'.wr = s.wr

/-- A write does the same to the same ring buffer. -/
theorem rbWrite_transport {b : Byte} {s s' t : State} {st : Status}
    (h : rbWrite b s = .ok (st, t)) (hs : SameRing s s') :
    rbWrite b s' = .ok (st, { s' with store := t.store, wr := t.wr }) := by
  obtain ⟨h1, h2, h3, h4⟩ := hs
  cases s'; simp only at h1 h2 h3 h4; subst h1 h2 h3 h4
  rcases rbWrite_cases h with ⟨hf, rfl, rfl⟩ | ⟨hf, hlt, rfl, rfl⟩
  · exact rbWrite_full hf
  · unfold rbWrite
    split
    · next hx => exact absurd (show isFull s = true from hx) (by simp [hf])
    · simp

theorem rbWrites_transport {bs : List Byte} {s s' t : State} (h : rbWrites bs s = .ok t)
    (hs : SameRing s s') : rbWrites bs s' = .ok { s' with store := t.store, wr := t.wr } := by
  induction bs generalizing s s' with
  | nil => cases h; simp only [rbWrites]; rw [← hs.store, ← hs.wr]
  | cons b bs ih =>
    obtain ⟨⟨st, u⟩, h1, h2⟩ := bind_eq_ok.1 h
    have e := rbWrite_transport h1 hs
    have : SameRing u { s' with store := u.store, wr := u.wr } := by
      rcases rbWrite_cases h1 with ⟨-, -, rfl⟩ | ⟨-, -, -, rfl⟩ <;> exact ⟨rfl, hs.2, hs.3, rfl⟩
    simp only [rbWrites, e, ok_bind, ih h2 this]

/-- `EN_INGEST` does the same to the same ring buffer (R61). -/
theorem ingest_transport {raw : List Byte} {s s' t : State} {st : Status}
    (h : ingest raw s = .ok (st, t)) (hs : SameRing s s') :
    ingest raw s' = .ok (st, { s' with store := t.store, wr := t.wr }) := by
  have hf : freeSpace s' = freeSpace s := by simp only [freeSpace, occupied, hs.2, hs.3, hs.4]
  obtain ⟨rfl, ⟨hne, rfl⟩ | ⟨ha, h1⟩⟩ := ingest_cases h
  · unfold ingest
    rw [hf]
    split
    · next hx => exact absurd hx hne
    · rw [← hs.1, ← hs.4]
  · unfold ingest
    rw [hf]
    simp only [ha, rbWrites_transport h1 hs, ok_bind]
    rfl

theorem ingestAll_transport {frames : List (List Byte)} {s s' t : State}
    (h : ingestAll frames s = .ok t) (hs : SameRing s s') (ho : s'.ingestOut = s.ingestOut) :
    ingestAll frames s' =
      .ok { s' with store := t.store, wr := t.wr, ingestOut := t.ingestOut } := by
  induction frames generalizing s s' with
  | nil => cases h; simp only [ingestAll]; rw [← hs.store, ← hs.wr, ← ho]
  | cons raw more ih =>
    obtain ⟨⟨st, u⟩, h1, h2⟩ := bind_eq_ok.1 h
    have e := ingest_transport h1 hs
    obtain ⟨m, w, rfl⟩ := ingest_frame h1
    simp only [ingestAll, e, ok_bind]
    exact ih h2 ⟨rfl, hs.2, hs.3, rfl⟩ (by simp [ho])

theorem ingestAll_append {a b : List (List Byte)} {s : State} :
    ingestAll (a ++ b) s = (ingestAll a s >>= ingestAll b) := by
  induction a generalizing s with
  | nil => rfl
  | cons x a ih =>
    simp only [List.cons_append, ingestAll]
    cases ingest x s with
    | error r => rfl
    | ok p => simp only [ok_bind]; rw [ih]

/-! ## `EN_SEND` -/

/-- `BusTransmit`: the frame goes out and the next answer is drawn (R236). -/
theorem busTransmit_eq (dest : Addr7) (frame : List Byte) (s : State) :
    busTransmit dest frame s = (nthAnswer s 0, { s with
      busOut := s.busOut ++ [(dest, frame)], busIn := s.busIn.drop 1
      freeCount := s.freeCount + (1 - s.busIn.length) }) := by
  unfold busTransmit nthAnswer
  cases s.busIn <;> simp

/-- The state after one pass of the loop of R160. -/
def fragmentSent (dest : Addr7) (opcode : Byte) (payload : List Byte) (s : State) : State :=
  { s with
    busOut := s.busOut ++ [(dest, sendFrame opcode payload s)], busIn := s.busIn.drop 1
    freeCount := s.freeCount + (1 - s.busIn.length)
    tx := { s.tx with
      frame := sendFrame opcode payload s, last := nthAnswer s 0, ok := nthAnswer s 0 = .ok
      off := s.tx.off + min s.params.maxChunk (payload.length - s.tx.off), k := s.tx.k + 1 } }

theorem sendFragment_eq (dest : Addr7) (opcode : Byte) (payload : List Byte) (s : State) :
    sendFragment dest opcode payload s = fragmentSent dest opcode payload s := by
  simp only [sendFragment, busTransmit_eq]
  rfl

theorem maxChunk_bounds {p : Params} (h : p.Ok) : 1 ≤ p.maxChunk ∧ p.maxChunk ≤ 245 := by
  obtain ⟨h1, h2, h3, -⟩ := h
  simp only [Params.maxChunk, headerSize]
  omega

theorem fragmentCount_pos {n m : Nat} (hm : 1 ≤ m) : 1 ≤ fragmentCount n m := by
  unfold fragmentCount
  split
  · exact Nat.le_refl _
  · exact (Nat.le_div_iff_mul_le hm).2 (by omega)

/-- Every fragment but that of an empty payload starts inside the payload. -/
theorem lt_fragmentCount {n m k : Nat} (hm : 1 ≤ m) (hk : k < fragmentCount n m) :
    k * m ≤ n ∧ (n ≠ 0 → k * m < n) := by
  unfold fragmentCount at hk
  split at hk
  · have : k = 0 := by omega
    subst this
    simp
    omega
  · have := (Nat.le_div_iff_mul_le hm).1 (show k + 1 ≤ _ from hk)
    rw [Nat.succ_mul] at this
    omega

/-- The answer to the `k`-th transmission is the first one still to come after `k` of them. -/
theorem nthAnswer_shift {s0 s : State} {k : Nat} (h1 : s.busIn = s0.busIn.drop k)
    (h2 : s.freeCount = s0.freeCount + (k - s0.busIn.length)) : nthAnswer s 0 = nthAnswer s0 k := by
  unfold nthAnswer
  rw [h1, h2]
  simp only [List.getD_eq_getElem?_getD, List.getElem?_drop, List.length_drop, Nat.add_zero,
    Nat.zero_sub]

/-- A pass of the loop changes the sequencer's registers and the bus's streams only. -/
theorem sendFragment_frame (dest : Addr7) (opcode : Byte) (payload : List Byte) (s : State) :
    ∃ x bi bo n, sendFragment dest opcode payload s =
      { s with tx := x, busIn := bi, busOut := bo, freeCount := n } := by
  rw [sendFragment_eq]
  exact ⟨_, _, _, _, rfl⟩

/-- The loop of `EN_SEND`: beside that, only what the notifications do; nothing of it when none is
scheduled (R166, R171). -/
theorem sendLoop_frame {dest : Addr7} {opcode : Byte} {payload : List Byte} {n : Nat} {s t : State}
    (h : sendLoop dest opcode payload n s = .ok t) :
    ∃ m w o a x bi bo f, t = { s with
        store := m, wr := w, ingestOut := o, arrivals := a, tx := x, busIn := bi, busOut := bo
        freeCount := f } ∧
      (Quiet s → m = s.store ∧ w = s.wr ∧ o = s.ingestOut ∧ Quiet t) := by
  induction n generalizing s with
  | zero => cases h; exact ⟨_, _, _, _, _, _, _, _, rfl, fun h => ⟨rfl, rfl, rfl, h⟩⟩
  | succ n ih =>
    obtain ⟨u, h1, h2⟩ := bind_eq_ok.1 h
    obtain ⟨x, bi, bo, f, he⟩ := sendFragment_frame dest opcode payload s
    rw [he] at h1
    obtain ⟨m, w, o, hu⟩ := notify_frame h1
    obtain ⟨m', w', o', a', x', bi', bo', f', rfl, hq⟩ := ih h2
    refine ⟨m', w', o', a', x', bi', bo', f', by rw [hu], fun h => ?_⟩
    obtain ⟨e1, e2⟩ := notify_quiet
      (s := { s with tx := x, busIn := bi, busOut := bo, freeCount := f }) h
    rw [h1] at e1
    cases e1
    exact hq e2

/-- The loop of `EN_SEND` never stops under the cursor invariant. -/
theorem sendLoop_ok (dest : Addr7) (opcode : Byte) (payload : List Byte) (n : Nat) {s : State}
    (hc : Cursors s) : ∃ t, sendLoop dest opcode payload n s = .ok t ∧ Cursors t := by
  induction n generalizing s with
  | zero => exact ⟨_, rfl, hc⟩
  | succ n ih =>
    obtain ⟨x, bi, bo, f, he⟩ := sendFragment_frame dest opcode payload s
    obtain ⟨u, -, hu, hcu, -⟩ := notify_ok (s := sendFragment dest opcode payload s) (by rw [he]; exact hc)
    obtain ⟨t, ht, hct⟩ := ih hcu
    exact ⟨t, by simp [sendLoop, hu, ht], hct⟩

end Sys2Proof.Machine
end

