-- ==== Sys2Proof/Tests/Slice0.lean ====
section
/-! SUPPORT. The model's own tests.  Expected values come from spec/95_test_vectors.md or are worked
by hand from the encoding tables of spec/30_encoding.md. -/

namespace Sys2Proof.Tests

set_option Elab.async false

open Sys2Proof.Machine Sys2Proof.Config

/-! ## Helpers -/

/-- Reset with a given `RB_CAPACITY` and the other parameters at their defaults. -/
def resetCap (cap : Nat) : State := .resetWith ⟨32, cap, some 246⟩

/-- The state after an operation, or reset when it stopped. -/
def after (i : Instr) (s : State) : State :=
  match exec i s with
  | .next t => t
  | .fault _ => .reset
  | .refused _ => .reset

/-- Its ring buffer registers and the byte queue. -/
def ring (s : State) : Nat × Nat × List (Option Byte) := (s.rd.toNat, s.wr.toNat, fifo s)

/-- The stored bytes of a list. -/
def stored (bs : List Byte) : List (Option Byte) := bs.map some

/-- The fault an operation stops with. -/
def faultOf (i : Instr) (s : State) : Option Fault :=
  match exec i s with
  | .fault r => some r
  | .next _ => none
  | .refused _ => none

/-- Frame F0 of 95_test_vectors.md. -/
def f0 : List Byte := [0x09, 0x01, 0x10, 0x03, 0xF0, 0xEC, 0x05, 0x01, 0x02, 0x03, 0x04, 0x05]

/-- Frame F1 of 95_test_vectors.md. -/
def f1 : List Byte := [0x09, 0x02, 0x10, 0x03, 0xF2, 0xEC, 0x02, 0x06, 0x07, 0x00, 0x00, 0x00]

/-- Frame X of 95_test_vectors.md. -/
def frameX : List Byte := [0x04, 0x00, 0x33, 0x00, 0xFA, 0xCC, 0x01, 0xEE]

/-! ## WellFormed refuses an ill-formed term -/

theorem test_wf_refuses_long_raw : (Instr.enIngest (List.replicate 65536 0)).wf = false := by
  show decide ((List.replicate 65536 (0 : Byte)).length < 65536) = false
  rw [List.length_replicate]
  decide

theorem test_wf_refuses_long_payload :
    (Instr.enSend 5 2 (List.replicate 65536 0)).wf = false := by
  show decide ((List.replicate 65536 (0 : Byte)).length < 65536) = false
  rw [List.length_replicate]
  decide

theorem test_wf_accepts : (Instr.enSend 5 2 [1, 2]).wf = true := by decide

/-! ## Decoding: the words of 95_test_vectors.md section 8 -/

theorem test_decode_rbInit : decode [0x00, 0x04] = .request (.rbInit 4) [] := by decide
theorem test_decode_rbWrite : decode [0x10, 0x41] = .request (.rbWrite 0x41) [] := by decide
theorem test_decode_rbRead : decode [0x20, 0x00] = .request .rbRead [] := by decide
theorem test_decode_rbPeek : decode [0x30, 0x02] = .request (.rbPeek 2) [] := by decide
theorem test_decode_rbEmpty : decode [0x40, 0x00] = .request .rbEmpty [] := by decide
theorem test_decode_rbAvail : decode [0x50, 0x00, 0x10] = .request .rbAvail [0x10] := by decide
theorem test_decode_enIngest :
    decode [0x80, 0x00, 0x00, 0x04, 0x09, 0x01, 0x10, 0x03] =
      .request (.enIngest [0x09, 0x01, 0x10, 0x03]) [] := by decide
theorem test_decode_enSend :
    decode [0x90, 0x20, 0x10, 0x00, 0x07, 1, 2, 3, 4, 5, 6, 7] =
      .request (.enSend 0x20 0x10 [1, 2, 3, 4, 5, 6, 7]) [] := by decide
theorem test_decode_enReceive : decode [0xA0, 0x00] = .request .enReceive [] := by decide
theorem test_decode_enPending : decode [0xB0, 0x00] = .request .enPending [] := by decide
theorem test_decode_enCksum :
    decode [0xC0, 0x00, 5, 2, 2, 0, 0x19] = .request (.enCksum 5 2 2 0 25) [] := by decide
theorem test_decode_enSetaddr : decode [0xD0, 0x05] = .request (.enSetaddr 5) [] := by decide

/-- V-DC-13. -/
theorem test_decode_reserved :
    decode [0x60, 0x00] = .illegal .reservedOp [] ∧ decode [0x70, 0x00] = .illegal .reservedOp [] ∧
      decode [0xE0, 0x00] = .illegal .reservedOp [] := by decide

/-- V-DC-14: no operand is consumed. -/
theorem test_decode_immediate :
    decode [0x20, 0x01] = .illegal .immediateSet [] ∧
      decode [0x80, 0x10, 0x00, 0x00] = .illegal .immediateSet [0x00, 0x00] ∧
      decode [0xC0, 0x05] = .illegal .immediateSet [] := by decide

/-- V-DC-15. -/
theorem test_decode_zeroField :
    decode [0x11, 0x41] = .illegal .zeroFieldSet [] ∧
      decode [0x21, 0x00] = .illegal .zeroFieldSet [] := by decide

/-- V-DC-16. -/
theorem test_decode_address :
    decode [0x90, 0x80] = .illegal .addressAbove127 [] ∧
      decode [0xD0, 0x80] = .illegal .addressAbove127 [] := by decide

theorem test_decode_short :
    decode [0xC0, 0x00, 1, 2, 3, 4] = .noOperands ∧ decode [0xC0] = .noWord := by decide

theorem test_table_words :
    decodeTableWord 16 0x9005 = some (.enSend 5 0 []) ∧
      decodeTableWord 16 0xC000 = some (.enCksum 0 0 0 0 0) ∧
      decodeTableWord 16 0x8000 = some (.enIngest []) := by decide

/-! ## Ring buffer -/

/-- The state of V-RB-1 after its first six writes and two reads. -/
def rb1 : State :=
  { resetCap 4 with store := [(0, 1), (1, 2), (2, 3), (3, 4)], rd := 2, wr := 4 }

/-- V-RB-3. -/
theorem test_rbInit_clamps : (after (.rbInit 255) rb1).slots = 255 := by decide

theorem test_rbInit_empties : ring (after (.rbInit 2) rb1) = (0, 0, []) := by decide

/-- V-RB-1: the write that wraps. -/
theorem test_rbWrite_wraps : ring (after (.rbWrite 6) rb1) = (2, 0, stored [3, 4, 6]) := by decide

/-- V-RB-1: the write after the next is refused with no state change. -/
theorem test_rbWrite_full :
    after (.rbWrite 8) (after (.rbWrite 7) (after (.rbWrite 6) rb1)) =
      { after (.rbWrite 7) (after (.rbWrite 6) rb1) with hostOut := [0, 0, 1] } := by decide

theorem test_rbRead : (after .rbRead rb1).hostOut = [0, 3] ∧ (after .rbRead rb1).rd = 3 := by decide

/-- V-RB-7. -/
theorem test_rbRead_empty : faultOf .rbRead (resetCap 4) = some .readEmpty := by decide

/-- The state of V-RB-5. -/
def rb5 : State :=
  { resetCap 4 with store := [(0, 0x0C), (1, 2), (2, 3), (3, 0x0A), (4, 0x0B)], rd := 3, wr := 1 }

/-- V-RB-5: the sum is not cut to 8 bits. -/
theorem test_rbPeek_255 : (after (.rbPeek 255) rb5).hostOut = [0, 0x0A] := by decide

theorem test_rbPeek_2 : (after (.rbPeek 2) rb5).hostOut = [0, 0x0C] := by decide

theorem test_rbEmpty : (after .rbEmpty (resetCap 4)).hostOut = [0, 1] := by decide

theorem test_rbAvail : (after .rbAvail rb1).hostOut = [0, 2] := by decide

/-! ## EN_INGEST -/

/-- V-IN-22: the record straddles the end of storage. -/
theorem test_ingest_straddles :
    ring (after (.enIngest f0) { resetCap 20 with rd := 15, wr := 15 }) =
      (15, 7, stored [0x0C, 9, 1, 0x10, 3, 0xF0, 0xEC, 5, 1, 2, 3, 4, 5]) := by decide +kernel

/-- V-IN-21: truncated is tested before no space. -/
theorem test_ingest_truncated :
    (after (.enIngest [0x09, 0x00, 0x10, 0x03, 0xFC, 0xEC, 0xFA, 0x00]) (resetCap 40)).hostOut =
      [5] := by decide

/-! ## EN_SEND and EN_SETADDR -/

/-- The start state of V-SD-6, with the statuses of V-SD-8. -/
def sd8 : State :=
  { State.resetWith ⟨12, 254, some 246⟩ with ownAddr := 9, msgId := 3, busIn := [.ok, .dataNack] }

/-- V-SD-6: the two frames. -/
theorem test_send_frames :
    (after (.enSend 0x20 0x10 [1, 2, 3, 4, 5, 6, 7]) sd8).busOut = [(0x20, f0), (0x20, f1)] := by
  decide +kernel

/-- V-SD-8: the last fragment's status, and the increment. -/
theorem test_send_status :
    (after (.enSend 0x20 0x10 [1, 2, 3, 4, 5, 6, 7]) sd8).hostOut = [7, 3] ∧
      (after (.enSend 0x20 0x10 [1, 2, 3, 4, 5, 6, 7]) sd8).msgId = 4 := by decide +kernel

theorem test_setaddr : (after (.enSetaddr 127) .reset).ownAddr = 127 := by decide

/-! ## EN_RECEIVE and EN_PENDING -/

/-- The buffer of V-RX-2: one record, frame F0. -/
def rx2 : State := after (.enIngest f0) (resetCap 40)

/-- V-RX-2: requeued with TTL 1. -/
theorem test_receive_requeues :
    ring (after .enReceive rx2) =
      (13, 26, stored [0x0C, 9, 0x11, 0x10, 3, 0xE0, 0xEC, 5, 1, 2, 3, 4, 5]) := by decide +kernel

/-- V-RX-3: the flag of a message that had aged, `0x11` forced to `END` with its TTL kept. -/
theorem test_receive_forces_end :
    ((after .enReceive (after (.enIngest f1) (after .enReceive rx2))).hostOut.drop 17).take 7 =
      [0x09, 9, 0x12, 0x10, 3, 0xDD, 0xEC] := by decide +kernel

/-- The requeue of P4 with frame X arriving before its eleventh write: the 28th boundary inside the
operation (step a1 and 27 steps come before). -/
def p4 : State := { rx2 with arrivals := List.replicate 27 [] ++ [[frameX]] }

/-- P4 (hazard H2): the ingested record lands inside the requeued one. -/
theorem test_receive_interleaved :
    fifo (after .enReceive p4) = stored [0x0C, 9, 0x11, 0x10, 3, 0xE0, 0xEC, 5, 1, 2, 8, 4, 0,
      0x33, 0, 0xFA, 0xCC, 1, 0xEE, 3, 4, 5] := by decide +kernel

/-- P5 and its variant (i): frame X at the boundary between the last a2 and a8 (hazard H1). -/
def p5 (cap : Nat) : State :=
  { after (.enIngest f0) (resetCap cap) with arrivals := List.replicate 16 [] ++ [[frameX]] }

/-- P5: X stands before the requeued record. -/
theorem test_receive_requeues_behind :
    ring (after .enReceive (p5 40)) = (13, 35, stored [8, 4, 0, 0x33, 0, 0xFA, 0xCC, 1, 0xEE,
      0x0C, 9, 0x11, 0x10, 3, 0xE0, 0xEC, 5, 1, 2, 3, 4, 5]) := by decide +kernel

/-- P5 variant (i): dropped with the partial payload, X alone is left. -/
theorem test_receive_drops_nospace :
    (after .enReceive (p5 20)).hostOut =
        [0, 0x0C, 9, 1, 0x10, 3, 0xF0, 0xEC, 0, 5, 0, 1, 2, 3, 4, 5] ∧
      ring (after .enReceive (p5 20)) = (13, 1, stored [8, 4, 0, 0x33, 0, 0xFA, 0xCC, 1, 0xEE]) := by
  decide +kernel

theorem test_pending : (after .enPending rx2).hostOut = [0, 0, 1] := by decide +kernel

/-! ## EN_CKSUM -/

/-- V-CK-5: bit 8 of flag + length is lost, opcode + id carries. -/
theorem test_cksum : (after (.enCksum 0x7F 0xF3 0xFF 0xFF 0xFF) .reset).hostOut =
    [0, 0x8D, 0x01] := by decide

/-! ## A step -/

/-- An illegal word answers `ST_ILLEGAL` and is passed over (V-DC-13). -/
theorem test_step_illegal :
    step { State.reset with hostIn := [0x60, 0x00, 0xD0, 0x05] } =
      .next { State.reset with hostIn := [0xD0, 0x05], hostOut := [0x0F] } := by rfl

/-! ## Witnesses: states and operands that meet the hypotheses of the statements

Each theorem is named after the statement it serves. -/

/-- The operation answers a next state. -/
def runs (i : Instr) (s : State) : Bool :=
  match exec i s with
  | .next _ => true
  | .fault _ => false
  | .refused _ => false

theorem after_of_runs {i : Instr} {s : State} (h : runs i s = true) : exec i s = .next (after i s) := by
  unfold runs at h
  unfold after
  split at h <;> simp_all

/-- The state after a step, or reset when it stopped. -/
def stepped (s : State) : State :=
  match step s with
  | .next t => t
  | .fault _ => .reset
  | .refused _ => .reset

/-- The step answers a next state. -/
def steps (s : State) : Bool :=
  match step s with
  | .next _ => true
  | .fault _ => false
  | .refused _ => false

theorem stepped_of_steps {s : State} (h : steps s = true) : step s = .next (stepped s) := by
  unfold steps at h
  unfold stepped
  split at h <;> simp_all

theorem inv_of {s : State} (h : s.params.Ok ∧ Cursors s ∧ s.ownAddr.toNat < 128 ∧
    Memory.wf s.store ∧ FramesFit s) : Inv s := ⟨h.1, h.2.1, h.2.2.1, h.2.2.2.1, h.2.2.2.2⟩

theorem rb1_inv : Inv rb1 := inv_of (by decide)
theorem rb1_holds : Holds rb1 [3, 4] := by show fifo rb1 = _; decide
theorem rx2_inv : Inv rx2 := inv_of (by decide +kernel)
theorem rx2_quiet : Quiet rx2 := by show ∀ f ∈ rx2.arrivals, f = []; decide +kernel

/-- The record of frame F0. -/
def rec0 : Record := .ofRaw f0

theorem rx2_records : HoldsRecords rx2 [rec0] :=
  ⟨by decide +kernel, by show fifo rx2 = _; decide +kernel⟩

/-! ### Encoding and steps -/

theorem test_witness_DecodeOfEncode :
    (Instr.enSend 127 2 [1]).wf = true ∧ (Instr.enIngest []).wf = true ∧ Instr.enReceive.wf = true := by
  decide

theorem test_witness_EncodeOfDecode :
    decode [0x80, 0x00, 0x00, 0x01, 0xAB, 0x20] = .request (.enIngest [0xAB]) [0x20] := by decide

theorem test_witness_IllegalWords :
    decodeWord 0x6000 [1] = .illegal .reservedOp [1] ∧ decodeWord 0x0100 [] = .illegal .zeroFieldSet [] ∧
    decodeWord 0xA001 [] = .illegal .immediateSet [] ∧
    decodeWord 0x9080 [] = .illegal .addressAbove127 [] ∧ decodeWord 0xD07F [] = .request (.enSetaddr 127) [] ∧
    notify { State.reset with hostIn := [0x60, 0x00] } = .ok { State.reset with hostIn := [0x60, 0x00] } := by
  refine ⟨?_, ?_, ?_, ?_, ?_, rfl⟩ <;> decide

theorem test_witness_StepRunsDecodedRequest :
    notify { rb1 with hostIn := [0x20, 0x00, 0x40] } = .ok { rb1 with hostIn := [0x20, 0x00, 0x40] } ∧
      decode [0x20, 0x00, 0x40] = .request .rbRead [0x40] := ⟨rfl, by decide⟩

theorem test_witness_StepIdlesOnIncompleteRequest :
    notify { rb1 with hostIn := [0x20] } = .ok { rb1 with hostIn := [0x20] } ∧
      decode [0x20] = .noWord ∧ decode [0x80, 0x00, 0x00] = .noOperands := ⟨rfl, by decide, by decide⟩

theorem test_witness_StepStopsOnlyForUndefinedPoints :
    Inv rb1 ∧ runs .rbRead rb1 = true ∧ Inv (resetCap 4) ∧ faultOf .rbRead (resetCap 4) = some .readEmpty :=
  ⟨rb1_inv, by decide, inv_of (by decide), by decide⟩

/-! ### Reset and the invariants -/

theorem test_witness_Reset :
    Params.default.Ok ∧ Params.Ok ⟨8, 0, some 246⟩ ∧ Params.Ok ⟨252, 254, none⟩ := by decide

/-- A step that reads one byte. -/
def reading : State := { rb1 with hostIn := [0x20, 0x00] }

theorem test_witness_StepKeepsInvariant :
    Inv reading ∧ step reading = .next (stepped reading) :=
  ⟨inv_of (by decide), stepped_of_steps (by decide)⟩

theorem test_witness_StepKeepsOccupiedSlotsWritten : Inv reading ∧ Written reading := by
  refine ⟨inv_of (by decide), fun k hk => ?_⟩
  have ho : occupied reading = 2 := by decide
  have h : ∀ k < 2, (memRead reading.store (peekSlot reading k)).isSome := by decide
  exact h k (by omega)

theorem test_witness_StepLeavesNoOperationInProgress : Idle reading := by decide

theorem test_witness_RegistersHaveTheirWriters :
    exec (.rbInit 2) rb1 = .next (after (.rbInit 2) rb1) ∧ (after (.rbInit 2) rb1).slots ≠ rb1.slots ∧
    (after (.rbInit 2) rb1).rd ≠ rb1.rd ∧ Quiet rb1 ∧
    (after (.rbWrite 6) rb1).wr ≠ rb1.wr ∧ (after (.rbWrite 6) rb1).store ≠ rb1.store ∧ (after (.enSetaddr 9) rb1).ownAddr ≠ rb1.ownAddr ∧
    (after (.enSend 1 2 []) sd8).msgId ≠ sd8.msgId ∧ (after (.enSend 1 2 []) sd8).busOut ≠ sd8.busOut :=
  ⟨after_of_runs (by decide), by decide, by decide,
    by show ∀ f ∈ rb1.arrivals, f = []; decide, by decide, by decide, by decide, by decide +kernel, by decide +kernel⟩

/-! ### Ring buffer -/

/-- `rb1` filled up: `WR` just behind `RD`. -/
def rb1Full : State := { rb1 with store := [(0, 7), (1, 2), (2, 3), (3, 4), (4, 6)], wr := 1 }

theorem test_witness_RbInitSetsCursors :
    (after (.rbInit 0) rb1).hostOut = [0] ∧ (after (.rbWrite 5) (after (.rbInit 0) rb1)).hostOut = [0, 1] := by
  decide

theorem test_witness_RbWriteStoresOrRefuses :
    Cursors rb1 ∧ (rb1.wr.toNat + 1) % rb1.slots.toNat ≠ rb1.rd.toNat ∧
    Cursors rb1Full ∧ (rb1Full.wr.toNat + 1) % rb1Full.slots.toNat = rb1Full.rd.toNat := by decide

theorem test_witness_RbReadTakesOldestByte :
    Cursors rb1 ∧ rb1.rd ≠ rb1.wr ∧ memRead rb1.store rb1.rd.toNat = some 3 ∧
    Cursors (resetCap 4) ∧ (resetCap 4).rd = (resetCap 4).wr := by decide

/-- The last offset inside the occupied range, and an offset that wraps into it. -/
theorem test_witness_RbPeekReadsWithoutAdvancing :
    Cursors rb5 ∧ occupied rb5 = 3 ∧ memRead rb5.store ((rb5.rd.toNat + 2) % rb5.slots.toNat) = some 0x0C ∧
    (255 : Byte).toNat % rb5.slots.toNat < occupied rb5 := by decide

theorem test_witness_RbAvailAnswersFreeSpace :
    Cursors rb1Full ∧ freeSpace rb1Full = 0 ∧ Cursors (resetCap 4) ∧ freeSpace (resetCap 4) = 4 := by decide

/-- Operations within the preconditions, from a buffer that wraps. -/
def ops : List Instr := [.rbWrite 6, .rbPeek 2, .rbRead, .rbAvail, .rbEmpty, .rbWrite 7, .rbInit 3, .rbEmpty]

theorem test_witness_RingBufferRefinesQueue :
    Cursors rb1 ∧ Holds rb1 [3, 4] ∧
      queueRun ops rb1.slots.toNat [3, 4] =
        some ([0, 0, 6, 0, 3, 0, 2, 0, 0, 0, 0, 0, 1], 4, []) :=
  ⟨by decide, rb1_holds, by decide⟩

theorem test_witness_WraparoundIsInvisible :
    Cursors { rb1 with store := [(0, 3), (1, 4)], rd := 0, wr := 2 } ∧
      Holds { rb1 with store := [(0, 3), (1, 4)], rd := 0, wr := 2 } [3, 4] := by
  refine ⟨by decide, ?_⟩
  show fifo _ = _
  decide

/-! ### EN_INGEST -/

/-- One frame for each outcome: too short, misaligned, corrupt, truncated, no space (by one byte),
admitted into the last free byte. -/
theorem test_witness_IngestValidatesThenStores :
    Cursors (resetCap 13) ∧ (after (.enIngest []) (resetCap 13)).hostOut = [2] ∧
    (after (.enIngest (f0 ++ [0])) (resetCap 13)).hostOut = [3] ∧
    (after (.enIngest (f0.set 0 8)) (resetCap 13)).hostOut = [4] ∧
    (after (.enIngest (f0.take 8)) (resetCap 13)).hostOut = [5] ∧
    (after (.enIngest f0) (resetCap 12)).hostOut = [6] ∧
    (after (.enIngest f0) (resetCap 13)).hostOut = [0] := by decide +kernel

theorem test_witness_IngestAppendsOneRecord :
    Cursors rx2 ∧ HoldsRecords rx2 [rec0] ∧ exec (.enIngest f1) rx2 = .next (after (.enIngest f1) rx2) ∧
      (after (.enIngest f1) rx2).hostOut = rx2.hostOut ++ [0] ∧
      (after (.enIngest []) rx2).hostOut = rx2.hostOut ++ [2] :=
  ⟨rx2_inv.cursors, rx2_records, after_of_runs (by decide +kernel), by decide +kernel, by decide +kernel⟩

theorem test_witness_IngestNeverAdmitsAbove246 :
    247 ≤ (([1, 0, 2, 0, 0, 0, 247, 0] : List Byte).getD 6 0).toNat := by decide

theorem test_witness_CorruptHeaderByteIsDropped :
    8 ≤ f0.length ∧ f0.length % 4 = 0 ∧
      ck (f0.getD 0 0) (f0.getD 1 0) (f0.getD 2 0) (f0.getD 3 0) (f0.getD 6 0) =
        be16 (f0.getD 4 0) (f0.getD 5 0) ∧ (0 : Byte) ≠ f0.getD 0 0 ∧ (4 : Byte) ≠ f0.getD 6 0 := by decide

theorem p5_inv : Inv (p5 40) := inv_of (by decide +kernel)
theorem p5_records : HoldsRecords (p5 40) [rec0] :=
  ⟨by decide +kernel, by show fifo (p5 40) = _; decide +kernel⟩

/-- A frame comes inside the operation, and none in its requeue phase. -/
theorem test_witness_OperationsKeepFraming :
    Inv (p5 40) ∧ Framed (p5 40) ∧ exec .enReceive (p5 40) = .next (after .enReceive (p5 40)) ∧
      QuietRequeue (p5 40) ∧ (requeueStart (p5 40)).isSome = true := by
  refine ⟨p5_inv, ⟨_, p5_records⟩, after_of_runs (by decide +kernel), fun v hv => ?_,
    by decide +kernel⟩
  have h : (requeueStart (p5 40)).map State.arrivals = some [] := by decide +kernel
  rw [hv, Option.map_some, Option.some.injEq] at h
  simp [h]

theorem test_witness_NotificationIsOneIngest : Cursors rx2 := rx2_inv.cursors

/-! ### EN_SEND and EN_SETADDR -/

theorem test_witness_Send :
    Inv sd8 ∧ Quiet sd8 ∧ sendCount sd8 [] = 1 ∧ sendCount sd8 [1, 2, 3, 4, 5] = 1 ∧
      sendCount sd8 [1, 2, 3, 4, 5, 6] = 2 ∧ exec (.enSend 1 2 []) sd8 = .next (after (.enSend 1 2 []) sd8) :=
  ⟨inv_of (by decide), by show ∀ f ∈ sd8.arrivals, f = []; decide, by decide, by decide, by decide,
    after_of_runs (by decide +kernel)⟩

theorem test_witness_SetaddrWritesOwnAddress : 128 ≤ (128 : Byte).toNat := by decide

/-! ### EN_RECEIVE and EN_PENDING -/

theorem test_witness_PendingIsNotEmpty :
    (resetCap 4).rd = (resetCap 4).wr ∧ rx2.rd ≠ rx2.wr ∧
      exec .enReceive rx2 = .next (after .enReceive rx2) :=
  ⟨by decide, by decide +kernel, after_of_runs (by decide +kernel)⟩

theorem test_witness_ReceiveOnEmptyBuffer : (resetCap 4).rd = (resetCap 4).wr := by decide

/-- The four outcomes of an uninterrupted call: empty, complete with a record left, requeued, dropped. -/
theorem test_witness_ReceiveRefinesRecordQueue :
    Inv rx2 ∧ Quiet rx2 ∧ HoldsRecords rx2 [rec0] ∧ (receiveQueue []).1 = 0x08 ∧
      (receiveQueue [rec0, .ofRaw f1, rec0]).1 = 0x09 ∧ (receiveQueue [rec0]).1 = 0x0A ∧
      (receiveQueue [{ rec0 with flag := 0xF1 }]).1 = 0x0B :=
  ⟨rx2_inv, rx2_quiet, rx2_records, by decide, by decide +kernel, by decide +kernel, by decide +kernel⟩

/-- One stored record and a frame that comes during the drain (it ends the drain), before the space
test (with and without space behind it), or not at all with the TTL at its maximum. -/
theorem test_witness_ReceiveUnderNotifications :
    Inv (p5 40) ∧ HoldsRecords (p5 40) [rec0] ∧
      (after .enReceive { rx2 with arrivals := [[], [f1]] }).hostOut.take 2 = [0, 0x09] ∧
      (after .enReceive (p5 40)).hostOut.take 2 = [0, 0x0A] ∧
      (after .enReceive (p5 20)).hostOut.take 2 = [0, 0x0C] ∧
      (after .enReceive { rx2 with store := memWrite rx2.store 2 0xF1 }).hostOut.take 2 = [0, 0x0B] :=
  ⟨p5_inv, p5_records, by decide +kernel, by decide +kernel, by decide +kernel, by decide +kernel⟩

/-- A fragment of 123 bytes that does not end a message. -/
def fragment : List Byte := frameBytes 9 1 0x10 3 (List.replicate 123 0xAA)

/-- Three of them in one drain: the third is more than the aggregate holds (U8). -/
theorem test_witness_ReceiveUnderNotifications_full :
    faultOf .enReceive { after (.enIngest fragment) (resetCap 254) with
      arrivals := List.replicate 100 [] ++ [[fragment]] ++ List.replicate 130 [] ++ [[fragment]] } =
      some .aggregateFull := by decide +kernel

theorem test_witness_ReceivedSizeBound : Inv rx2 ∧ HoldsRecords rx2 [rec0] ∧ Quiet rx2 :=
  ⟨rx2_inv, rx2_records, rx2_quiet⟩

/-- Two records of one partial message, the second with `FRAG = 3`. -/
def rx3 : State :=
  after (.enIngest (frameBytes 9 0x03 0x10 3 [6, 7])) rx2

theorem test_witness_PartialMessageAges :
    Inv rx3 ∧ Quiet rx3 ∧ HoldsRecords rx3 [rec0, .ofRaw (frameBytes 9 0x03 0x10 3 [6, 7])] ∧
      hasTerminator [rec0, .ofRaw (frameBytes 9 0x03 0x10 3 [6, 7])] = false ∧
      rec0.flag.toNat / 16 = 0 :=
  ⟨inv_of (by decide +kernel), by show ∀ f ∈ rx3.arrivals, f = []; decide +kernel,
    ⟨by decide +kernel, by show fifo rx3 = _; decide +kernel⟩, by decide +kernel, by decide +kernel⟩

/-- The record of frame F0, then a short prefix with `n` bytes behind it. -/
def short (n : Nat) : State :=
  { rx2 with store := (List.range n).foldl (fun m k => memWrite m (14 + k) 1) (memWrite rx2.store 13 6)
             wr := BitVec.ofNat 8 (14 + n) }

theorem test_witness_ReceiveFaultsOnShortPrefix :
    Inv (short 7) ∧ Inv (short 6) ∧ Quiet (short 7) ∧ Quiet (short 6) ∧
      Literal rec0.bytes ∧ endsMessage (rec0.bytes.getD 2 0) = false ∧
      Holds (short 7) ([rec0.bytes].flatten ++ 6 :: List.replicate 7 1) ∧
      Holds (short 6) ([rec0.bytes].flatten ++ 6 :: List.replicate 6 1) ∧ (6 : Byte).toNat < 7 ∧
      faultOf .enReceive (short 7) = some .shortPrefix ∧ faultOf .enReceive (short 6) = some .readEmpty := by
  refine ⟨inv_of (by decide +kernel), inv_of (by decide +kernel), ?_, ?_, by decide +kernel,
    by decide +kernel, ?_, ?_, by decide, by decide +kernel, by decide +kernel⟩
  · show ∀ f ∈ (short 7).arrivals, f = []
    decide +kernel
  · show ∀ f ∈ (short 6).arrivals, f = []
    decide +kernel
  · show fifo (short 7) = _
    decide +kernel
  · show fifo (short 6) = _
    decide +kernel

/-- A payload of two fragments that fills the receiver to the last byte. -/
theorem test_witness_SendIngestReceiveRoundTrip :
    Inv sd8 ∧ Inv (resetCap 22) ∧ Quiet (resetCap 22) ∧ fifo (resetCap 22) = [] ∧
      sendCount sd8 [1, 2, 3, 4, 5, 6] * 8 + 6 = (resetCap 22).slots.toNat - 1 :=
  ⟨inv_of (by decide), inv_of (by decide),
    by show ∀ f ∈ (resetCap 22).arrivals, f = []; decide, by decide, by decide⟩

end Sys2Proof.Tests
end

section
/-! What an operation and a step can do, said once: the inversion of `exec` and of `step`. -/

namespace Sys2Proof.Machine

/-- What an operation did when it answered: one constructor for each row of the opcode table, two for
`EN_RECEIVE`, whose step a1 decides between them (R180). -/
inductive Did (s : State) : Instr → State → Prop
  | rbInit (cap : Byte) : Did s (.rbInit cap) (answer .ok [] (rbInit cap s))
  | rbWrite {b : Byte} {st : Status} {u : State} (h : rbWrite b s = .ok (st, u)) :
      Did s (.rbWrite b) (answer st [] u)
  | rbRead {v : Byte} {u : State} (h : rbRead s = .ok (v, u)) : Did s .rbRead (answer .ok [v] u)
  | rbPeek {k v : Byte} {u : State} (h : rbPeek k.toNat s = .ok (v, u)) :
      Did s (.rbPeek k) (answer .ok [v] u)
  | rbEmpty : Did s .rbEmpty (answer .ok [boolByte (isEmpty s)] s)
  | rbAvail : Did s .rbAvail (answer .ok [BitVec.ofNat 8 (freeSpace s)] s)
  | enIngest {raw : List Byte} {st : Status} {u : State} (h : ingest raw s = .ok (st, u)) :
      Did s (.enIngest raw) (answer st [] u)
  | enSend {dest : Addr7} {opcode : Byte} {payload : List Byte} {u : State}
      (h : sendLoop dest opcode payload (sendStart payload s).tx.count (sendStart payload s) = .ok u) :
      Did s (.enSend dest opcode payload) (sendEnd u)
  | enReceiveEmpty (h : isEmpty s = true) :
      Did s .enReceive (deliver .rxEmpty { s with rx := .start })
  | enReceive {t : State} (he : isEmpty s = false) (h : receive { s with rx := .start } = .ok t) :
      Did s .enReceive t
  | enPending : Did s .enPending (answer .ok [boolByte (!isEmpty s)] s)
  | enCksum (sender flag opcode id length : Byte) : Did s (.enCksum sender flag opcode id length)
      (answer .ok (streamWord (ck sender flag opcode id length)) s)
  | enSetaddr (a : Addr7) :
      Did s (.enSetaddr a) (answer .ok [] { s with ownAddr := a.zeroExtend 8 })

/-- `EN_RECEIVE` on an empty buffer (R181). -/
theorem exec_enReceive_empty {s : State} (h : isEmpty s = true) :
    exec .enReceive s = .next (deliver .rxEmpty { s with rx := .start }) := by
  have h' : isEmpty { s with rx := .start } = true := h
  simp only [exec, execEnReceive, h', if_true, finish_ok]

/-- `EN_RECEIVE` on a buffer that is not empty (R180). -/
theorem exec_enReceive_notEmpty {s : State} (h : isEmpty s = false) :
    exec .enReceive s = finish (receive { s with rx := .start }) := by
  have h' : isEmpty { s with rx := .start } = false := h
  simp only [exec, execEnReceive, h', Bool.false_eq_true, if_false]

/-- Every operation that answers did what its row says. -/
theorem exec_did {i : Instr} {s t : State} (h : exec i s = .next t) : Did s i t := by
  cases i with
  | rbInit cap => cases h; exact .rbInit cap
  | rbWrite b =>
    obtain ⟨⟨st, u⟩, h1, h2⟩ := bind_eq_ok.1 (finish_eq_next.1 h)
    cases h2; exact .rbWrite h1
  | rbRead =>
    obtain ⟨⟨v, u⟩, h1, h2⟩ := bind_eq_ok.1 (finish_eq_next.1 h)
    cases h2; exact .rbRead h1
  | rbPeek k =>
    obtain ⟨⟨v, u⟩, h1, h2⟩ := bind_eq_ok.1 (finish_eq_next.1 h)
    cases h2; exact .rbPeek h1
  | rbEmpty => cases h; exact .rbEmpty
  | rbAvail => cases h; exact .rbAvail
  | enIngest raw =>
    obtain ⟨⟨st, u⟩, h1, h2⟩ := bind_eq_ok.1 (finish_eq_next.1 h)
    cases h2; exact .enIngest h1
  | enSend dest opcode payload =>
    obtain ⟨u, h1, h2⟩ := bind_eq_ok.1 (finish_eq_next.1 h)
    cases h2; exact .enSend h1
  | enReceive =>
    cases he : isEmpty s with
    | true => rw [exec_enReceive_empty he] at h; cases h; exact .enReceiveEmpty he
    | false =>
      rw [exec_enReceive_notEmpty he] at h
      exact .enReceive he (finish_eq_next.1 h)
  | enPending => cases h; exact .enPending
  | enCksum sender flag opcode id length => cases h; exact .enCksum sender flag opcode id length
  | enSetaddr a => cases h; exact .enSetaddr a

/-- A step takes the notifications of its boundary; then it runs a request, passes over an illegal word
or waits (R62, R103, R240). -/
theorem step_cases {s t : State} (h : step s = .next t) :
    ∃ u, notify s = .ok u ∧
      ((∃ i rest, Did (consume rest u) i t) ∨ (∃ rest, t = answerIllegal rest u) ∨ t = u) := by
  unfold step at h
  split at h
  · cases h
  · next u hu =>
    refine ⟨u, hu, ?_⟩
    split at h
    · exact .inl ⟨_, _, exec_did h⟩
    · cases h; exact .inr (.inl ⟨_, rfl⟩)
    · cases h; exact .inr (.inr rfl)
    · cases h; exact .inr (.inr rfl)

/-- What the notification keeps and the bus and the sequencer's registers have no part in, the loop of
`EN_SEND` keeps (R62, R160). -/
theorem sendLoop_keeps {P : State → Prop} (hn : ∀ s t, notify s = .ok t → P s → P t)
    (hf : ∀ s x bi bo n, P s → P { s with tx := x, busIn := bi, busOut := bo, freeCount := n })
    {dest : Addr7} {opcode : Byte} {payload : List Byte} {n : Nat} {s t : State}
    (h : sendLoop dest opcode payload n s = .ok t) (hs : P s) : P t := by
  induction n generalizing s with
  | zero => cases h; exact hs
  | succ n ih =>
    obtain ⟨u, h1, h2⟩ := bind_eq_ok.1 h
    obtain ⟨x, bi, bo, m, he⟩ := sendFragment_frame dest opcode payload s
    exact ih h2 (hn _ _ h1 (he ▸ hf s x bi bo m hs))

end Sys2Proof.Machine
end

section
/-! The ring buffer under any step: every step is a run of the ring buffer's own operations, so what
these keep every step keeps (spec/10_state.md R28, spec/93_implementation_defined.md U3). -/

namespace Sys2Proof.Machine

/-! ## Runs of ring buffer operations -/

/-- One ring buffer operation, or anything that leaves the ring buffer alone. -/
inductive RingStep (s : State) : State → Prop
  | other {t : State} (h : SameRing s t) : RingStep s t
  | init (cap : Byte) : RingStep s (rbInit cap s)
  | write {b : Byte} {st : Status} {t : State} (h : rbWrite b s = .ok (st, t)) : RingStep s t
  | read {v : Byte} {t : State} (h : rbRead s = .ok (v, t)) : RingStep s t

/-- Any number of ring buffer operations, one after another. -/
def RingRun : State → State → Prop := Relation.ReflTransGen RingStep

theorem RingRun.refl (s : State) : RingRun s s := Relation.ReflTransGen.refl

theorem RingRun.trans {s t u : State} (h : RingRun s t) (h' : RingRun t u) : RingRun s u :=
  Relation.ReflTransGen.trans h h'

theorem RingStep.run {s t : State} (h : RingStep s t) : RingRun s t := .single h

theorem SameRing.run {s t : State} (h : SameRing s t) : RingRun s t := (RingStep.other h).run

/-- A run, and behind it something that leaves the ring buffer alone. -/
theorem RingRun.andThen {s t u : State} (h : RingRun s t) (h' : SameRing t u) : RingRun s u :=
  h.trans h'.run

/-- A run, and before it something that leaves the ring buffer alone. -/
theorem RingRun.preceded {s t u : State} (h : RingRun t u) (h' : SameRing s t) : RingRun s u :=
  h'.run.trans h

/-! ## What a run keeps -/

theorem cursors_rbInit (cap : Byte) (s : State) : Cursors (rbInit cap s) := by
  have h : 0 < (rbInit cap s).slots.toNat := by
    simp only [rbInit_slots, BitVec.toNat_ofNat, Config.rbCapMax]; omega
  exact ⟨h, h⟩

theorem SameRing.cursors {s t : State} (h : SameRing s t) (hc : Cursors s) : Cursors t := by
  unfold Cursors; rw [h.slots, h.rd, h.wr]; exact hc

theorem RingStep.keeps {s t : State} (h : RingStep s t) (hc : Cursors s) (hm : Memory.wf s.store) :
    Cursors t ∧ Memory.wf t.store := by
  cases h with
  | other h => exact ⟨h.cursors hc, h.store ▸ hm⟩
  | init cap => exact ⟨cursors_rbInit cap s, hm⟩
  | write h => exact rbWrite_keeps h hc hm
  | read h => exact ⟨(rbRead_progress h).1.cursors hc, (rbRead_progress h).1.store hc hm⟩

/-- A run keeps the cursor invariant and the canonical form of the storage. -/
theorem RingRun.keeps {s t : State} (h : RingRun s t) (hc : Cursors s) (hm : Memory.wf s.store) :
    Cursors t ∧ Memory.wf t.store := by
  induction h with
  | refl => exact ⟨hc, hm⟩
  | tail _ hstep ih => exact hstep.keeps ih.1 ih.2

/-- The occupied slots are written when the byte queue holds no undefined byte. -/
theorem written_iff {s : State} : Written s ↔ ∀ x ∈ fifo s, x.isSome := by
  simp [Written, fifo]

/-- A write puts a defined byte behind the queue, a read takes one off its front. -/
theorem RingStep.written {s t : State} (h : RingStep s t) (hc : Cursors s) (hw : Written s) :
    Written t := by
  rw [written_iff] at hw ⊢
  cases h with
  | other h => rwa [fifo_congr h.store h.slots h.rd h.wr]
  | init cap => simp [fifo_rbInit]
  | write h =>
    rcases rbWrite_cases h with ⟨-, -, rfl⟩ | ⟨hf, -, -, rfl⟩
    · exact hw
    · rw [fifo_write hc hf, List.forall_mem_append]
      exact ⟨hw, by simp⟩
  | read h =>
    obtain ⟨he, n, rfl, -⟩ := rbRead_cases h
    rw [fifo_advance hc he n, List.forall_mem_cons] at hw
    exact hw.2

theorem RingRun.written {s t : State} (h : RingRun s t) (hc : Cursors s) (hm : Memory.wf s.store)
    (hw : Written s) : Written t := by
  induction h with
  | refl => exact hw
  | tail hrun hstep ih => exact hstep.written (RingRun.keeps hrun hc hm).1 ih

/-! ## The notification and the sender -/

theorem rbWrites_ringRun {bs : List Byte} {s t : State} (h : rbWrites bs s = .ok t) : RingRun s t := by
  induction bs generalizing s with
  | nil => cases h; exact .refl _
  | cons b bs ih =>
    obtain ⟨⟨st, u⟩, h1, h2⟩ := bind_eq_ok.1 h
    exact (RingStep.write h1).run.trans (ih h2)

theorem ingest_ringRun {raw : List Byte} {s t : State} {st : Status} (h : ingest raw s = .ok (st, t)) :
    RingRun s t := by
  obtain ⟨-, ⟨-, rfl⟩ | ⟨-, h1⟩⟩ := ingest_cases h
  · exact .refl _
  · exact rbWrites_ringRun h1

theorem ingestAll_ringRun {frames : List (List Byte)} {s t : State} (h : ingestAll frames s = .ok t) :
    RingRun s t := by
  induction frames generalizing s with
  | nil => cases h; exact .refl _
  | cons raw more ih =>
    obtain ⟨⟨st, u⟩, h1, h2⟩ := bind_eq_ok.1 h
    exact (ingest_ringRun h1).trans ((ih h2).preceded ⟨rfl, rfl, rfl, rfl⟩)

theorem notify_ringRun {s t : State} (h : notify s = .ok t) : RingRun s t := by
  unfold notify at h
  split at h
  · cases h; exact .refl _
  · exact (ingestAll_ringRun h).preceded ⟨rfl, rfl, rfl, rfl⟩

theorem sendLoop_ringRun {dest : Addr7} {opcode : Byte} {payload : List Byte} {n : Nat} {s t : State}
    (h : sendLoop dest opcode payload n s = .ok t) : RingRun s t :=
  sendLoop_keeps (P := RingRun s) (fun _ _ hn hr => hr.trans (notify_ringRun hn))
    (fun _ _ _ _ _ hr => hr.andThen ⟨rfl, rfl, rfl, rfl⟩) h (.refl s)

/-! ## `EN_RECEIVE` -/

theorem rbPeek_ringRun {k : Nat} {s t : State} {v : Byte} (h : rbPeek k s = .ok (v, t)) :
    RingRun s t := by
  obtain ⟨n, rfl, -⟩ := rbPeek_cases h
  exact SameRing.run ⟨rfl, rfl, rfl, rfl⟩

theorem hostEmpty_ringRun {s t : State} {e : Bool} (h : hostEmpty s = .ok (e, t)) : RingRun s t := by
  obtain ⟨u, h1, h2⟩ := bind_eq_ok.1 h
  cases h2
  exact notify_ringRun h1

theorem hostAvail_ringRun {s t : State} {n : Nat} (h : hostAvail s = .ok (n, t)) : RingRun s t := by
  obtain ⟨u, h1, h2⟩ := bind_eq_ok.1 h
  cases h2
  exact notify_ringRun h1

theorem hostPeek_ringRun {k : Nat} {s t : State} {v : Byte} (h : hostPeek k s = .ok (v, t)) :
    RingRun s t := by
  obtain ⟨u, h1, h2⟩ := bind_eq_ok.1 h
  exact (notify_ringRun h1).trans (rbPeek_ringRun h2)

theorem hostRead_ringRun {s t : State} {v : Byte} (h : hostRead s = .ok (v, t)) : RingRun s t := by
  obtain ⟨u, h1, h2⟩ := bind_eq_ok.1 h
  exact (notify_ringRun h1).trans (RingStep.read h2).run

theorem hostReads_ringRun {n : Nat} {s t : State} {vs : List Byte} (h : hostReads n s = .ok (vs, t)) :
    RingRun s t := by
  induction n generalizing s vs with
  | zero => cases h; exact .refl _
  | succ n ih =>
    obtain ⟨⟨v, u⟩, h1, h⟩ := bind_eq_ok.1 h
    obtain ⟨⟨ws, u'⟩, h2, h3⟩ := bind_eq_ok.1 h
    cases h3
    exact (hostRead_ringRun h1).trans (ih h2)

theorem drainHeader_ringRun {s t : State} (h : drainHeader s = .ok t) : RingRun s t := by
  obtain ⟨⟨hd, u⟩, h1, h2⟩ := bind_eq_ok.1 h
  refine (hostReads_ringRun h1).trans ?_
  simp only [pure_eq_ok, Except.ok.injEq] at h2
  subst h2
  split
  · exact SameRing.run ⟨rfl, rfl, rfl, rfl⟩
  · exact .refl _

theorem drainPayload_ringRun {n : Nat} {s t : State} (h : drainPayload n s = .ok t) : RingRun s t := by
  induction n generalizing s with
  | zero => cases h; exact .refl _
  | succ n ih =>
    obtain ⟨⟨b, u⟩, h1, h⟩ := bind_eq_ok.1 h
    dsimp only at h
    split at h
    · exact (hostRead_ringRun h1).trans ((ih h).preceded ⟨rfl, rfl, rfl, rfl⟩)
    · cases h

theorem drainRecord_ringRun {s t : State} {f : Byte} (h : drainRecord s = .ok (f, t)) :
    RingRun s t := by
  obtain ⟨⟨f', u1⟩, h1, h⟩ := bind_eq_ok.1 h
  obtain ⟨⟨l, u2⟩, h2, h⟩ := bind_eq_ok.1 h
  obtain ⟨u3, h3, h⟩ := bind_eq_ok.1 h
  split at h
  · cases h
  · obtain ⟨u4, h4, h⟩ := bind_eq_ok.1 h
    cases h
    exact (hostPeek_ringRun h1).trans ((hostRead_ringRun h2).trans
      ((drainHeader_ringRun h3).trans (drainPayload_ringRun h4)))

theorem drain_ringRun {bound : Nat} {s t : State} (h : drain bound s = .ok t) : RingRun s t := by
  induction bound generalizing s with
  | zero => cases h
  | succ bound ih =>
    obtain ⟨⟨e, u⟩, h1, h⟩ := bind_eq_ok.1 h
    refine (hostEmpty_ringRun h1).trans ?_
    dsimp only at h
    split at h
    · cases h; exact .refl _
    · obtain ⟨⟨f, v⟩, h2, h⟩ := bind_eq_ok.1 h
      refine (drainRecord_ringRun h2).trans ?_
      dsimp only at h
      split at h
      · cases h; exact SameRing.run ⟨rfl, rfl, rfl, rfl⟩
      · exact ih h

theorem hostWrites_ringRun {bs : List Byte} {s t : State} (h : hostWrites bs s = .ok t) :
    RingRun s t := by
  induction bs generalizing s with
  | nil => cases h; exact .refl _
  | cons b bs ih =>
    obtain ⟨u, h1, h⟩ := bind_eq_ok.1 h
    obtain ⟨⟨st, v⟩, h2, h⟩ := bind_eq_ok.1 h
    exact (notify_ringRun h1).trans ((RingStep.write h2).run.trans (ih h))

theorem requeue_ringRun {s t : State} (h : requeue s = .ok t) : RingRun s t := by
  unfold requeue at h
  split at h
  · cases h; exact SameRing.run ⟨rfl, rfl, rfl, rfl⟩
  · obtain ⟨⟨n, u⟩, h1, h⟩ := bind_eq_ok.1 h
    refine (hostAvail_ringRun h1).trans ?_
    dsimp only at h
    split at h
    · cases h; exact SameRing.run ⟨rfl, rfl, rfl, rfl⟩
    · obtain ⟨v, h2, h⟩ := bind_eq_ok.1 h
      cases h
      exact (hostWrites_ringRun h2).andThen ⟨rfl, rfl, rfl, rfl⟩

theorem receive_ringRun {s t : State} (h : receive s = .ok t) : RingRun s t := by
  obtain ⟨u, h1, h⟩ := bind_eq_ok.1 h
  refine (drain_ringRun h1).trans (RingRun.preceded (t := { u with rx := totals u.rx }) ?_
    ⟨rfl, rfl, rfl, rfl⟩)
  dsimp only at h
  split at h
  · cases h; exact SameRing.run ⟨rfl, rfl, rfl, rfl⟩
  · exact requeue_ringRun h

/-! ## Every operation and every step -/

theorem Did.ringRun {i : Instr} {s t : State} (h : Did s i t) : RingRun s t := by
  have answered : ∀ {u : State} (st : Status) (bs : List Byte), RingRun s u →
      RingRun s (answer st bs u) := fun _ _ hr => hr.andThen ⟨rfl, rfl, rfl, rfl⟩
  cases h with
  | rbInit cap => exact answered _ _ (RingStep.init cap).run
  | rbWrite h => exact answered _ _ (RingStep.write h).run
  | rbRead h => exact answered _ _ (RingStep.read h).run
  | rbPeek h => exact answered _ _ (rbPeek_ringRun h)
  | rbEmpty => exact answered _ _ (.refl s)
  | rbAvail => exact answered _ _ (.refl s)
  | enIngest h => exact answered _ _ (ingest_ringRun h)
  | @enSend _ _ _ u h =>
    have hloop : RingRun s u := (sendLoop_ringRun h).preceded ⟨rfl, rfl, rfl, rfl⟩
    exact hloop.andThen ⟨rfl, rfl, rfl, rfl⟩
  | enReceiveEmpty => exact SameRing.run ⟨rfl, rfl, rfl, rfl⟩
  | enReceive _ h => exact (receive_ringRun h).preceded ⟨rfl, rfl, rfl, rfl⟩
  | enPending => exact answered _ _ (.refl s)
  | enCksum => exact answered _ _ (.refl s)
  | enSetaddr => exact SameRing.run ⟨rfl, rfl, rfl, rfl⟩

/-- Every step is a run of ring buffer operations. -/
theorem step_ringRun {s t : State} (h : step s = .next t) : RingRun s t := by
  obtain ⟨u, hu, ⟨i, rest, hd⟩ | ⟨rest, rfl⟩ | rfl⟩ := step_cases h
  · exact (notify_ringRun hu).trans (hd.ringRun.preceded ⟨rfl, rfl, rfl, rfl⟩)
  · exact (notify_ringRun hu).andThen ⟨rfl, rfl, rfl, rfl⟩
  · exact notify_ringRun hu

/-- Settles O11: the slots a run of ring buffer operations leaves occupied are written. -/
theorem stepKeepsOccupiedSlotsWritten : Obligations.StepKeepsOccupiedSlotsWritten :=
  fun _ _ hi hw h => (step_ringRun h).written hi.cursors hi.store hw

end Sys2Proof.Machine
end

section
/-! The registers outside the ring buffer: who writes them, and what every step keeps of them
(spec/10_state.md R20, R22, R29 to R32). -/

namespace Sys2Proof.Machine

open Sys2Proof.Config

/-! ## The invariant -/

/-- The parameters stay, `OWN_ADDR` stays or takes a 7-bit address, and the schedule is only used up. -/
structure Contracts (s t : State) : Prop where
  params : t.params = s.params
  ownAddr : s.ownAddr.toNat < 128 → t.ownAddr.toNat < 128
  frames : FramesFit s → FramesFit t

theorem Contracts.trans {s t u : State} (h : Contracts s t) (h' : Contracts t u) : Contracts s u :=
  ⟨h'.params.trans h.params, h'.ownAddr ∘ h.ownAddr, h'.frames ∘ h.frames⟩

theorem Contracts.same {s t : State} (h1 : t.params = s.params) (h2 : t.ownAddr = s.ownAddr)
    (h3 : t.arrivals = s.arrivals) : Contracts s t :=
  ⟨h1, fun h => h2 ▸ h, fun h => by unfold FramesFit; rwa [h3]⟩

theorem Writing.contracts {s t : State} (h : Writing s t) : Contracts s t :=
  ⟨h.kept.params, fun ha => h.kept.ownAddr ▸ ha, h.frames⟩

theorem Did.contracts {i : Instr} {s t : State} (h : Did s i t) : Contracts s t := by
  cases h with
  | rbInit => exact .same rfl rfl rfl
  | rbWrite h => exact (rbWrite_writing h).contracts.trans (.same rfl rfl rfl)
  | rbRead h => exact (rbRead_progress h).1.writing.contracts.trans (.same rfl rfl rfl)
  | rbPeek h => exact (rbPeek_progress h).writing.contracts.trans (.same rfl rfl rfl)
  | rbEmpty => exact .same rfl rfl rfl
  | rbAvail => exact .same rfl rfl rfl
  | enIngest h => obtain ⟨m, w, rfl⟩ := ingest_frame h; exact .same rfl rfl rfl
  | @enSend dest opcode payload u h =>
    have hstart : Contracts s (sendStart payload s) := .same rfl rfl rfl
    have hloop : Contracts s u := sendLoop_keeps (P := Contracts s)
      (fun _ _ hn hc => hc.trans (notify_progress hn).writing.contracts)
      (fun _ _ _ _ _ hc => hc.trans (.same rfl rfl rfl)) h hstart
    exact hloop.trans (.same rfl rfl rfl)
  | enReceiveEmpty => exact .same rfl rfl rfl
  | enReceive _ h =>
    obtain ⟨u, st, hw, -, rfl⟩ := receive_writing h
    have hstart : Contracts s { s with rx := .start } := .same rfl rfl rfl
    exact hstart.trans (hw.contracts.trans (.same rfl rfl rfl))
  | enPending => exact .same rfl rfl rfl
  | enCksum => exact .same rfl rfl rfl
  | enSetaddr a =>
    refine ⟨rfl, fun _ => ?_, id⟩
    have ha := a.isLt
    simp only [answer_ownAddr, BitVec.truncate_eq_setWidth, BitVec.toNat_setWidth]
    omega

theorem step_contracts {s t : State} (h : step s = .next t) : Contracts s t := by
  obtain ⟨u, hu, hcase⟩ := step_cases h
  refine (notify_progress hu).writing.contracts.trans ?_
  rcases hcase with ⟨i, rest, hd⟩ | ⟨rest, rfl⟩ | rfl
  · have hconsume : Contracts u (consume rest u) := .same rfl rfl rfl
    exact hconsume.trans hd.contracts
  · exact .same rfl rfl rfl
  · exact .same rfl rfl rfl

/-- Settles O10: the ring buffer's part is kept by any run of its operations, the rest is `Contracts`. -/
theorem stepKeepsInvariant : Obligations.StepKeepsInvariant := by
  intro s t hi h
  obtain ⟨hpar, hown, hfr⟩ := step_contracts h
  obtain ⟨hc, hm⟩ := (step_ringRun h).keeps hi.cursors hi.store
  exact ⟨hpar ▸ hi.params, hc, hown hi.ownAddr, hm, hfr hi.frames⟩

/-! ## The working registers -/

theorem Did.idle {i : Instr} {s t : State} (h : Did s i t) (hi : Idle s) : Idle t := by
  cases h with
  | rbInit => exact hi
  | rbWrite h => rcases rbWrite_cases h with ⟨-, -, rfl⟩ | ⟨-, -, -, rfl⟩ <;> exact hi
  | rbRead h => obtain ⟨-, n, rfl, -⟩ := rbRead_cases h; exact hi
  | rbPeek h => obtain ⟨n, rfl, -⟩ := rbPeek_cases h; exact hi
  | rbEmpty => exact hi
  | rbAvail => exact hi
  | enIngest h => obtain ⟨m, w, rfl⟩ := ingest_frame h; exact hi
  | enSend h =>
    obtain ⟨m, w, o, a, x, bi, bo, f, rfl, -⟩ := sendLoop_frame h
    exact ⟨hi.1, rfl⟩
  | enReceiveEmpty => exact ⟨rfl, hi.2⟩
  | enReceive _ h =>
    obtain ⟨u, st, hw, -, rfl⟩ := receive_writing h
    exact ⟨rfl, hw.kept.tx.trans hi.2⟩
  | enPending => exact hi
  | enCksum => exact hi
  | enSetaddr => exact hi

/-- Settles O12: `EN_RECEIVE` and `EN_SEND` give their registers back, no other operation and no
notification touches them. -/
theorem stepLeavesNoOperationInProgress : Obligations.StepLeavesNoOperationInProgress := by
  intro s t hi h
  obtain ⟨u, hu, hcase⟩ := step_cases h
  have hiu : Idle u := by obtain ⟨m, w, o, rfl⟩ := notify_frame hu; exact hi
  rcases hcase with ⟨i, rest, hd⟩ | ⟨rest, rfl⟩ | rfl
  · exact hd.idle hiu
  · exact hiu
  · exact hiu

/-! ## The written-by column of R20 -/

/-- Settles O13, operation by operation. -/
theorem registersHaveTheirWriters : Obligations.RegistersHaveTheirWriters := by
  intro i s t h
  have hd := exec_did h
  clear h
  cases hd with
  | rbInit cap => simp
  | rbWrite h => rcases rbWrite_cases h with ⟨-, -, rfl⟩ | ⟨-, -, -, rfl⟩ <;> simp
  | rbRead h => obtain ⟨-, n, rfl, -⟩ := rbRead_cases h; simp
  | rbPeek h => obtain ⟨n, rfl, -⟩ := rbPeek_cases h; simp
  | rbEmpty => simp
  | rbAvail => simp
  | enIngest h => obtain ⟨m, w, rfl⟩ := ingest_frame h; simp
  | enSend h =>
    obtain ⟨m, w, o, a, x, bi, bo, f, rfl, hq⟩ := sendLoop_frame h
    have hwr : Quiet s → w = s.wr := fun hs => (hq hs).2.1
    have hstore : Quiet s → m = s.store := fun hs => (hq hs).1
    simpa using ⟨hwr, hstore⟩
  | enReceiveEmpty => simp
  | enReceive _ h =>
    obtain ⟨u, st, hw, -, rfl⟩ := receive_writing h
    simp [hw.kept.params, hw.kept.slots, hw.kept.msgId, hw.kept.ownAddr, hw.kept.busOut]
  | enPending => simp
  | enCksum => simp
  | enSetaddr a => simp

end Sys2Proof.Machine
end

section
/-! INV-FRAMING (spec/10_state.md R36): records arrive whole, and an `EN_RECEIVE` takes whole records and
puts at most one whole record back. -/

namespace Sys2Proof.Machine

open Sys2Proof.Config

/-! ## Framing and the byte queue -/

/-- Framing speaks of the queue of bytes only. -/
theorem HoldsRecords.congr {s t : State} {rs : List Record} (h : HoldsRecords s rs)
    (hf : fifo t = fifo s) : HoldsRecords t rs :=
  ⟨h.1, hf.trans h.2⟩

theorem Framed.congr {s t : State} (h : Framed s) (hf : fifo t = fifo s) : Framed t := by
  obtain ⟨rs, h⟩ := h
  exact ⟨rs, h.congr hf⟩

theorem framed_of_fifo_nil {s : State} (h : fifo s = []) : Framed s :=
  ⟨[], by simp, h⟩

/-- Whole records behind whole records. -/
theorem HoldsRecords.append {s t : State} {rs new : List Record} (h : HoldsRecords s rs)
    (hfit : ∀ r ∈ new, r.Fits) (hf : fifo t = fifo s ++ (recordsBytes new).map some) :
    HoldsRecords t (rs ++ new) := by
  refine ⟨List.forall_mem_append.2 ⟨h.1, hfit⟩, ?_⟩
  have hh : fifo s = (recordsBytes rs).map some := h.2
  unfold Holds
  rw [hf, hh, recordsBytes_append, List.map_append]

/-- A buffer of no records is empty. -/
theorem HoldsRecords.isEmpty_of_nil {s : State} (hc : Cursors s) (h : HoldsRecords s []) :
    isEmpty s = true := (holds_nil_iff hc).1 h.2

/-! ## Frames arrive whole -/

theorem ingest_framed {raw : List Byte} {s t : State} {st : Status} (hc : Cursors s)
    (hf : Framed s) (h : ingest raw s = .ok (st, t)) : Framed t := by
  obtain ⟨rs, hr⟩ := hf
  obtain ⟨u, hu, -, hcase⟩ := ingest_ok raw hc
  rw [hu] at h
  cases h
  rcases hcase with ⟨-, rfl⟩ | ⟨-, hfit, hfi⟩
  · exact ⟨rs, hr⟩
  · exact ⟨_, hr.append (new := [.ofRaw raw]) (by simpa using hfit) (by simpa [recordsBytes] using hfi)⟩

theorem notify_framed {s t : State} (hc : Cursors s) (hf : Framed s) (h : notify s = .ok t) :
    Framed t := by
  obtain ⟨rs, hr⟩ := hf
  obtain ⟨u, new, hu, -, hfit, hfi, -⟩ := notify_ok hc
  rw [hu] at h
  cases h
  exact ⟨_, hr.append hfit hfi⟩

theorem sendLoop_framed {dest : Addr7} {opcode : Byte} {payload : List Byte} {n : Nat} {s t : State}
    (hc : Cursors s) (hf : Framed s) (h : sendLoop dest opcode payload n s = .ok t) : Framed t := by
  have hkeep := sendLoop_keeps (P := fun s => Cursors s ∧ Framed s)
    (fun _ _ hn hs => ⟨(notify_progress hn).cursors hs.1, notify_framed hs.1 hs.2 hn⟩)
    (fun _ _ _ _ _ hs => hs) h ⟨hc, hf⟩
  exact hkeep.2

/-! ## `EN_RECEIVE` takes and puts back whole records -/

/-- The requeue writes one whole record when its payload is within R89. -/
theorem requeueRecord_whole {w : RxWork} (h : w.agg.length ≤ 246) :
    ∃ r : Record, r.Fits ∧ requeueRecord w = r.bytes :=
  ⟨_, h, requeueRecord_eq w⟩

/-- The end of an incomplete `EN_RECEIVE` leaves the records that came at the boundary before the space
test, and behind them the requeued record when no frame interleaves its writes (R188 to R191). -/
theorem requeue_framed {s t : State} (hc : Cursors s) (h : Holds s [])
    (hz : s.rx.size = s.rx.agg.length)
    (hq : ∀ v, (ttl s.rx.flag).toNat < 15 → hostAvail s = .ok (freeSpace v, v) →
      s.rx.size + 8 ≤ freeSpace v → v.rx = s.rx →
      ∀ frames ∈ v.arrivals.take (8 + s.rx.size), frames = [])
    (ht : requeue s = .ok t) : Framed t := by
  rcases requeue_arrived hc h hz with ⟨-, hr⟩ | ⟨httl, v, late, hav, ha, hx, hh, hcase⟩
  · rw [hr] at ht; cases ht
    exact framed_of_fifo_nil h
  rcases hcase with ⟨-, hr⟩ | ⟨hfree, u, -, hr, hfi⟩
  · rw [hr] at ht; cases ht
    exact ⟨late, hh⟩
  · rw [hr] at ht; cases ht
    have hle := freeSpace_le (s := v)
    obtain ⟨r, hfit, hrec⟩ := requeueRecord_whole (w := s.rx) (by omega)
    have hu := hfi (hq v httl hav hfree hx)
    have hhv : fifo v = (recordsBytes late).map some := hh.2
    refine ⟨_, HoldsRecords.append (t := u) hh (new := [r]) (by simpa using hfit) ?_⟩
    rw [hu, hrec, hhv]
    simp [recordsBytes]

/-- The requeue phase of a call whose drain ended at `u` without a terminating record: it begins at the
state of the space test that found room (R188, R189). -/
theorem requeueStart_eq_some {s u v : State} (hd : drainEnd s = some u) (hc : u.rx.complete = false)
    (httl : (ttl u.rx.flag).toNat < 15) (hav : hostAvail u = .ok (freeSpace v, v))
    (hfree : u.rx.size + 8 ≤ freeSpace v) : requeueStart s = some v := by
  have h1 : ¬ (u.rx.complete = true ∨ ttlMax ≤ (ttl u.rx.flag).toNat) := by
    simp only [hc, ttlMax, Bool.false_eq_true, false_or]; omega
  have h2 : ¬ freeSpace v < u.rx.size + headerSize + 1 := by simp only [headerSize]; omega
  simp only [requeueStart, hd, h1, hav, h2, if_false]

/-- `EN_RECEIVE` takes the records up to the first terminating one, or all of them and puts one back
(R195, R199, R261). -/
theorem receive_framed {s t : State} (hc : Cursors s) (hf : Framed s) (hrx : s.rx = .start)
    (he : isEmpty s = false) (hq : QuietRequeue s) (h : exec .enReceive s = .next t) : Framed t := by
  obtain ⟨rs, hr⟩ := hf
  cases rs with
  | nil => rw [hr.isEmpty_of_nil hc] at he; cases he
  | cons first rs =>
    rcases receive_drained hc hr hrx with ⟨hx, -⟩ | ⟨u, new, hd, ha, hu, hmsg, hcomp, hx⟩
    · rw [hx] at h; cases h
    rw [hx, finish_eq_next] at h
    cases hterm : hasTerminator (first :: rs ++ new) with
    | true =>
      rw [hcomp, hterm, if_pos rfl] at h
      cases h
      exact ⟨_, hu⟩
    | false =>
      rw [hterm] at hcomp
      rw [hcomp, if_neg Bool.false_ne_true] at h
      rw [(drained_of_no_terminator hterm).2] at hu
      have hsize : u.rx.size = u.rx.agg.length :=
        (congrArg Message.size hmsg).trans (congrArg (List.length ∘ Message.payload) hmsg).symm
      refine requeue_framed (ha.progress.cursors hc) hu.2 hsize (fun v httl hav hfree hvrx => ?_) h
      have hlen : (requeueRecord v.rx).length = 8 + u.rx.size := by
        rw [requeueRecord_length, hvrx, hsize]
      exact hlen ▸ hq v (requeueStart_eq_some hd hcomp httl hav hfree)

/-! ## Every operation -/

/-- Settles O26, operation by operation. -/
theorem operationsKeepFraming : Obligations.OperationsKeepFraming := by
  intro i s t hi hf h hread hwrite hq
  have hc := hi.cursors
  cases exec_did h with
  | rbInit cap => exact framed_of_fifo_nil (fifo_rbInit cap s)
  | rbWrite _ => exact absurd rfl (hwrite _)
  | rbRead _ => exact absurd rfl hread
  | rbPeek hp => obtain ⟨n, rfl, -⟩ := rbPeek_cases hp; exact hf
  | rbEmpty => exact hf
  | rbAvail => exact hf
  | enIngest hin => have hu := ingest_framed hc hf hin; exact hu
  | enSend hl => have hu := sendLoop_framed (s := sendStart _ s) hc hf hl; exact hu
  | enReceiveEmpty _ => exact hf
  | enReceive he _ =>
    exact receive_framed (s := { s with rx := .start }) hc hf rfl he (hq rfl) h
  | enPending => exact hf
  | enCksum => exact hf
  | enSetaddr => exact hf

end Sys2Proof.Machine
end

section
/-! The state after reset (spec/10_state.md R35, spec/70_reset_and_hazards.md R250). -/

namespace Sys2Proof.Machine

open Sys2Proof.Config

/-- `SLOTS = RB_CAPACITY + 1` (R35): every permitted capacity fits the register. -/
theorem resetWith_slots_toNat {p : Params} (h : p.Ok) :
    (State.resetWith p).slots.toNat = p.capacity + 1 := by
  obtain ⟨-, -, -, hcap, -⟩ := h
  rw [resetWith_slots, BitVec.toNat_ofNat]
  omega

theorem resetWith_cursors {p : Params} (h : p.Ok) : Cursors (State.resetWith p) := by
  have hpos : 0 < (State.resetWith p).slots.toNat := by rw [resetWith_slots_toNat h]; omega
  exact ⟨hpos, hpos⟩

theorem resetWith_isEmpty (p : Params) : isEmpty (State.resetWith p) = true := isEmpty_iff.2 rfl

theorem resetWith_fifo {p : Params} (h : p.Ok) : fifo (State.resetWith p) = [] :=
  (holds_nil_iff (resetWith_cursors h)).2 (resetWith_isEmpty p)

theorem resetWith_inv {p : Params} (h : p.Ok) : Inv (State.resetWith p) where
  params := h
  cursors := resetWith_cursors h
  ownAddr := by simp
  store := by simp [Memory.wf]
  frames := by simp [FramesFit]

/-- The answer of an `EN_RECEIVE` that found nothing (R101, R181). -/
theorem messageStream_rxEmpty :
    messageStream .rxEmpty RxWork.start.message = [0x08, 0, 0, 0, 0, 0, 0, 0, 0, 0] := by decide

/-- Settles O8. -/
theorem resetState : Obligations.ResetState := by
  intro p hp s
  have he : isEmpty s = true := resetWith_isEmpty p
  have hpending : exec .enPending s = .next { s with hostOut := s.hostOut ++ [0x00, 0x00] } := by
    simp only [exec, execEnPending, he]; rfl
  have hreceive : exec .enReceive s =
      .next { s with hostOut := s.hostOut ++ [0x08, 0, 0, 0, 0, 0, 0, 0, 0, 0] } := by
    rw [exec_enReceive_empty he, ← messageStream_rxEmpty]; rfl
  exact ⟨rfl, resetWith_slots_toNat hp, rfl, rfl, rfl, rfl, fun _ => rfl, resetWith_fifo hp, ⟨rfl, rfl⟩,
    hpending, hreceive⟩

/-- Settles O9: the buffer is empty, so nothing is unwritten and no record is there. -/
theorem resetMeetsInvariants : Obligations.ResetMeetsInvariants := by
  intro p hp
  have hw : Written (State.resetWith p) := by simp [written_iff, resetWith_fifo hp]
  exact ⟨resetWith_inv hp, hw, framed_of_fifo_nil (resetWith_fifo hp), rfl, rfl⟩

end Sys2Proof.Machine
end

section
/-! The host's `EN_INGEST` and the notification of one frame are the same `ingest`, answered to different
agents (spec/20_memory.md R61, spec/60_exceptions.md R224 to R226). -/

namespace Sys2Proof.Machine

/-- The host's `EN_INGEST` answers the status to the host (R140). -/
theorem exec_enIngest {raw : List Byte} {s u : State} {st : Status} (h : ingest raw s = .ok (st, u)) :
    exec (.enIngest raw) s = .next (answer st [] u) := by
  simp only [exec, execEnIngest, h, ok_bind, pure_eq_ok, finish_ok]

/-- A boundary with one frame ingests it and answers the status to the ingest agent (R224). -/
theorem notify_one {raw : List Byte} {later : List (List (List Byte))} {s u : State} {st : Status}
    (h : ingest raw s = .ok (st, u)) :
    notify { s with arrivals := [raw] :: later } =
      .ok { s with
        store := u.store, wr := u.wr, arrivals := later, ingestOut := s.ingestOut ++ [st.code] } := by
  have hu := ingest_transport (s' := { s with arrivals := later }) h ⟨rfl, rfl, rfl, rfl⟩
  simp only [notify, ingestAll, hu, ok_bind]

/-- Settles O27: `ingest` answers under the cursor invariant, and depends on the ring buffer alone. -/
theorem notificationIsOneIngest : Obligations.NotificationIsOneIngest := by
  intro raw later s hc
  obtain ⟨u, hu, -, -⟩ := ingest_ok raw hc
  have hout : u.hostOut = s.hostOut := by obtain ⟨m, w, rfl⟩ := ingest_frame hu; rfl
  exact ⟨answer _ [] u, _, exec_enIngest hu, by rw [answer_hostOut, hout], notify_one (u := u) hu⟩

end Sys2Proof.Machine
end

section
/-! The decoder and the encoder of the request stream are inverse to each other
(spec/30_encoding.md R100 to R103). -/

namespace Sys2Proof

/-! ## Decoding what was encoded -/

/-- The command word at the front of the stream is read back (R100). -/
theorem decode_streamWord (w : Word) (bs : List Byte) : decode (streamWord w ++ bs) = decodeWord w bs := by
  show decodeWord (be16 (hiByte w) (loByte w)) bs = decodeWord w bs
  rw [be16_hiByte_loByte]

theorem decodeWord_commandWord (op : BitVec 4) (imm : Byte) (bs : List Byte) :
    decodeWord (commandWord op imm) bs = decodeOp op.toNat imm bs := by
  simp only [decodeWord, zeroField_commandWord, opField_commandWord, imm8_commandWord, if_true]

/-- A 16-bit length is carried without loss (R11). -/
theorem toNat_ofNat_length {bs : List Byte} (h : lengthFits bs = true) :
    (BitVec.ofNat 16 bs.length).toNat = bs.length := by
  rw [BitVec.toNat_ofNat, Nat.mod_eq_of_lt (of_decide_eq_true h)]

/-- The bytes behind a length split off where the counted bytes end (R101, R102). -/
theorem takeBytes_counted {bs : List Byte} (h : lengthFits bs = true) (rest : List Byte) :
    takeBytes (be16 (hiByte (BitVec.ofNat 16 bs.length)) (loByte (BitVec.ofNat 16 bs.length))).toNat
      (bs ++ rest) = some (bs, rest) := by
  rw [be16_hiByte_loByte, toNat_ofNat_length h, takeBytes_append]

theorem decodeIngest_counted {raw : List Byte} (h : lengthFits raw = true) (rest : List Byte) :
    decodeIngest 0 (countedBytes raw ++ rest) = .request (.enIngest raw) rest := by
  simp only [decodeIngest, countedBytes, streamWord, List.cons_append, List.nil_append,
    takeBytes_counted h, if_true]

/-- A 7-bit address in `IMM8` (R101). -/
theorem address_toNat_lt (a : Addr7) : (a.zeroExtend 8).toNat < 128 := by
  have hwiden : (a.zeroExtend 8).toNat = a.toNat % 256 := BitVec.toNat_setWidth 8 a
  omega

theorem address_low (a : Addr7) : (a.zeroExtend 8).extractLsb' 0 7 = a := by revert a; decide

theorem address_zeroExtend {imm : Byte} (h : imm.toNat < 128) :
    (imm.extractLsb' 0 7).zeroExtend 8 = imm := by revert imm; decide

theorem decodeSend_counted {payload : List Byte} (h : lengthFits payload = true) (dest : Addr7)
    (opcode : Byte) (rest : List Byte) :
    decodeSend (dest.zeroExtend 8) (opcode :: countedBytes payload ++ rest) =
      .request (.enSend dest opcode payload) rest := by
  simp only [decodeSend, countedBytes, streamWord, List.cons_append, List.nil_append,
    takeBytes_counted h, address_low, if_pos (address_toNat_lt dest)]

theorem decodeSetaddr_address (a : Addr7) (rest : List Byte) :
    decodeSetaddr (a.zeroExtend 8) rest = .request (.enSetaddr a) rest := by
  simp only [decodeSetaddr, address_low, if_pos (address_toNat_lt a)]

/-- The opcode map sends each operation's command word to the decoder of its operands (R101). -/
theorem decodeWord_encodeWord {i : Instr} (h : i.wf = true) (rest : List Byte) :
    decodeWord (encodeWord i) (encodeOperands i ++ rest) = .request i rest := by
  cases i with
  | rbInit cap => exact decodeWord_commandWord 0x0 cap rest
  | rbWrite b => exact decodeWord_commandWord 0x1 b rest
  | rbRead => exact decodeWord_commandWord 0x2 0 rest
  | rbPeek k => exact decodeWord_commandWord 0x3 k rest
  | rbEmpty => exact decodeWord_commandWord 0x4 0 rest
  | rbAvail => exact decodeWord_commandWord 0x5 0 rest
  | enIngest raw => exact (decodeWord_commandWord 0x8 0 _).trans (decodeIngest_counted h rest)
  | enSend dest opcode payload =>
    exact (decodeWord_commandWord 0x9 _ _).trans (decodeSend_counted h dest opcode rest)
  | enReceive => exact decodeWord_commandWord 0xA 0 rest
  | enPending => exact decodeWord_commandWord 0xB 0 rest
  | enCksum s f o i l => exact decodeWord_commandWord 0xC 0 _
  | enSetaddr a => exact (decodeWord_commandWord 0xD _ rest).trans (decodeSetaddr_address a rest)

/-- Settles O2: word and operands are read back one after the other. -/
theorem decodeOfEncode : Obligations.DecodeOfEncode := by
  intro i rest h
  rw [encode, List.append_assoc, decode_streamWord, decodeWord_encodeWord h]

/-! ## Encoding what was decoded -/

/-- `IMM8` under opcode `op` and the bytes `bs` behind the command word spell the operation `i`, with
`rest` left over. -/
structure Spells (op : Nat) (imm : Byte) (bs : List Byte) (i : Instr) (rest : List Byte) : Prop where
  word : encodeWord i = commandWord (BitVec.ofNat 4 op) imm
  operands : bs = encodeOperands i ++ rest
  wf : i.wf = true

theorem decodePlain_eq_request {imm : Byte} {i j : Instr} {bs rest : List Byte}
    (h : decodePlain imm i bs = .request j rest) : imm = 0 ∧ j = i ∧ rest = bs := by
  unfold decodePlain at h
  split at h
  · next h0 => cases h; exact ⟨h0, rfl, rfl⟩
  · cases h

/-- Bytes split off by a 16-bit length are the counted bytes, in their one spelling (R101, R102). -/
theorem takeBytes_eq_counted {b0 b1 : Byte} {more bs rest : List Byte}
    (h : takeBytes (be16 b0 b1).toNat more = some (bs, rest)) :
    b0 :: b1 :: more = countedBytes bs ++ rest ∧ lengthFits bs = true := by
  obtain ⟨rfl, hlen⟩ := takeBytes_eq_some h
  have hfits : lengthFits bs = true := decide_eq_true (hlen ▸ (be16 b0 b1).isLt)
  have hword : BitVec.ofNat 16 bs.length = be16 b0 b1 :=
    BitVec.eq_of_toNat_eq ((toNat_ofNat_length hfits).trans hlen)
  refine ⟨?_, hfits⟩
  rw [countedBytes, hword, streamWord, hiByte_be16, loByte_be16]
  rfl

theorem decodeIngest_spells {imm : Byte} {bs rest : List Byte} {i : Instr}
    (h : decodeIngest imm bs = .request i rest) : Spells 0x8 imm bs i rest := by
  unfold decodeIngest at h
  split at h
  · next himm =>
    split at h
    · split at h
      · next htake =>
        cases h
        obtain ⟨hbytes, hfits⟩ := takeBytes_eq_counted htake
        exact ⟨himm ▸ rfl, hbytes, hfits⟩
      · cases h
    · cases h
  · cases h

theorem decodeSend_spells {imm : Byte} {bs rest : List Byte} {i : Instr}
    (h : decodeSend imm bs = .request i rest) : Spells 0x9 imm bs i rest := by
  unfold decodeSend at h
  split at h
  · next himm =>
    split at h
    · split at h
      · next htake =>
        cases h
        obtain ⟨hbytes, hfits⟩ := takeBytes_eq_counted htake
        exact ⟨congrArg (commandWord 0x9) (address_zeroExtend himm), congrArg (_ :: ·) hbytes, hfits⟩
      · cases h
    · cases h
  · cases h

theorem decodeCksum_spells {imm : Byte} {bs rest : List Byte} {i : Instr}
    (h : decodeCksum imm bs = .request i rest) : Spells 0xC imm bs i rest := by
  unfold decodeCksum at h
  split at h
  · next himm =>
    split at h
    · cases h; exact ⟨himm ▸ rfl, rfl, rfl⟩
    · cases h
  · cases h

theorem decodeSetaddr_spells {imm : Byte} {bs rest : List Byte} {i : Instr}
    (h : decodeSetaddr imm bs = .request i rest) : Spells 0xD imm bs i rest := by
  unfold decodeSetaddr at h
  split at h
  · next himm => cases h; exact ⟨congrArg (commandWord 0xD) (address_zeroExtend himm), rfl, rfl⟩
  · cases h

theorem decodeOp_spells {op : Nat} {imm : Byte} {bs rest : List Byte} {i : Instr}
    (h : decodeOp op imm bs = .request i rest) : Spells op imm bs i rest := by
  match op with
  | 0x0 | 0x1 | 0x3 => cases h; exact ⟨rfl, rfl, rfl⟩
  | 0x2 | 0x4 | 0x5 | 0xA | 0xB =>
    obtain ⟨rfl, rfl, rfl⟩ := decodePlain_eq_request h
    exact ⟨rfl, rfl, rfl⟩
  | 0x8 => exact decodeIngest_spells h
  | 0x9 => exact decodeSend_spells h
  | 0xC => exact decodeCksum_spells h
  | 0xD => exact decodeSetaddr_spells h
  | 0x6 | 0x7 | 0xE | 0xF | _ + 16 => cases h

/-- A legal word is the command word of the operation it decodes to (R100, R101). -/
theorem decodeWord_eq_request {w : Word} {bs rest : List Byte} {i : Instr}
    (h : decodeWord w bs = .request i rest) :
    encodeWord i = w ∧ bs = encodeOperands i ++ rest ∧ i.wf = true := by
  unfold decodeWord at h
  split at h
  · next hzero =>
    obtain ⟨hword, hoperands, hwf⟩ := decodeOp_spells h
    refine ⟨?_, hoperands, hwf⟩
    rw [hword, BitVec.ofNat_toNat, BitVec.setWidth_eq, commandWord_fields hzero]
  · cases h

/-- Settles O3: what `decodeWord` inverts to, with the two bytes of the word put in front. -/
theorem encodeOfDecode : Obligations.EncodeOfDecode := by
  intro bs rest i h
  unfold decode at h
  split at h
  · obtain ⟨hword, rfl, hwf⟩ := decodeWord_eq_request h
    refine ⟨?_, hwf⟩
    rw [encode, hword, streamWord, hiByte_be16, loByte_be16, List.append_assoc]
    rfl
  · cases h

/-- Settles O1, by running the decoder on the seven streams. -/
theorem writtenWordsDecode : Obligations.WrittenWordsDecode := by
  unfold Obligations.WrittenWordsDecode
  decide

end Sys2Proof
end

section
/-! The illegal words, and what a step does with the front of the request stream
(spec/30_encoding.md R100, R103; spec/20_memory.md R60, R62). -/

namespace Sys2Proof

/-! ## The illegal words -/

/-- A decoder that tests `IMM8` first, and behind that test finds no more illegal words, passes over
nothing but the word (R103). -/
theorem ite_eq_illegal {c : Prop} [Decidable c] {d : Decoded} {cause why : IllegalWord}
    {bs rest : List Byte} (hd : ∀ why rest, d ≠ .illegal why rest) :
    (if c then d else .illegal cause bs) = .illegal why rest ↔ ¬c ∧ why = cause ∧ rest = bs := by
  split
  · next hc => simp [hd, hc]
  · next hc => simp [hc, eq_comm]

theorem decodePlain_eq_illegal {imm : Byte} {i : Instr} {bs rest : List Byte} {why : IllegalWord} :
    decodePlain imm i bs = .illegal why rest ↔ imm ≠ 0 ∧ why = .immediateSet ∧ rest = bs :=
  ite_eq_illegal fun _ _ h => by cases h

theorem decodeIngest_eq_illegal {imm : Byte} {bs rest : List Byte} {why : IllegalWord} :
    decodeIngest imm bs = .illegal why rest ↔ imm ≠ 0 ∧ why = .immediateSet ∧ rest = bs :=
  ite_eq_illegal fun _ _ h => by
    split at h
    · split at h <;> cases h
    · cases h

theorem decodeSend_eq_illegal {imm : Byte} {bs rest : List Byte} {why : IllegalWord} :
    decodeSend imm bs = .illegal why rest ↔
      ¬imm.toNat < 128 ∧ why = .addressAbove127 ∧ rest = bs :=
  ite_eq_illegal fun _ _ h => by
    split at h
    · split at h <;> cases h
    · cases h

theorem decodeCksum_eq_illegal {imm : Byte} {bs rest : List Byte} {why : IllegalWord} :
    decodeCksum imm bs = .illegal why rest ↔ imm ≠ 0 ∧ why = .immediateSet ∧ rest = bs :=
  ite_eq_illegal fun _ _ h => by split at h <;> cases h

theorem decodeSetaddr_eq_illegal {imm : Byte} {bs rest : List Byte} {why : IllegalWord} :
    decodeSetaddr imm bs = .illegal why rest ↔
      ¬imm.toNat < 128 ∧ why = .addressAbove127 ∧ rest = bs :=
  ite_eq_illegal fun _ _ h => by cases h

/-- What R103 calls illegal in the fields `OP` and `IMM8`. -/
def BadFields (op : Nat) (imm : Byte) (why : IllegalWord) : Prop :=
  (op ∈ [0x6, 0x7, 0xE, 0xF] ∧ why = .reservedOp) ∨
  ((imm ≠ 0 ∧ op ∈ [0x2, 0x4, 0x5, 0x8, 0xA, 0xB, 0xC]) ∧ why = .immediateSet) ∨
  ((¬imm.toNat < 128 ∧ op ∈ [0x9, 0xD]) ∧ why = .addressAbove127)

theorem decodeOp_eq_illegal {op : Nat} (hop : op < 16) {imm : Byte} {bs rest : List Byte}
    {why : IllegalWord} :
    decodeOp op imm bs = .illegal why rest ↔ BadFields op imm why ∧ rest = bs := by
  match op with
  | 0x0 | 0x1 | 0x3 => simp [decodeOp, BadFields]
  | 0x2 | 0x4 | 0x5 | 0xA | 0xB => simp [decodeOp, BadFields, decodePlain_eq_illegal, and_assoc]
  | 0x6 | 0x7 | 0xE | 0xF => simp [decodeOp, BadFields, @eq_comm _ why, @eq_comm _ rest]
  | 0x8 => simp [decodeOp, BadFields, decodeIngest_eq_illegal, and_assoc]
  | 0x9 => simp [decodeOp, BadFields, decodeSend_eq_illegal, and_assoc]
  | 0xC => simp [decodeOp, BadFields, decodeCksum_eq_illegal, and_assoc]
  | 0xD => simp [decodeOp, BadFields, decodeSetaddr_eq_illegal, and_assoc]
  | _ + 16 => omega

theorem decodeWord_eq_illegal {w : Word} {bs rest : List Byte} {why : IllegalWord} :
    decodeWord w bs = .illegal why rest ↔
      ((zeroField w ≠ 0 ∧ why = .zeroFieldSet) ∨
        (zeroField w = 0 ∧ BadFields (opField w).toNat (imm8 w) why)) ∧ rest = bs := by
  unfold decodeWord
  split
  · next hzero => simp [hzero, decodeOp_eq_illegal (opField w).isLt]
  · next hzero =>
    simp only [hzero, Decoded.illegal.injEq, ne_eq, not_false_eq_true, true_and, false_and, or_false,
      eq_comm]

/-- R103's list, in numbers. -/
theorem exists_decodeWord_eq_illegal (w : Word) (bs : List Byte) :
    (∃ why rest, decodeWord w bs = .illegal why rest) ↔
      w.toNat / 4096 ∈ [0x6, 0x7, 0xE, 0xF] ∨ w.toNat / 256 % 16 ≠ 0 ∨
      (w.toNat % 256 ≠ 0 ∧ w.toNat / 4096 ∈ [0x2, 0x4, 0x5, 0x8, 0xA, 0xB, 0xC]) ∨
      (128 ≤ w.toNat % 256 ∧ w.toNat / 4096 ∈ [0x9, 0xD]) := by
  have hzero : zeroField w = 0 ↔ w.toNat / 256 % 16 = 0 := by
    rw [← BitVec.toNat_inj, zeroField_toNat]; rfl
  have himm : imm8 w = 0 ↔ w.toNat % 256 = 0 := by rw [← BitVec.toNat_inj, imm8_toNat]; rfl
  simp only [decodeWord_eq_illegal, BadFields, opField_toNat, imm8_toNat, ne_eq, hzero, himm,
    exists_and_left, exists_eq, exists_or, and_true, Nat.not_lt]
  tauto

end Sys2Proof

namespace Sys2Proof.Machine

/-! ## The step -/

/-- The notifications of a boundary leave the host's stream alone (R61). -/
theorem fetch_of_notify {s s' : State} (h : notify s = .ok s') : fetch s' = decode s.hostIn :=
  congrArg decode (notify_progress h).kept.hostIn

/-- Settles O5: the boundary does not touch the stream, so the request is the same behind it. -/
theorem stepRunsDecodedRequest : Obligations.StepRunsDecodedRequest := by
  intro s s' i rest hnotify hdecode
  have hfetch : fetch s' = .request i rest := (fetch_of_notify hnotify).trans hdecode
  simp only [step, hnotify, hfetch]
  rfl

/-- A step over an illegal word (R103). -/
theorem step_of_illegal {s s' : State} {why : IllegalWord} {rest : List Byte}
    (hnotify : notify s = .ok s') (hdecode : decode s.hostIn = .illegal why rest) :
    step s = .next (answerIllegal rest s') := by
  have hfetch : fetch s' = .illegal why rest := (fetch_of_notify hnotify).trans hdecode
  simp only [step, hnotify, hfetch]

/-- Settles O4: R103's list for the word, and the step over it. -/
theorem illegalWordsAreThoseOfR103 : Obligations.IllegalWordsAreThoseOfR103 := by
  refine ⟨fun w rest => ⟨(exists_decodeWord_eq_illegal w rest).symm, fun why rest' h => ?_⟩,
    fun s s' why rest hnotify hdecode => ?_⟩
  · exact (decodeWord_eq_illegal.1 h).2
  · exact step_of_illegal hnotify hdecode

end Sys2Proof.Machine
end

section
/-! The frames an `EN_SEND` hands to the bus fit it (spec/30_encoding.md R86, R87;
spec/42_send.md R164). -/

namespace Sys2Proof.Machine

open Sys2Proof.Config

/-- What R87 asks of a transmission: the destination, and a length that is a multiple of 4 from 8 to
`MAX_BUS_PAYLOAD`. -/
def FitsBus (p : Params) (dest : Addr7) (sent : Addr7 × List Byte) : Prop :=
  sent.1 = dest ∧ sent.2.length % 4 = 0 ∧ 8 ≤ sent.2.length ∧ sent.2.length ≤ p.maxBusPayload

/-- A frame is as long as R86 says. -/
theorem frameBytes_length (sender flag opcode id : Byte) (payload : List Byte) :
    (frameBytes sender flag opcode id payload).length = frameLen payload.length := by
  simp only [frameBytes, headerBytes, streamWord, frameLen, headerSize, List.length_append,
    List.length_cons, List.length_nil, List.length_replicate]

/-- `FRAMELEN` is the least multiple of 4 that holds the header and the payload (R86). -/
theorem frameLen_eq (plen : Nat) : frameLen plen = (plen + 10) / 4 * 4 := by
  simp only [frameLen, pad, headerSize, align]
  omega

/-- A chunk of at most `MAX_CHUNK` bytes makes a frame that fits, since `MAX_BUS_PAYLOAD` is itself a
multiple of 4 (R8, R87). -/
theorem frameLen_fits {p : Params} (hp : p.Ok) {plen : Nat} (h : plen ≤ p.maxChunk) :
    frameLen plen % 4 = 0 ∧ 8 ≤ frameLen plen ∧ frameLen plen ≤ p.maxBusPayload := by
  obtain ⟨hmod, hmin, -⟩ := hp
  simp only [Params.maxChunk, headerSize] at h
  rw [frameLen_eq]
  omega

theorem sendFrame_fits (dest : Addr7) (opcode : Byte) (payload : List Byte) {s : State}
    (hp : s.params.Ok) : FitsBus s.params dest (dest, sendFrame opcode payload s) := by
  have hchunk : ((payload.drop s.tx.off).take s.params.maxChunk).length ≤ s.params.maxChunk :=
    List.length_take_le _ _
  have hlen := frameLen_fits hp hchunk
  rw [← frameBytes_length s.ownAddr _ opcode s.msgId] at hlen
  exact ⟨rfl, hlen⟩

/-- The loop of `EN_SEND` appends to what the bus was handed, and only frames that fit it. -/
theorem sendLoop_sent_fit {dest : Addr7} {opcode : Byte} {payload : List Byte} {n : Nat} {s t : State}
    (hp : s.params.Ok) (h : sendLoop dest opcode payload n s = .ok t) :
    ∃ sent, t.busOut = s.busOut ++ sent ∧ ∀ x ∈ sent, FitsBus s.params dest x := by
  induction n generalizing s with
  | zero => cases h; exact ⟨[], (List.append_nil _).symm, by simp⟩
  | succ n ih =>
    obtain ⟨u, hnotify, hloop⟩ := bind_eq_ok.1 h
    rw [sendFragment_eq] at hnotify
    have hkept := (notify_progress hnotify).kept
    have hparams : u.params = s.params := hkept.params
    have hbus : u.busOut = s.busOut ++ [(dest, sendFrame opcode payload s)] := hkept.busOut
    obtain ⟨sent, hsent, hfit⟩ := ih (hparams ▸ hp) hloop
    rw [hparams] at hfit
    refine ⟨(dest, sendFrame opcode payload s) :: sent, by rw [hsent, hbus, List.append_assoc]; rfl, ?_⟩
    exact List.forall_mem_cons.2 ⟨sendFrame_fits dest opcode payload hp, hfit⟩

/-- Settles O35: the loop starts with the parameters and the stream of the request's state. -/
theorem sendFramesFitTheBus : Obligations.SendFramesFitTheBus := by
  intro dest opcode payload s t hinv hexec
  cases exec_did hexec with
  | enSend hloop =>
    obtain ⟨sent, hsent, hfit⟩ := sendLoop_sent_fit (s := sendStart payload s) hinv.params hloop
    rw [sendEnd_busOut, hsent, sendStart_busOut, List.drop_left]
    exact hfit

end Sys2Proof.Machine
end

section
/-! The fields of the flag byte in numbers (spec/30_encoding.md R81, R82, R84; spec/43_receive.md R185,
R190). -/

namespace Sys2Proof.Machine

theorem frag_toNat (f : Byte) : (frag f).toNat = f.toNat % 4 := by simp [frag]

theorem rsv_toNat (f : Byte) : (rsv f).toNat = f.toNat / 4 % 4 := by
  simp [rsv, Nat.shiftRight_eq_div_pow]

theorem mkFlag_toNat (t : BitVec 4) (g : BitVec 2) : (mkFlag t g).toNat = 16 * t.toNat + g.toNat := by
  revert t g; decide

/-- Only `NOT_FRAGMENTED` and `END` end a drain; value 3 does not (R84, R185). -/
theorem terminates_iff (f : Byte) : terminates f = true ↔ f.toNat % 4 = 0 ∨ f.toNat % 4 = 2 := by
  rw [← endsMessage_eq, endsMessage, Bool.or_eq_true, decide_eq_true_iff, decide_eq_true_iff]

theorem forceEnd_toNat (f : Byte) : (forceEnd f).toNat = f.toNat / 4 * 4 + 2 := by
  have := f.isLt
  rw [← forceEnd_eq, BitVec.toNat_ofNat]
  omega

/-- Below the largest TTL, one more does not overflow the field (R190). -/
theorem requeueFlag_toNat {f : Byte} (h : f.toNat / 16 < 15) :
    (mkFlag (ttl f + 1) (frag f)).toNat = 16 * (f.toNat / 16 + 1) + f.toNat % 4 := by
  rw [← requeueFlag_eq, BitVec.toNat_ofNat]
  omega

/-- Settles O47, field by field. -/
theorem flagFieldsInNumbers : Obligations.FlagFieldsInNumbers := fun f t g =>
  ⟨frag_toNat f, rsv_toNat f, ttl_toNat f, mkFlag_toNat t g, terminates_iff f, forceEnd_toNat f,
    requeueFlag_toNat⟩

end Sys2Proof.Machine
end

section
/-! The six ring buffer operations as requests of the host agent: their command words, what each answers
and what it leaves unchanged (spec/30_encoding.md R101; spec/40_ring_buffer.md R121 to R126). -/

namespace Sys2Proof

/-- A command word written as a number: the opcode's digit in front of `IMM8` (R100). -/
theorem decodeWord_ofNat (op : BitVec 4) (imm : Byte) (rest : List Byte) :
    decodeWord (BitVec.ofNat 16 (op.toNat * 4096 + imm.toNat)) rest = decodeOp op.toNat imm rest := by
  rw [← commandWord_toNat, BitVec.ofNat_toNat, BitVec.setWidth_eq, decodeWord_commandWord]

end Sys2Proof

namespace Sys2Proof.Machine

open Sys2Proof.Config

/-! ## From the operation to the request -/

/-- The converse of `exec_did`: an operation that did what its row says has answered. -/
theorem Did.exec_eq {i : Instr} {s t : State} (h : Did s i t) : exec i s = .next t := by
  cases h with
  | rbInit cap => rfl
  | rbWrite h => simp only [exec, execRbWrite, h, ok_bind, pure_eq_ok, finish_ok]
  | rbRead h => simp only [exec, execRbRead, h, ok_bind, pure_eq_ok, finish_ok]
  | rbPeek h => simp only [exec, execRbPeek, h, ok_bind, pure_eq_ok, finish_ok]
  | rbEmpty => rfl
  | rbAvail => rfl
  | enIngest h => exact exec_enIngest h
  | enSend h => simp only [exec, execEnSend, h, ok_bind, pure_eq_ok, finish_ok]
  | enReceiveEmpty h => exact exec_enReceive_empty h
  | enReceive he h => rw [exec_enReceive_notEmpty he, h, finish_ok]
  | enPending => rfl
  | enCksum sender flag opcode id length => rfl
  | enSetaddr a => rfl

/-- A request for a byte from an empty buffer is U1. -/
theorem exec_rbRead_empty {s : State} (he : isEmpty s = true) :
    exec .rbRead s = .fault .readEmpty := by
  simp only [exec, execRbRead, rbRead_empty he, error_bind, finish_error]

/-! ## `RB_PEEK` inside and outside the occupied range -/

/-- The offset counts modulo `SLOTS` (R124). -/
theorem rbPeek_mod (k : Nat) (s : State) : rbPeek (k % s.slots.toNat) s = rbPeek k s := by
  unfold rbPeek peekSlot
  rw [Nat.mod_mod, Nat.add_mod_mod]

theorem rbPeek_stored {k : Nat} {s : State} {v : Byte} (hc : Cursors s)
    (hk : k % s.slots.toNat < occupied s) (hv : memRead s.store (peekSlot s k) = some v) :
    rbPeek k s = .ok (v, s) := by
  rw [rbPeek, if_pos hk, load_some (peekSlot_exists hc k) hv]

/-- Outside the occupied range a peek answers a free value (U5). -/
theorem rbPeek_unoccupied {k : Nat} {s : State} (hc : Cursors s)
    (hk : occupied s ≤ k % s.slots.toNat) : rbPeek k s = .ok (drawByte s) := by
  rw [rbPeek, if_neg (Nat.not_lt.2 hk), if_pos (peekSlot_exists hc k)]

/-! ## `RB_INIT` -/

/-- The clamped capacity and one more slot fit the register (R25, R121). -/
theorem rbInit_slots_toNat (cap : Byte) (s : State) :
    (rbInit cap s).slots.toNat = min cap.toNat 254 + 1 := by
  rw [rbInit_slots, BitVec.toNat_ofNat, rbCapMax]
  omega

theorem occupied_rbInit (cap : Byte) (s : State) : occupied (rbInit cap s) = 0 := by
  rw [← fifo_length, fifo_rbInit, List.length_nil]

/-- A buffer of capacity 0 has no free space, although it is empty (R121). -/
theorem freeSpace_rbInit_zero (s : State) : freeSpace (rbInit 0 s) = 0 := by
  have hslots : (rbInit 0 s).slots.toNat = 1 := rbInit_slots_toNat 0 s
  rw [freeSpace, hslots]
  omega

/-- Settles O14: the buffer after `RB_INIT` is empty, so every peek falls outside the occupied range; with
capacity 0 it is full as well. -/
theorem rbInitSetsCursors : Obligations.RbInitSetsCursors := by
  intro cap s
  have hc : Cursors (answer .ok [] (rbInit cap s)) := cursors_rbInit cap s
  have hocc : occupied (answer .ok [] (rbInit cap s)) = 0 := occupied_rbInit cap s
  refine ⟨decodeWord_ofNat 0x0 cap, answer .ok [] (rbInit cap s), rfl, rfl, rbInit_slots_toNat cap s, hc,
    fifo_rbInit cap s, fun k => ?_, ?_⟩
  · exact (Did.rbPeek (rbPeek_unoccupied hc (hocc ▸ Nat.zero_le _))).exec_eq
  · rintro rfl
    have hfree : freeSpace (answer .ok [] (rbInit 0 s)) = 0 := freeSpace_rbInit_zero s
    refine ⟨fun b => (Did.rbWrite (rbWrite_full ((isFull_iff_freeSpace hc).2 hfree))).exec_eq, ?_⟩
    rw [Did.rbAvail.exec_eq, hfree]
    rfl

/-! ## The other five -/

/-- Settles O15, by the two outcomes of `rbWrite`. -/
theorem rbWriteStoresOrRefuses : Obligations.RbWriteStoresOrRefuses := by
  intro b s hc
  refine ⟨decodeWord_ofNat 0x1 b, fun hfull => ?_, fun hfull => ?_⟩
  · exact (Did.rbWrite (rbWrite_full (decide_eq_true hfull))).exec_eq
  · exact ⟨_, (Did.rbWrite (rbWrite_notFull hc (decide_eq_false hfull))).exec_eq, rfl,
      memRead_memWrite_same _ _ b, fun a ha => memRead_memWrite_other _ b ha⟩

/-- Settles O16: under the cursor invariant only the empty buffer stops a read. -/
theorem rbReadTakesOldestByte : Obligations.RbReadTakesOldestByte := by
  intro s hc
  refine ⟨decodeWord_commandWord 0x2 0, fun he => exec_rbRead_empty (isEmpty_iff.2 he), fun he => ?_⟩
  obtain ⟨v, t, hread⟩ := rbRead_ok hc (decide_eq_false he)
  obtain ⟨-, n, rfl, hbyte⟩ := rbRead_cases hread
  refine ⟨v, n, (Did.rbRead hread).exec_eq, fun b hb => ?_⟩
  rcases hbyte with ⟨hv, hn⟩ | ⟨hv, -, -⟩
  · exact ⟨Option.some.inj (hv.symm.trans hb), hn⟩
  · cases hv.symm.trans hb

/-- Settles O17: a peek never stops, and over a stored byte it is a load of that byte. -/
theorem rbPeekReadsWithoutAdvancing : Obligations.RbPeekReadsWithoutAdvancing := by
  intro k s hc
  obtain ⟨v, t, hpeek⟩ := rbPeek_ok k.toNat hc
  obtain ⟨n, rfl, -⟩ := rbPeek_cases hpeek
  have hmod : (BitVec.ofNat 8 (k.toNat % s.slots.toNat)).toNat = k.toNat % s.slots.toNat :=
    (BitVec.toNat_ofNat ..).trans (Nat.mod_eq_of_lt (Nat.lt_of_le_of_lt (Nat.mod_le _ _) k.isLt))
  refine ⟨decodeWord_ofNat 0x3 k, ?_, v, n, (Did.rbPeek hpeek).exec_eq, fun b hk hb => ?_⟩
  · simp only [exec, execRbPeek, hmod, rbPeek_mod]
  · have hsame := hpeek.symm.trans (rbPeek_stored hc hk hb)
    simp only [Except.ok.injEq, Prod.mk.injEq] at hsame
    exact ⟨hsame.1, congrArg State.freeCount hsame.2⟩

/-- Settles O18: the flag is the comparison of the cursors. -/
theorem rbEmptyTestsCursors : Obligations.RbEmptyTestsCursors := by
  intro s
  have hflag : boolByte (isEmpty s) = if s.rd = s.wr then 1 else 0 := by
    simp only [boolByte, isEmpty_iff]
  refine ⟨decodeWord_commandWord 0x4 0, ?_⟩
  rw [Did.rbEmpty.exec_eq, hflag]
  rfl

/-- *empty* is a free space of `SLOTS - 1` (R126). -/
theorem isEmpty_iff_freeSpace {s : State} (hc : Cursors s) :
    isEmpty s = true ↔ freeSpace s = s.slots.toNat - 1 := by
  have hsum := freeSpace_add_occupied hc
  rw [isEmpty_iff_occupied hc]
  omega

/-- Settles O19: the free space fits one byte, and *full* and *empty* are its two ends. -/
theorem rbAvailAnswersFreeSpace : Obligations.RbAvailAnswersFreeSpace := by
  intro s hc
  have hfits := freeSpace_le (s := s)
  have hbyte : (BitVec.ofNat 8 (freeSpace s)).toNat = freeSpace s :=
    (BitVec.toNat_ofNat ..).trans (Nat.mod_eq_of_lt (Nat.lt_of_le_of_lt hfits (by decide)))
  refine ⟨decodeWord_commandWord 0x5 0, BitVec.ofNat 8 (freeSpace s), Did.rbAvail.exec_eq, ?_⟩
  rw [hbyte, ← isEmpty_iff, isEmpty_iff_freeSpace hc, ← isFull_iff_freeSpace hc]
  exact ⟨rfl, hfits, decide_eq_true_iff, Iff.rfl⟩

end Sys2Proof.Machine
end

section
/-! The ring buffer is a bounded queue, wherever its cursors stand (spec/40_ring_buffer.md R127, R129). -/

namespace Sys2Proof.Machine

/-! ## The conditions on the queue -/

theorem Holds.freeSpace_eq {s : State} {q : List Byte} (h : Holds s q) :
    freeSpace s = s.slots.toNat - 1 - q.length := by rw [freeSpace, h.length]

theorem Holds.isEmpty_iff {s : State} {q : List Byte} (hc : Cursors s) (h : Holds s q) :
    isEmpty s = true ↔ q.length = 0 := by rw [isEmpty_iff_occupied hc, h.length]

/-- A write is accepted when the queue is shorter than the capacity (R127). -/
theorem Holds.isFull_iff {s : State} {q : List Byte} (hc : Cursors s) (h : Holds s q) :
    isFull s = true ↔ ¬ q.length < s.slots.toNat - 1 := by
  rw [isFull_iff_freeSpace hc, h.freeSpace_eq]
  omega

/-! ## One operation -/

/-- From `s` to `t` the bytes `out` were answered, `t` holds the queue `q` in `slots` slots, and the
engine's registers and its bus are as they were. -/
structure QueueStep (s t : State) (out : List Byte) (slots : Nat) (q : List Byte) : Prop where
  answered : t.hostOut = s.hostOut ++ out
  cursors : Cursors t
  slots : t.slots.toNat = slots
  holds : Holds t q
  msgId : t.msgId = s.msgId
  ownAddr : t.ownAddr = s.ownAddr
  busOut : t.busOut = s.busOut

theorem QueueStep.refl {s : State} {q : List Byte} (hc : Cursors s) (hq : Holds s q) :
    QueueStep s s [] s.slots.toNat q :=
  ⟨(List.append_nil _).symm, hc, rfl, hq, rfl, rfl, rfl⟩

theorem QueueStep.trans {s t u : State} {out out' q q' : List Byte} {slots slots' : Nat}
    (h : QueueStep s t out slots q) (h' : QueueStep t u out' slots' q') :
    QueueStep s u (out ++ out') slots' q' where
  answered := by rw [h'.answered, h.answered, List.append_assoc]
  cursors := h'.cursors
  slots := h'.slots
  holds := h'.holds
  msgId := h'.msgId.trans h.msgId
  ownAddr := h'.ownAddr.trans h.ownAddr
  busOut := h'.busOut.trans h.busOut

/-- An answer over an unchanged ring buffer leaves the queue as it is. -/
theorem QueueStep.unchanged {s : State} {q : List Byte} (hc : Cursors s) (hq : Holds s q) (st : Status)
    (bs : List Byte) : QueueStep s (answer st bs s) (st.code :: bs) s.slots.toNat q :=
  ⟨rfl, hc, rfl, hq, rfl, rfl, rfl⟩

/-- One ring buffer operation within the preconditions does to the ring buffer what it does to the queue
(R127). -/
theorem exec_queueOp {i : Instr} {s : State} {q out q' : List Byte} {slots' : Nat} (hc : Cursors s)
    (hq : Holds s q) (h : queueOp i s.slots.toNat q = some (out, slots', q')) :
    ∃ t, exec i s = .next t ∧ QueueStep s t out slots' q' := by
  cases i with
  | rbInit cap =>
    cases h
    exact ⟨_, (Did.rbInit cap).exec_eq, rfl, cursors_rbInit cap s, rbInit_slots_toNat cap s,
      fifo_rbInit cap s, rfl, rfl, rfl⟩
  | rbWrite b =>
    by_cases hfull : isFull s = true
    · rw [queueOp, if_neg ((hq.isFull_iff hc).1 hfull)] at h
      cases h
      exact ⟨_, (Did.rbWrite (rbWrite_full hfull)).exec_eq, .unchanged hc hq .rbFull []⟩
    · rw [queueOp, if_pos (not_not.1 (mt (hq.isFull_iff hc).2 hfull))] at h
      cases h
      have hspace : isFull s = false := Bool.eq_false_iff.2 hfull
      exact ⟨_, (Did.rbWrite (rbWrite_notFull hc hspace)).exec_eq, rfl, ⟨hc.1, advance_lt hc.2⟩, rfl,
        hq.write hc b hspace, rfl, rfl, rfl⟩
  | rbRead =>
    cases q with
    | nil => cases h
    | cons b q =>
      cases h
      obtain ⟨hread, hrest⟩ := hq.read hc
      exact ⟨_, (Did.rbRead hread).exec_eq, rfl, ⟨advance_lt hc.1, hc.2⟩, rfl, hrest, rfl, rfl, rfl⟩
  | rbPeek k =>
    obtain ⟨b, hb, heq⟩ := Option.map_eq_some_iff.1 h
    cases heq
    obtain ⟨hlt, rfl⟩ := List.getElem?_eq_some_iff.1 hb
    have hpeek := hq.peek hc hlt
    rw [rbPeek_mod] at hpeek
    exact ⟨_, (Did.rbPeek hpeek).exec_eq, .unchanged hc hq .ok _⟩
  | rbEmpty =>
    have hflag : boolByte (isEmpty s) = if q.length = 0 then 1 else 0 := by
      simp only [boolByte, hq.isEmpty_iff hc]
    rw [queueOp, ← hflag] at h
    cases h
    exact ⟨_, Did.rbEmpty.exec_eq, .unchanged hc hq .ok _⟩
  | rbAvail =>
    rw [queueOp, ← hq.freeSpace_eq] at h
    cases h
    exact ⟨_, Did.rbAvail.exec_eq, .unchanged hc hq .ok _⟩
  | enIngest raw => cases h
  | enSend dest opcode payload => cases h
  | enReceive => cases h
  | enPending => cases h
  | enCksum sender flag opcode id length => cases h
  | enSetaddr a => cases h

/-! ## Any number of operations -/

/-- A run on the queue is its first operation and a run on what that left. -/
theorem queueRun_cons {i : Instr} {more : List Instr} {slots slots' : Nat} {q out q' : List Byte}
    (h : queueRun (i :: more) slots q = some (out, slots', q')) :
    ∃ first mid rest q₁, queueOp i slots q = some (first, mid, q₁) ∧
      queueRun more mid q₁ = some (rest, slots', q') ∧ out = first ++ rest := by
  unfold queueRun at h
  split at h
  · cases h
  · next first mid q₁ hop =>
    split at h
    · cases h
    · next rest last hrun =>
      cases h
      exact ⟨first, mid, rest, q₁, hop, hrun, rfl⟩

theorem execAll_cons {i : Instr} {s t : State} (h : exec i s = .next t) (more : List Instr) :
    execAll (i :: more) s = execAll more t := by simp only [execAll, h]

/-- R127 for a sequence: each operation leaves a ring buffer that holds the queue the next one starts from. -/
theorem execAll_queueRun {is : List Instr} {s : State} {q out q' : List Byte} {slots' : Nat}
    (hc : Cursors s) (hq : Holds s q) (h : queueRun is s.slots.toNat q = some (out, slots', q')) :
    ∃ t, execAll is s = .next t ∧ QueueStep s t out slots' q' := by
  induction is generalizing s q out with
  | nil => cases h; exact ⟨s, rfl, .refl hc hq⟩
  | cons i more ih =>
    obtain ⟨first, mid, rest, q₁, hop, hrun, rfl⟩ := queueRun_cons h
    obtain ⟨u, hu, hfirst⟩ := exec_queueOp hc hq hop
    obtain ⟨t, ht, hrest⟩ := ih hfirst.cursors hfirst.holds (hfirst.slots ▸ hrun)
    exact ⟨t, (execAll_cons hu more).trans ht, hfirst.trans hrest⟩

/-- Settles O20, operation by operation. -/
theorem ringBufferRefinesQueue : Obligations.RingBufferRefinesQueue := by
  intro is s q out q' slots' hc hq h
  obtain ⟨t, ht, hrun⟩ := execAll_queueRun hc hq h
  exact ⟨t, ht, hrun.answered, hrun.cursors, hrun.slots, hrun.holds, hrun.msgId, hrun.ownAddr,
    hrun.busOut⟩

/-- Settles O21: both ring buffers refine the same queue. -/
theorem wraparoundIsInvisible : Obligations.WraparoundIsInvisible := by
  intro is s s' q out last hc hc' hslots hq hq' h
  obtain ⟨t, ht, hrun⟩ := execAll_queueRun hc hq h
  obtain ⟨t', ht', hrun'⟩ := execAll_queueRun hc' hq' (hslots ▸ h)
  exact ⟨t, t', ht, ht', hrun.answered, hrun'.answered⟩

end Sys2Proof.Machine
end

section
/-! `EN_INGEST` as a request of the host agent: its admission tests in their order, the dropped frame and
the record stored for an admitted one (spec/41_ingest.md R140 to R148). -/

namespace Sys2Proof

/-- The operand of `EN_INGEST` written in numbers: the 16-bit length, high byte first, then the raw bytes
(R101). -/
theorem countedBytes_eq (bs : List Byte) :
    countedBytes bs = BitVec.ofNat 8 (bs.length / 256) :: BitVec.ofNat 8 (bs.length % 256) :: bs := by
  have hhi : hiByte (BitVec.ofNat 16 bs.length) = BitVec.ofNat 8 (bs.length / 256) := by
    apply BitVec.eq_of_toNat_eq
    rw [hiByte_toNat, BitVec.toNat_ofNat, BitVec.toNat_ofNat]
    omega
  have hlo : loByte (BitVec.ofNat 16 bs.length) = BitVec.ofNat 8 (bs.length % 256) := by
    apply BitVec.eq_of_toNat_eq
    rw [loByte_toNat, BitVec.toNat_ofNat, BitVec.toNat_ofNat]
    omega
  rw [countedBytes, streamWord, hhi, hlo]
  rfl

/-- The request `EN_INGEST raw` on the stream (R101). -/
theorem decodeWord_enIngest {raw : List Byte} (h : raw.length < 65536) (rest : List Byte) :
    decodeWord 0x8000 (BitVec.ofNat 8 (raw.length / 256) :: BitVec.ofNat 8 (raw.length % 256) ::
      (raw ++ rest)) = .request (.enIngest raw) rest := by
  have hspelled := decodeWord_encodeWord (i := .enIngest raw) (decide_eq_true h) rest
  rwa [encodeOperands, countedBytes_eq] at hspelled

end Sys2Proof

namespace Sys2Proof.Machine

open Sys2Proof.Config

/-! ## The two ends of an `EN_INGEST` -/

theorem Status.code_ne_zero {st : Status} (h : st ≠ .ok) : st.code ≠ 0x00 := by
  cases st with
  | ok => exact absurd rfl h
  | _ => decide

/-- A frame that fails a test is answered with its status, and nothing else changes (R140, R148). -/
theorem exec_enIngest_drop {raw : List Byte} {s : State} {st : Status}
    (h : admission raw (freeSpace s) = st) (hst : st ≠ .ok) :
    exec (.enIngest raw) s = .next { s with hostOut := s.hostOut ++ [st.code] } := by
  have hdrop : ingest raw s = .ok (st, s) := by
    unfold ingest
    split
    · next hok => exact absurd (h.symm.trans hok) hst
    · rw [h]
  exact exec_enIngest hdrop

/-- The bytes stored for an admitted frame are the prefix `L` and the `7 + plen` bytes behind it (R146). -/
theorem rawRecord_length {raw : List Byte} {free : Nat} (h : admission raw free = .ok) :
    (rawRecord raw).length = 8 + rawPlen raw := by
  obtain ⟨-, -, -, hwhole, -⟩ := admission_eq_ok.1 h
  simp only [rawRecord, headerSize, List.length_cons, List.length_take]
  omega

/-- An admitted frame is written to the slots from `WR`, and to no other (R146). -/
theorem ingest_stores {raw : List Byte} {s : State} (hc : Cursors s)
    (h : admission raw (freeSpace s) = .ok) :
    ∃ u, ingest raw s = .ok (.ok, u) ∧
      u = { s with
        store := u.store, wr := BitVec.ofNat 8 ((s.wr.toNat + (8 + rawPlen raw)) % s.slots.toNat) } ∧
      (∀ j, j < 8 + rawPlen raw →
        memRead u.store ((s.wr.toNat + j) % s.slots.toNat) = (rawRecord raw)[j]?) ∧
      ∀ a, (∀ j, j < 8 + rawPlen raw → a ≠ (s.wr.toNat + j) % s.slots.toNat) →
        memRead u.store a = memRead s.store a := by
  have hlen := rawRecord_length h
  obtain ⟨-, -, -, -, hspace⟩ := admission_eq_ok.1 h
  obtain ⟨u, hwrites, hu⟩ := rbWrites_slots (bs := rawRecord raw) hc (hlen ▸ hspace)
  rw [hlen] at hu
  exact ⟨u, by simp only [ingest, h, hwrites, ok_bind, pure_eq_ok], hu⟩

/-! ## The tests in their order -/

/-- What is true of the status of the first failing test, or of `ST_OK` (R148). -/
theorem admission_ite (P : Status → Prop) (raw : List Byte) (free : Nat) :
    P (admission raw free) ↔
      if raw.length < 8 then P .dropShort
      else if raw.length % 4 ≠ 0 then P .dropMisaligned
      else if rawRecomputed raw ≠ rawChecksum raw then P .dropChecksum
      else if 7 + rawPlen raw > raw.length then P .dropTruncated
      else if free < 7 + rawPlen raw + 1 then P .dropNospace
      else P .ok := by
  rw [admission, apply_ite P, apply_ite P, apply_ite P, apply_ite P, apply_ite P]
  exact Iff.rfl

/-- What `EN_INGEST raw` does in `s` when the tests come out as `st`: a drop, or one record stored. -/
def IngestEnds (raw : List Byte) (s : State) : Status → Prop
  | .ok => ∃ t, exec (.enIngest raw) s = .next t ∧
      t = { s with
        store := t.store, wr := BitVec.ofNat 8 ((s.wr.toNat + (8 + rawPlen raw)) % s.slots.toNat)
        hostOut := s.hostOut ++ [0x00] } ∧
      (∀ j, j < 8 + rawPlen raw →
        memRead t.store ((s.wr.toNat + j) % s.slots.toNat) = (rawRecord raw)[j]?) ∧
      ∀ a, (∀ j, j < 8 + rawPlen raw → a ≠ (s.wr.toNat + j) % s.slots.toNat) →
        memRead t.store a = memRead s.store a
  | st => exec (.enIngest raw) s = .next { s with hostOut := s.hostOut ++ [st.code] }

theorem ingestEnds_admission (raw : List Byte) {s : State} (hc : Cursors s) :
    IngestEnds raw s (admission raw (freeSpace s)) := by
  cases h : admission raw (freeSpace s) with
  | ok =>
    obtain ⟨u, hu, hframe, hstored, hother⟩ := ingest_stores hc h
    refine ⟨answer .ok [] u, exec_enIngest hu, ?_, hstored, hother⟩
    rw [hframe]
    rfl
  | _ => exact exec_enIngest_drop h nofun

/-- Settles O22: the first failing test decides how the request ends. -/
theorem ingestValidatesThenStores : Obligations.IngestValidatesThenStores := by
  intro raw s hc
  exact ⟨decodeWord_enIngest, (admission_ite (IngestEnds raw s) raw _).1 (ingestEnds_admission raw hc)⟩

/-- Settles O23: `ingest` appends the bytes of one whole record or nothing. -/
theorem ingestAppendsOneRecord : Obligations.IngestAppendsOneRecord := by
  intro raw s t rs hc hr h
  obtain ⟨u, hu, -, hcase⟩ := ingest_ok raw hc
  rw [exec_enIngest hu] at h
  cases h
  rcases hcase with ⟨hdrop, rfl⟩ | ⟨hok, hfit, hfi⟩
  · exact .inr ⟨_, Status.code_ne_zero hdrop, rfl, hr⟩
  · have hout : u.hostOut = s.hostOut := by obtain ⟨m, w, rfl⟩ := ingest_frame hu; rfl
    have happend : HoldsRecords u (rs ++ [.ofRaw raw]) :=
      hr.append (by simpa using hfit) (by simpa [recordsBytes] using hfi)
    exact .inl ⟨by rw [answer_hostOut, hout, hok]; rfl, happend⟩

/-- The record of a frame with 247 payload bytes is longer than any free space (R144, R89). -/
theorem admission_ne_ok_of_long {raw : List Byte} (h : 247 ≤ rawPlen raw) (s : State) :
    admission raw (freeSpace s) ≠ .ok := by
  intro hok
  obtain ⟨-, -, -, -, hspace⟩ := admission_eq_ok.1 hok
  have hfree := freeSpace_le (s := s)
  omega

/-- Settles O24. -/
theorem ingestNeverAdmitsAbove246 : Obligations.IngestNeverAdmitsAbove246 := by
  intro raw s h
  have hdrop := admission_ne_ok_of_long h s
  exact ⟨_, Status.code_ne_zero hdrop, exec_enIngest_drop rfl hdrop⟩

end Sys2Proof.Machine
end

section
/-! The checksum test as a weighted sum of the header bytes, and why it catches every change of one of them
(spec/41_ingest.md R143 (a); spec/44_checksum.md R210, R214). -/

namespace Sys2Proof.Machine

/-! ## The checksum in numbers -/

theorem ck_toNat (sender flag opcode id length : Byte) :
    (ck sender flag opcode id length).toNat =
      65535 - (256 * (sender.toNat + flag.toNat + length.toNat) + opcode.toNat + id.toNat) % 65536 := by
  have hwide (b : Byte) : (b.zeroExtend 16).toNat = b.toNat := by
    rw [BitVec.zeroExtend, BitVec.toNat_setWidth, Nat.mod_eq_of_lt (by omega)]
  simp only [ck, BitVec.toNat_not, BitVec.toNat_add, BitVec.toNat_shiftLeft, hwide, Nat.shiftLeft_eq]
  omega

/-- The place value of a header byte in the checksum test: `opcode`, `id` and the checksum's own low byte
count once, the others as high bytes. -/
def headerWeight (j : Nat) : Nat := if j = 2 ∨ j = 3 ∨ j = 5 then 1 else 256

/-- The header bytes, the transmitted checksum among them, summed by place value. -/
def headerSum (raw : List Byte) : Nat :=
  ∑ j ∈ Finset.range 7, headerWeight j * (rawByte raw j).toNat

/-- The checksum test: header and checksum add up to the complement of 0 (R143, R210). -/
theorem checksum_iff_headerSum (raw : List Byte) :
    rawRecomputed raw = rawChecksum raw ↔ headerSum raw % 65536 = 65535 := by
  have hsum : headerSum raw = 256 * (rawByte raw 0).toNat + 256 * (rawByte raw 1).toNat +
      (rawByte raw 2).toNat + (rawByte raw 3).toNat + 256 * (rawByte raw 4).toNat +
      (rawByte raw 5).toNat + 256 * (rawByte raw 6).toNat := by
    simp [headerSum, Finset.sum_range_succ, headerWeight]
  rw [hsum, rawRecomputed, rawChecksum, ← BitVec.toNat_inj, ck_toNat, be16_toNat]
  omega

/-! ## One changed byte -/

theorem rawByte_set_same {raw : List Byte} {j : Nat} (h : j < raw.length) (b : Byte) :
    rawByte (raw.set j b) j = b := by
  simp [rawByte, h]

theorem rawByte_set_other (raw : List Byte) {j k : Nat} (h : k ≠ j) (b : Byte) :
    rawByte (raw.set j b) k = rawByte raw k := by
  simp [rawByte, List.getElem?_set_ne h.symm]

/-- A header byte enters the sum by its place value and in no other way. -/
theorem headerSum_set {raw : List Byte} {j : Nat} (hj : j < 7) (hlen : j < raw.length) (b : Byte) :
    headerSum (raw.set j b) + headerWeight j * (rawByte raw j).toNat =
      headerSum raw + headerWeight j * b.toNat := by
  have hmem : j ∈ Finset.range 7 := Finset.mem_range.2 hj
  have hrest : ∑ k ∈ (Finset.range 7).erase j, headerWeight k * (rawByte (raw.set j b) k).toNat =
      ∑ k ∈ (Finset.range 7).erase j, headerWeight k * (rawByte raw k).toNat :=
    Finset.sum_congr rfl fun k hk => by rw [rawByte_set_other raw (Finset.ne_of_mem_erase hk)]
  rw [headerSum, headerSum, ← Finset.add_sum_erase _ _ hmem, ← Finset.add_sum_erase _ _ hmem, hrest,
    rawByte_set_same hlen]
  omega

/-- A change of one header byte moves the sum by less than 65536, so a header that passed the checksum test
fails it afterwards (R143, R214). -/
theorem checksum_ne_of_set {raw : List Byte} {j : Nat} {b : Byte} (hj : j < 7) (hlen : j < raw.length)
    (hck : rawRecomputed raw = rawChecksum raw) (hb : b ≠ rawByte raw j) :
    rawRecomputed (raw.set j b) ≠ rawChecksum (raw.set j b) := by
  rw [checksum_iff_headerSum] at hck
  rw [Ne, checksum_iff_headerSum]
  have hset := headerSum_set hj hlen b
  have hne : b.toNat ≠ (rawByte raw j).toNat := mt BitVec.eq_of_toNat_eq hb
  unfold headerWeight at hset
  split at hset <;> omega

/-- A frame of a good length whose checksum is wrong (R148). -/
theorem admission_eq_dropChecksum {raw : List Byte} (hlen : 8 ≤ raw.length) (halign : raw.length % 4 = 0)
    (hck : rawRecomputed raw ≠ rawChecksum raw) (free : Nat) : admission raw free = .dropChecksum := by
  rw [admission_ite (· = .dropChecksum), if_neg (Nat.not_lt.2 hlen), if_neg (not_not.2 halign),
    if_pos hck]

/-- Settles O25. -/
theorem corruptHeaderByteIsDropped : Obligations.CorruptHeaderByteIsDropped := by
  intro raw s j b hlen halign hck hj hb
  have hbad := checksum_ne_of_set hj (Nat.lt_of_lt_of_le hj (Nat.le_of_succ_le hlen)) hck hb
  exact exec_enIngest_drop (admission_eq_dropChecksum (by rwa [List.length_set])
    (by rwa [List.length_set]) hbad _) nofun

end Sys2Proof.Machine
end

section
/-! `EN_SETADDR`, and the command words that carry a bus address (spec/30_encoding.md R100 to R103;
spec/42_send.md R160, R170). -/

namespace Sys2Proof

/-- A 7-bit address in a byte is the same number. -/
theorem address_toNat (a : Addr7) : (a.zeroExtend 8).toNat = a.toNat := by
  rw [BitVec.zeroExtend, BitVec.toNat_setWidth, Nat.mod_eq_of_lt (by omega)]

/-- A command word with an address, written as a number: the opcode's digit in front of it (R101). -/
theorem commandWord_address (op : BitVec 4) (a : Addr7) :
    commandWord op (a.zeroExtend 8) = BitVec.ofNat 16 (op.toNat * 4096 + a.toNat) := by
  rw [← address_toNat a, ← commandWord_toNat, BitVec.ofNat_toNat, BitVec.setWidth_eq]

/-- The request `EN_SETADDR a` on the stream (R170). -/
theorem decodeWord_enSetaddr (a : Addr7) (rest : List Byte) :
    decodeWord (BitVec.ofNat 16 (0xD000 + a.toNat)) rest = .request (.enSetaddr a) rest :=
  commandWord_address 0xD a ▸ decodeWord_encodeWord (i := .enSetaddr a) rfl rest

/-- An immediate that is no 7-bit address makes the word illegal (R103, R170). -/
theorem decodeWord_enSetaddr_illegal {imm : Byte} (h : 128 ≤ imm.toNat) (rest : List Byte) :
    decodeWord (BitVec.ofNat 16 (0xD000 + imm.toNat)) rest = .illegal .addressAbove127 rest :=
  (decodeWord_ofNat 0xD imm rest).trans (if_neg (Nat.not_lt.2 h))

/-- The request `EN_SEND dest, opcode, payload` on the stream (R101, R160). -/
theorem decodeWord_enSend (dest : Addr7) (opcode : Byte) {payload : List Byte}
    (h : payload.length < 65536) (rest : List Byte) :
    decodeWord (BitVec.ofNat 16 (0x9000 + dest.toNat))
      (opcode :: BitVec.ofNat 8 (payload.length / 256) :: BitVec.ofNat 8 (payload.length % 256) ::
        (payload ++ rest)) = .request (.enSend dest opcode payload) rest := by
  have hspelled := decodeWord_encodeWord (i := .enSend dest opcode payload) (decide_eq_true h) rest
  rwa [encodeOperands, countedBytes_eq, encodeWord, commandWord_address] at hspelled

end Sys2Proof

namespace Sys2Proof.Machine

/-- Settles O36: the operation stores the operand at its own value. -/
theorem setaddrWritesOwnAddress : Obligations.SetaddrWritesOwnAddress := by
  intro a s
  have haddr : a.zeroExtend 8 = BitVec.ofNat 8 a.toNat := by
    rw [← address_toNat a, BitVec.ofNat_toNat, BitVec.setWidth_eq]
  refine ⟨decodeWord_enSetaddr a, fun _ rest h => decodeWord_enSetaddr_illegal h rest, ?_⟩
  rw [(Did.enSetaddr a).exec_eq, haddr]
  rfl

end Sys2Proof.Machine
end

section
/-! The split of a payload into the fragments of one `EN_SEND` (spec/42_send.md R161). -/

namespace Sys2Proof.Machine

open Sys2Proof.Config

theorem chunk_length (payload : List Byte) (m k : Nat) :
    (chunk payload m k).length = min m (payload.length - k * m) := by
  rw [chunk, List.length_take, List.length_drop]

/-- The first `k` chunks are the first `k * m` bytes of the payload. -/
theorem flatMap_chunk (payload : List Byte) (m k : Nat) :
    (List.range k).flatMap (chunk payload m) = payload.take (k * m) := by
  induction k with
  | zero => rw [Nat.zero_mul]; rfl
  | succ k ih =>
    rw [List.range_succ, List.flatMap_append, ih, List.flatMap_singleton, Nat.succ_mul, List.take_add]
    rfl

/-- The fragments hold the whole payload. -/
theorem le_fragmentCount_mul {n m : Nat} (hm : 1 ≤ m) : n ≤ fragmentCount n m * m := by
  unfold fragmentCount
  split
  · omega
  · have := Nat.lt_div_mul_add (a := n + m - 1) hm
    omega

/-- The chunks in order are the payload (R161). -/
theorem flatMap_chunk_fragmentCount (payload : List Byte) {m : Nat} (hm : 1 ≤ m) :
    (List.range (fragmentCount payload.length m)).flatMap (chunk payload m) = payload := by
  rw [flatMap_chunk, List.take_of_length_le (le_fragmentCount_mul hm)]

/-- Every chunk but the last is full (R161). -/
theorem chunk_length_of_not_last {payload : List Byte} {m k : Nat} (hm : 1 ≤ m)
    (hk : k + 1 < fragmentCount payload.length m) : (chunk payload m k).length = m := by
  have hstart := (lt_fragmentCount hm hk).1
  rw [Nat.succ_mul] at hstart
  rw [chunk_length]
  omega

/-- The last chunk is the rest (R161). -/
theorem chunk_length_last (payload : List Byte) {m : Nat} (hm : 1 ≤ m) :
    (chunk payload m (fragmentCount payload.length m - 1)).length =
      payload.length - (fragmentCount payload.length m - 1) * m := by
  have hall := le_fragmentCount_mul (n := payload.length) hm
  have hpos := fragmentCount_pos (n := payload.length) hm
  have hlast : fragmentCount payload.length m * m =
      (fragmentCount payload.length m - 1) * m + m := by
    rw [← Nat.succ_mul, Nat.succ_eq_add_one, Nat.sub_add_cancel hpos]
  rw [chunk_length]
  omega

/-- Settles O34. -/
theorem sendSplitsPayload : Obligations.SendSplitsPayload := by
  intro s payload hp m count
  obtain ⟨hm, hmax⟩ := maxChunk_bounds hp
  have hpos : 1 ≤ count := fragmentCount_pos hm
  have hlast : (chunk payload m (count - 1)).length = payload.length - (count - 1) * m :=
    chunk_length_last payload hm
  have hle : (chunk payload m (count - 1)).length ≤ m := List.length_take_le _ _
  refine ⟨hpos, hm, hmax, flatMap_chunk_fragmentCount payload hm,
    fun k hk => chunk_length_of_not_last hm hk, hlast, ?_, fun hne => ⟨?_, hle⟩⟩
  · rintro rfl
    exact ⟨rfl, by rw [hlast, List.length_nil, Nat.zero_sub]⟩
  · have hinside := (lt_fragmentCount hm (Nat.sub_lt hpos Nat.one_pos)).2
      (mt List.length_eq_zero_iff.1 hne)
    rw [hlast]
    exact Nat.sub_pos_of_lt hinside

end Sys2Proof.Machine
end

section
/-! What one `EN_SEND` does, in two parts that do not touch each other: the ingests at its boundaries, and
the transmissions (spec/20_memory.md R61, R62; spec/42_send.md R160 to R166). -/

namespace Sys2Proof.Machine

open Sys2Proof.Config

/-! ## The ingests at the boundaries of a send -/

/-- `s` with the ring buffer's contents and the ingest agent's answers of `v`, and the schedule `later`. -/
def withIngests (v : State) (later : List (List (List Byte))) (s : State) : State :=
  { s with store := v.store, wr := v.wr, ingestOut := v.ingestOut, arrivals := later }

/-- Transmitting fragments reads nothing that an ingest writes, and the other way round (R62). -/
theorem iterate_fragmentSent_withIngests (dest : Addr7) (opcode : Byte) (payload : List Byte) (n : Nat)
    (v : State) (later : List (List (List Byte))) (s : State) :
    (fragmentSent dest opcode payload)^[n] (withIngests v later s) =
      withIngests v later ((fragmentSent dest opcode payload)^[n] s) := by
  have hcomm : Function.Commute (fragmentSent dest opcode payload) (withIngests v later) := fun _ => rfl
  exact (hcomm.iterate_left n).eq s

/-- A boundary does what the ingests scheduled for it do, in every state with the same ring buffer. -/
theorem notify_eq {s s' v : State} (h : ingestAll (s.arrivals.take 1).flatten s = .ok v)
    (hs : SameRing s s') (ho : s'.ingestOut = s.ingestOut) (ha : s'.arrivals = s.arrivals) :
    notify s' = .ok (withIngests v (s.arrivals.drop 1) s') := by
  unfold notify
  cases hsched : s.arrivals with
  | nil =>
    rw [hsched] at h
    cases h
    simp only [ha, hsched, withIngests, List.drop_nil]
    rw [← hs.store, ← hs.wr, ← ho, ← hsched, ← ha]
  | cons frames later =>
    simp only [hsched, List.take_succ_cons, List.take_zero, List.flatten_singleton] at h
    simp only [ha, hsched]
    exact ingestAll_transport h (s' := { s' with arrivals := later }) ⟨hs.1, hs.2, hs.3, hs.4⟩ ho

/-- The loop of `EN_SEND`: the transmissions alone, and beside them the ingests of the boundaries alone. -/
theorem sendLoop_eq (dest : Addr7) (opcode : Byte) (payload : List Byte) {n : Nat} {s v : State}
    (h : ingestAll (s.arrivals.take n).flatten s = .ok v) :
    sendLoop dest opcode payload n s =
      .ok (withIngests v (s.arrivals.drop n) ((fragmentSent dest opcode payload)^[n] s)) := by
  induction n generalizing s v with
  | zero => cases h; rfl
  | succ n ih =>
    rw [Nat.add_comm n 1, List.take_add, List.flatten_append, ingestAll_append] at h
    obtain ⟨u, hfirst, hrest⟩ := bind_eq_ok.1 h
    have hnotify := notify_eq (s' := fragmentSent dest opcode payload s) hfirst
      ⟨rfl, rfl, rfl, rfl⟩ rfl rfl
    have hring : SameRing u (withIngests u (s.arrivals.drop 1) (fragmentSent dest opcode payload s)) := by
      obtain ⟨m, w, o, rfl⟩ := ingestAll_frame hfirst
      exact ⟨rfl, rfl, rfl, rfl⟩
    have hloop := ih (ingestAll_transport hrest hring rfl)
    rw [iterate_fragmentSent_withIngests] at hloop
    simp only [sendLoop, sendFragment_eq, hnotify, ok_bind, hloop]
    simp only [withIngests, List.drop_drop, Nat.add_comm 1 n, Function.iterate_succ_apply]

/-! ## The transmissions of a send -/

/-- The state after all transmissions of one `EN_SEND`, none of its boundaries taken. -/
def allSent (dest : Addr7) (opcode : Byte) (payload : List Byte) (s : State) : State :=
  (fragmentSent dest opcode payload)^[sendCount s payload] (sendStart payload s)

/-- `EN_SEND` is all its transmissions, beside the ingests of its boundaries, and the answer. -/
theorem exec_enSend (dest : Addr7) (opcode : Byte) (payload : List Byte) {s v : State}
    (h : ingestAll (s.arrivals.take (sendCount s payload)).flatten s = .ok v) :
    exec (.enSend dest opcode payload) s =
      .next (sendEnd (withIngests v (s.arrivals.drop (sendCount s payload))
        (allSent dest opcode payload s))) := by
  have hstart := ingestAll_transport (s' := sendStart payload s) h ⟨rfl, rfl, rfl, rfl⟩ rfl
  exact (Did.enSend (sendLoop_eq dest opcode payload hstart)).exec_eq

/-- The frame planned for fragment `k` of an `EN_SEND` that begins in `s` (R160 to R164). -/
def plannedFrame (opcode : Byte) (payload : List Byte) (s : State) (k : Nat) : List Byte :=
  frameBytes s.ownAddr (mkFlag 0 (fragmentState (sendCount s payload) k)) opcode s.msgId
    (chunk payload s.params.maxChunk k)

/-- `s` after the first `k` transmissions of an `EN_SEND` that began in it, with `x` in the sequencer's
registers (R160). -/
def transmitted (dest : Addr7) (opcode : Byte) (payload : List Byte) (s : State) (k : Nat) (x : TxWork) :
    State :=
  { s with
    busOut := s.busOut ++ (List.range k).map fun j => (dest, plannedFrame opcode payload s j)
    busIn := s.busIn.drop k, freeCount := s.freeCount + (k - s.busIn.length), tx := x }

/-- The sequencer stands before fragment `k`, its offset never behind the end of the payload. -/
structure AtFragment (payload : List Byte) (s : State) (k : Nat) (x : TxWork) : Prop where
  count : x.count = sendCount s payload
  index : x.k = k
  off : x.off = min (k * s.params.maxChunk) payload.length

/-- The frame under assembly is the planned one: behind the end of the payload there is as little left as
at the end. -/
theorem sendFrame_transmitted (dest : Addr7) (opcode : Byte) {payload : List Byte} {s : State} {k : Nat}
    {x : TxWork} (h : AtFragment payload s k x) :
    sendFrame opcode payload (transmitted dest opcode payload s k x) =
      plannedFrame opcode payload s k := by
  have hrest : payload.drop (min (k * s.params.maxChunk) payload.length) =
      payload.drop (k * s.params.maxChunk) := by
    rw [List.drop_eq_drop_iff]
    omega
  simp only [sendFrame, transmitted, h.count, h.index, h.off, hrest]
  rfl

theorem nthAnswer_transmitted (dest : Addr7) (opcode : Byte) (payload : List Byte) (s : State) (k : Nat)
    (x : TxWork) : nthAnswer (transmitted dest opcode payload s k x) 0 = nthAnswer s k :=
  nthAnswer_shift rfl rfl

/-- One more transmission hands over the next planned frame and keeps its status (R160, R165). -/
theorem fragmentSent_transmitted (dest : Addr7) (opcode : Byte) {payload : List Byte} {s : State}
    {k : Nat} {x : TxWork} (h : AtFragment payload s k x) :
    ∃ y, fragmentSent dest opcode payload (transmitted dest opcode payload s k x) =
        transmitted dest opcode payload s (k + 1) y ∧
      AtFragment payload s (k + 1) y ∧ y.last = nthAnswer s k ∧ y.ok = decide (nthAnswer s k = .ok) := by
  have hframe := sendFrame_transmitted dest opcode h
  have hanswer := nthAnswer_transmitted dest opcode payload s k x
  have hdraws : s.freeCount + (k - s.busIn.length) + (1 - (s.busIn.drop k).length) =
      s.freeCount + (k + 1 - s.busIn.length) := by
    rw [List.length_drop]
    omega
  refine ⟨(fragmentSent dest opcode payload (transmitted dest opcode payload s k x)).tx, ?_,
    ⟨h.count, congrArg (· + 1) h.index, ?_⟩, hanswer, by simp only [fragmentSent, hanswer]⟩
  · simp only [fragmentSent, hframe]
    simp only [transmitted, List.range_succ, List.map_append, List.map_singleton, List.append_assoc,
      List.drop_drop, hdraws]
  · simp only [fragmentSent, transmitted, h.off, Nat.succ_mul]
    omega

theorem iterate_fragmentSent_eq (dest : Addr7) (opcode : Byte) (payload : List Byte) (s : State)
    (k : Nat) : ∃ x, (fragmentSent dest opcode payload)^[k] (sendStart payload s) =
      transmitted dest opcode payload s k x ∧ AtFragment payload s k x := by
  induction k with
  | zero =>
    refine ⟨(sendStart payload s).tx, ?_, rfl, rfl, by rw [Nat.zero_mul, Nat.zero_min]; rfl⟩
    simp only [transmitted, List.range_zero, List.map_nil, List.append_nil, List.drop_zero,
      Nat.zero_sub, Nat.add_zero]
    rfl
  | succ k ih =>
    obtain ⟨x, hx, hat⟩ := ih
    obtain ⟨y, hy, hnext, -⟩ := fragmentSent_transmitted dest opcode hat
    exact ⟨y, by rw [Function.iterate_succ_apply', hx, hy], hnext⟩

/-- A send transmits its plan; the status of the last transmission is what it keeps (R160, R165). -/
theorem allSent_eq (dest : Addr7) (opcode : Byte) (payload : List Byte) {s : State} (hp : s.params.Ok) :
    ∃ x, allSent dest opcode payload s =
        transmitted dest opcode payload s (sendCount s payload) x ∧
      x.last = nthAnswer s (sendCount s payload - 1) ∧ x.ok = decide (x.last = .ok) := by
  have hpos : 1 ≤ sendCount s payload := fragmentCount_pos (maxChunk_bounds hp).1
  obtain ⟨n, hn⟩ := Nat.exists_eq_succ_of_ne_zero (Nat.one_le_iff_ne_zero.1 hpos)
  obtain ⟨x, hx, hat⟩ := iterate_fragmentSent_eq dest opcode payload s n
  obtain ⟨y, hy, -, hlast, hok⟩ := fragmentSent_transmitted dest opcode hat
  refine ⟨y, ?_, by rw [hn, hlast, Nat.succ_sub_one], hlast ▸ hok⟩
  rw [allSent, hn, Function.iterate_succ_apply', hx, hy]

end Sys2Proof.Machine
end

section
/-! The frames and the answer of `EN_SEND` in numbers, and that it and the notifications inside it leave
each other alone (spec/30_encoding.md R85, R92; spec/42_send.md R160 to R166, R171). -/

namespace Sys2Proof.Machine

open Sys2Proof.Config

/-! ## In numbers -/

/-- The flag byte of fragment `k` of `count` (R162). -/
theorem sendFlag_eq (count k : Nat) : mkFlag 0 (fragmentState count k) =
    if count = 1 then 0x00 else if k + 1 < count then 0x01 else 0x02 := by
  unfold fragmentState
  split
  · rfl
  · split <;> rfl

/-- The header with its checksum's bytes in numbers, high byte first (R85, R163). -/
theorem headerBytes_eq (sender flag opcode id length : Byte) :
    headerBytes sender flag opcode id length =
      [sender, flag, opcode, id,
        BitVec.ofNat 8 ((ck sender flag opcode id length).toNat / 256),
        BitVec.ofNat 8 ((ck sender flag opcode id length).toNat % 256), length] := by
  rw [headerBytes, streamWord, hiByte_eq, loByte_eq]
  rfl

/-- The answer of a send: `ST_OK` or `ST_TX_FAIL`, and the last bus status in R92's numbers (R104, R165). -/
theorem sendEnd_answers {s : State} {last : BusStatus} (hlast : s.tx.last = last)
    (hok : s.tx.ok = decide (s.tx.last = .ok)) :
    (sendEnd s).hostOut = s.hostOut ++ [if last = .ok then 0x00 else 0x07,
      if last = .ok then 0 else if last = .tooLong then 1 else if last = .addressNack then 2
      else if last = .dataNack then 3 else 4] := by
  rw [sendEnd_hostOut, hok, hlast]
  cases last <;> rfl

/-- One increment of `MSG_ID` (R166). -/
theorem succ_toNat (b : Byte) : (b + 1).toNat = (b.toNat + 1) % 256 := BitVec.toNat_add b 1

/-! ## What `EN_SEND` does -/

/-- With nothing scheduled at the boundaries of a send no ingest happens. -/
theorem Quiet.flatten_take {s : State} (h : Quiet s) (n : Nat) : (s.arrivals.take n).flatten = [] :=
  List.flatten_eq_nil_iff.2 fun frames hf => h frames (List.mem_of_mem_take hf)

/-- Settles O32: all transmissions of the plan, beside the ingests, then the answer. -/
theorem sendTransmitsThePlan : Obligations.SendTransmitsThePlan := by
  intro dest opcode payload s hp hc hlen
  refine ⟨decodeWord_enSend dest opcode hlen, ?_⟩
  intro m count frame last
  obtain ⟨v, -, hv, -⟩ := ingestAll_ok (s.arrivals.take count).flatten hc
  obtain ⟨x, hall, hlast, hok⟩ := allSent_eq dest opcode payload hp
  have hexec := exec_enSend dest opcode payload hv
  rw [hall] at hexec
  have hframe : plannedFrame opcode payload s = frame := by
    funext k
    rw [plannedFrame, frameBytes, headerBytes_eq, sendFlag_eq]
    rfl
  refine ⟨_, hexec, ?_, succ_toNat s.msgId, sendEnd_answers hlast hok, rfl, rfl, rfl, rfl, rfl, rfl, rfl,
    rfl, fun hq => ?_⟩
  · rw [← hframe]
    rfl
  · have hnone : v = s := by
      rw [hq.flatten_take] at hv
      cases hv
      rfl
    subst hnone
    exact ⟨rfl, rfl, rfl, fun frames hf => hq frames (List.mem_of_mem_drop hf)⟩

/-- The transmissions of a send depend on neither the ring buffer's contents nor the schedule (R166). -/
theorem allSent_withIngests (dest : Addr7) (opcode : Byte) (payload : List Byte) (v : State)
    (later : List (List (List Byte))) (s : State) :
    allSent dest opcode payload (withIngests v later s) =
      withIngests v later (allSent dest opcode payload s) :=
  iterate_fragmentSent_withIngests dest opcode payload _ v later (sendStart payload s)

/-- Settles O33: with and without the notifications the transmissions are the same, and the ingests write
nothing the host sees. -/
theorem sendAndNotificationsAreIndependent : Obligations.SendAndNotificationsAreIndependent := by
  intro dest opcode payload s hp hc
  obtain ⟨v, -, hv, -⟩ := ingestAll_ok (s.arrivals.take (sendCount s payload)).flatten hc
  obtain ⟨x, hall, -⟩ := allSent_eq dest opcode payload hp
  have hwith := exec_enSend dest opcode payload hv
  have hwithout := exec_enSend (s := withIngests s [] s) (v := withIngests s [] s) dest opcode payload
    (congrArg (ingestAll ·.flatten _) List.take_nil)
  rw [allSent_withIngests, hall] at hwithout
  rw [hall] at hwith
  refine ⟨_, _, v, hwith, hwithout, hv, ?_⟩
  obtain ⟨m, w, o, rfl⟩ := ingestAll_frame hv
  exact ⟨rfl, rfl, rfl, rfl, succ_toNat s.msgId, rfl, rfl, rfl, rfl, rfl, rfl⟩

end Sys2Proof.Machine
end

section
/-! A send, the ingest of its frames by another core, and one receive there (spec/41_ingest.md R142 to R146;
spec/42_send.md R167; spec/43_receive.md R182 to R187). -/

namespace Sys2Proof.Machine

open Sys2Proof.Config

/-! ## Ingesting well-formed frames -/

/-- The record a frame of these fields becomes (R88, R146). -/
def wireRecord (sender flag opcode id : Byte) (payload : List Byte) : Record :=
  { sender := sender, flag := flag, opcode := opcode, id := id
    cksum := ck sender flag opcode id (BitVec.ofNat 8 payload.length), payload := payload }

/-- The payload length a frame carries, when one byte can hold it (R85, R142). -/
theorem rawPlen_frameBytes (sender flag opcode id : Byte) {payload : List Byte}
    (h : payload.length ≤ 246) : rawPlen (frameBytes sender flag opcode id payload) = payload.length := by
  show (BitVec.ofNat 8 payload.length).toNat = _
  rw [BitVec.toNat_ofNat]
  omega

/-- A frame is received with the fields it was made of (R142). -/
theorem ofRaw_frameBytes (sender flag opcode id : Byte) {payload : List Byte}
    (h : payload.length ≤ 246) :
    Record.ofRaw (frameBytes sender flag opcode id payload) =
      wireRecord sender flag opcode id payload := by
  have hsum : rawChecksum (frameBytes sender flag opcode id payload) =
      ck sender flag opcode id (BitVec.ofNat 8 payload.length) := be16_hiByte_loByte _
  have hbody : ((frameBytes sender flag opcode id payload).drop 7).take payload.length = payload :=
    List.take_left
  rw [Record.ofRaw, hsum, rawPlen_frameBytes sender flag opcode id h, hbody]
  rfl

/-- A frame passes every test when there is room for its record (R143 to R148). -/
theorem admission_frameBytes (sender flag opcode id : Byte) {payload : List Byte}
    (h : payload.length ≤ 246) {free : Nat} (hfree : 8 + payload.length ≤ free) :
    admission (frameBytes sender flag opcode id payload) free = .ok := by
  have hsum : rawRecomputed (frameBytes sender flag opcode id payload) =
      rawChecksum (frameBytes sender flag opcode id payload) := (be16_hiByte_loByte _).symm
  rw [admission_eq_ok, rawPlen_frameBytes sender flag opcode id h, frameBytes_length, frameLen_eq]
  exact ⟨by omega, by omega, hsum, by omega, hfree⟩

/-- `raw` fails no test but that for space (R143 to R148). -/
def Passes (raw : List Byte) : Prop := ∀ free, 8 + rawPlen raw ≤ free → admission raw free = .ok

theorem recordsBytes_append_cons_length (rs : List Record) (r : Record) (more : List Record) :
    (recordsBytes (rs ++ r :: more)).length =
      (recordsBytes rs).length + (8 + r.payload.length) + (recordsBytes more).length := by
  rw [recordsBytes_append, recordsBytes, recordsBytes, List.flatMap_cons, List.length_append,
    List.length_append, recordBytes_length, recordsBytes, Nat.add_assoc, Nat.add_assoc, Nat.add_assoc]

/-- An admitted frame: one whole record behind those there, answered `ST_OK` (R146). -/
theorem exec_enIngest_admitted {raw : List Byte} {s : State} {rs : List Record} (hc : Cursors s)
    (hr : HoldsRecords s rs) (h : admission raw (freeSpace s) = .ok) :
    ∃ t m w, exec (.enIngest raw) s = .next t ∧
      t = { s with store := m, wr := w, hostOut := s.hostOut ++ [0x00] } ∧
      Cursors t ∧ HoldsRecords t (rs ++ [.ofRaw raw]) := by
  obtain ⟨u, hu, hcu, ⟨hdrop, -⟩ | ⟨-, hfit, hfi⟩⟩ := ingest_ok raw hc
  · exact absurd h hdrop
  rw [h] at hu
  have hru : HoldsRecords u (rs ++ [.ofRaw raw]) :=
    hr.append (by simpa using hfit) (by simpa [recordsBytes] using hfi)
  obtain ⟨m, w, rfl⟩ := ingest_frame hu
  exact ⟨_, m, w, exec_enIngest hu, rfl, hcu, hru⟩

/-- Frames that pass the tests and fit the free space all together are all stored, in order, each answered
`ST_OK` (R146, R167). -/
theorem execAll_enIngest {frames : List (List Byte)} {s : State} {rs : List Record} (hc : Cursors s)
    (hr : HoldsRecords s rs) (hpass : ∀ raw ∈ frames, Passes raw)
    (hspace : (recordsBytes (rs ++ frames.map Record.ofRaw)).length ≤ s.slots.toNat - 1) :
    ∃ t m w, execAll (frames.map .enIngest) s = .next t ∧
      t = { s with
        store := m, wr := w, hostOut := s.hostOut ++ List.replicate frames.length 0x00 } ∧
      Cursors t ∧ HoldsRecords t (rs ++ frames.map Record.ofRaw) := by
  induction frames generalizing s rs with
  | nil =>
    refine ⟨s, s.store, s.wr, rfl, ?_, hc, ?_⟩
    · rw [List.length_nil, List.replicate_zero, List.append_nil]
    · rwa [List.map_nil, List.append_nil]
  | cons raw more ih =>
    obtain ⟨hraw, hmore⟩ := List.forall_mem_cons.1 hpass
    have hplen := (rawRecord_eq (hraw _ (Nat.le_refl _))).2
    have hlen := recordsBytes_append_cons_length rs (.ofRaw raw) (more.map Record.ofRaw)
    simp only [List.map_cons] at hspace ⊢
    have hadm : admission raw (freeSpace s) = .ok := hraw _ (by rw [hr.2.freeSpace_eq]; omega)
    obtain ⟨u, m, w, hu, rfl, hcu, hru⟩ := exec_enIngest_admitted hc hr hadm
    rw [List.append_cons] at hspace ⊢
    obtain ⟨t, m', w', ht, rfl, hct, hrt⟩ := ih hcu hru hmore hspace
    refine ⟨_, m', w', (execAll_cons hu _).trans ht, ?_, hct, hrt⟩
    rw [List.append_assoc]
    rfl

/-! ## Receiving a complete message -/

/-- An `EN_RECEIVE` that no notification interleaves, on whole records: the drain ends, and what is left of
the call depends on the state at its end only (R195, R196). -/
theorem exec_enReceive_quiet {s : State} {first : Record} {rs : List Record} (hp : s.params.Ok)
    (hc : Cursors s) (hq : Quiet s) (h : HoldsRecords s (first :: rs)) :
    ∃ u, Arrived { s with rx := .start } u (drainBoundaries (first :: rs)) [] ∧
      HoldsRecords u (undrained (first :: rs)) ∧
      u.rx.message = resultMessage first (first :: rs) ∧
      u.rx.complete = hasTerminator (first :: rs) ∧
      exec .enReceive s =
        finish (if u.rx.complete then .ok (deliver .rxComplete u) else requeue u) := by
  have hnew : ∀ new : List Record, new.Sublist (s.arrivals.flatten.map Record.ofRaw) → new = [] := by
    rw [List.flatten_eq_nil_iff.2 hq]
    exact fun _ => List.sublist_nil.1
  have hagain : exec .enReceive { s with rx := .start } = exec .enReceive s := rfl
  rcases receive_drained (s := { s with rx := .start }) hc h rfl with
    ⟨-, new, hsub, hfull⟩ | ⟨u, new, -, ha, hu, hmsg, hcomp, hexec⟩
  · have hlt := h.length_lt hc
    have hslots := slots_le (s := s)
    have hdrained := payloads_drained_le (first :: rs)
    simp only [slotsMax] at hslots
    rw [List.length_cons] at hlt
    rw [hnew new hsub, List.append_nil, aggFits_of_le hp (by omega)] at hfull
    cases hfull
  · cases (ha.quiet hq).1
    rw [List.append_nil] at ha hu hmsg hcomp
    exact ⟨u, ha, hu, hmsg, hcomp, hagain ▸ hexec⟩

/-- With a terminating record in the buffer the call answers the complete message (R185, R193). -/
theorem exec_enReceive_complete {s : State} {first : Record} {rs : List Record} (hp : s.params.Ok)
    (hc : Cursors s) (hq : Quiet s) (h : HoldsRecords s (first :: rs))
    (hterm : hasTerminator (first :: rs) = true) :
    ∃ t, exec .enReceive s = .next t ∧ HoldsRecords t (undrained (first :: rs)) ∧
      t.hostOut = s.hostOut ++ messageBytes 0x09 (resultMessage first (first :: rs)) := by
  obtain ⟨u, ha, hu, hmsg, hcomp, hexec⟩ := exec_enReceive_quiet hp hc hq h
  rw [hcomp, hterm, if_pos rfl, finish_ok] at hexec
  refine ⟨_, hexec, hu, ?_⟩
  rw [deliver_hostOut, ha.progress.kept.hostOut, messageStream_eq, hmsg]
  rfl

/-! ## The records of one send -/

/-- A queue whose last record alone is terminating is drained whole (R185). -/
theorem drained_append_terminator {rs : List Record} {l : Record} (hrs : hasTerminator rs = false)
    (hl : terminates l.flag = true) :
    drained (rs ++ [l]) = rs ++ [l] ∧ undrained (rs ++ [l]) = [] ∧ hasTerminator (rs ++ [l]) = true := by
  induction rs with
  | nil => simp [drained_cons, undrained_cons, hl]
  | cons r rs ih =>
    rw [hasTerminator_cons, Bool.or_eq_false_iff] at hrs
    obtain ⟨hd, hu, ht⟩ := ih hrs.2
    simp [drained_cons, undrained_cons, hrs.1, hd, hu, ht]

/-- The record that fragment `k` of an `EN_SEND` begun in `s` becomes at a receiver. -/
def plannedRecord (opcode : Byte) (payload : List Byte) (s : State) (k : Nat) : Record :=
  wireRecord s.ownAddr (mkFlag 0 (fragmentState (sendCount s payload) k)) opcode s.msgId
    (chunk payload s.params.maxChunk k)

/-- The records of all the fragments, in order. -/
def plannedRecords (opcode : Byte) (payload : List Byte) (s : State) : List Record :=
  (List.range (sendCount s payload)).map (plannedRecord opcode payload s)

theorem chunk_fits {s : State} (hp : s.params.Ok) (payload : List Byte) (k : Nat) :
    (chunk payload s.params.maxChunk k).length ≤ 246 := by
  have hmax := (maxChunk_bounds hp).2
  rw [chunk_length]
  omega

theorem passes_plannedFrame {s : State} (hp : s.params.Ok) (opcode : Byte) (payload : List Byte)
    (k : Nat) : Passes (plannedFrame opcode payload s k) := by
  have hfits := chunk_fits hp payload k
  intro free hfree
  rw [plannedFrame, rawPlen_frameBytes _ _ _ _ hfits] at hfree
  exact admission_frameBytes _ _ _ _ hfits hfree

theorem ofRaw_plannedFrame {s : State} (hp : s.params.Ok) (opcode : Byte) (payload : List Byte) :
    Record.ofRaw ∘ plannedFrame opcode payload s = plannedRecord opcode payload s :=
  funext fun k => ofRaw_frameBytes _ _ _ _ (chunk_fits hp payload k)

/-- The records of a send hold its payload (R161). -/
theorem payloads_plannedRecords {s : State} (hp : s.params.Ok) (opcode : Byte) (payload : List Byte) :
    payloads (plannedRecords opcode payload s) = payload := by
  rw [payloads, plannedRecords, List.flatMap_map]
  exact flatMap_chunk_fragmentCount payload (maxChunk_bounds hp).1

/-- Only the last record of a send ends a drain (R162, R185). -/
theorem terminates_plannedRecord {s : State} {opcode : Byte} {payload : List Byte} {k : Nat}
    (hk : k < sendCount s payload) :
    terminates (plannedRecord opcode payload s k).flag = decide (k + 1 = sendCount s payload) := by
  show terminates (mkFlag 0 (fragmentState (sendCount s payload) k)) = _
  rw [sendFlag_eq]
  split
  · next hone => rw [decide_eq_true (by omega)]; rfl
  · split
    · next hlt => rw [decide_eq_false (by omega)]; rfl
    · rw [decide_eq_true (by omega)]; rfl

/-- The records of a send, drained whole, the last of them terminating (R185). -/
theorem drained_plannedRecords {s : State} (hp : s.params.Ok) (opcode : Byte) (payload : List Byte) :
    drained (plannedRecords opcode payload s) = plannedRecords opcode payload s ∧
      undrained (plannedRecords opcode payload s) = [] ∧
      hasTerminator (plannedRecords opcode payload s) = true ∧
      (plannedRecords opcode payload s).getLast? =
        some (plannedRecord opcode payload s (sendCount s payload - 1)) := by
  have hpos : 1 ≤ sendCount s payload := fragmentCount_pos (maxChunk_bounds hp).1
  obtain ⟨n, hn⟩ := Nat.exists_eq_succ_of_ne_zero (Nat.one_le_iff_ne_zero.1 hpos)
  have hsplit : plannedRecords opcode payload s =
      (List.range n).map (plannedRecord opcode payload s) ++ [plannedRecord opcode payload s n] := by
    rw [plannedRecords, hn, List.range_succ, List.map_append, List.map_singleton]
  have hinit : hasTerminator ((List.range n).map (plannedRecord opcode payload s)) = false := by
    simp only [hasTerminator, endsMessage_eq, List.any_eq_false, List.mem_map, List.mem_range,
      forall_exists_index, and_imp, forall_apply_eq_imp_iff₂]
    intro k hk
    rw [terminates_plannedRecord (by omega), decide_eq_true_iff]
    omega
  have hlast : terminates (plannedRecord opcode payload s n).flag = true := by
    rw [terminates_plannedRecord (by omega), decide_eq_true_iff, hn]
  obtain ⟨hd, hu, ht⟩ := drained_append_terminator hinit hlast
  rw [hsplit]
  exact ⟨hd, hu, ht, by rw [List.getLast?_concat, hn, Nat.succ_sub_one]⟩

/-- The message a receiver puts together from the records of one send (R167, R185, R187). -/
def sentMessage (opcode : Byte) (payload : List Byte) (s : State) : Message :=
  let flag : Byte := if sendCount s payload = 1 then 0x00 else 0x02
  { sender := s.ownAddr, flag := flag, opcode := opcode, id := s.msgId
    cksum := ck s.ownAddr flag opcode s.msgId (BitVec.ofNat 8 payload.length)
    size := payload.length, complete := true, payload := payload }

/-- The first record's flag, forced to `END` when there is more than one record (R185). -/
theorem resultFlag_plannedRecords {s : State} (hp : s.params.Ok) {opcode : Byte} {payload : List Byte}
    {first : Record} (hfirst : first ∈ plannedRecords opcode payload s) :
    resultFlag first (plannedRecords opcode payload s) =
      if sendCount s payload = 1 then 0x00 else 0x02 := by
  obtain ⟨k, -, rfl⟩ := List.mem_map.1 hfirst
  have hflag (j : Nat) : (plannedRecord opcode payload s j).flag = if sendCount s payload = 1 then 0x00
      else if j + 1 < sendCount s payload then 0x01 else 0x02 := sendFlag_eq _ j
  rw [resultFlag, (drained_plannedRecords hp opcode payload).2.2.2]
  simp only [hflag]
  by_cases hone : sendCount s payload = 1
  · simp only [hone, if_true]
    rfl
  · have hlast : ¬ sendCount s payload - 1 + 1 < sendCount s payload := by omega
    by_cases hk : k + 1 < sendCount s payload
    · simp only [hone, hlast, hk, if_true, if_false]
      rfl
    · simp only [hone, hlast, hk, if_false]
      rfl

theorem resultMessage_plannedRecords {s : State} (hp : s.params.Ok) {opcode : Byte}
    {payload : List Byte} {first : Record} (hfirst : first ∈ plannedRecords opcode payload s) :
    resultMessage first (plannedRecords opcode payload s) = sentMessage opcode payload s := by
  obtain ⟨hd, -, ht, -⟩ := drained_plannedRecords hp opcode payload
  have hflag := resultFlag_plannedRecords hp hfirst
  obtain ⟨k, -, rfl⟩ := List.mem_map.1 hfirst
  simp only [resultMessage, hd, ht, if_true, hflag, payloads_plannedRecords hp]
  rfl

/-! ## The round trip -/

/-- The frames of a send in the order it hands them over (R160). -/
def plannedFrames (opcode : Byte) (payload : List Byte) (s : State) : List (List Byte) :=
  (List.range (sendCount s payload)).map (plannedFrame opcode payload s)

/-- `EN_SEND` hands the bus the planned frames, whatever interleaves it. -/
theorem exec_enSend_plannedFrames (dest : Addr7) (opcode : Byte) (payload : List Byte) {s : State}
    (hp : s.params.Ok) (hc : Cursors s) :
    ∃ t, exec (.enSend dest opcode payload) s = .next t ∧
      (t.busOut.drop s.busOut.length).map Prod.snd = plannedFrames opcode payload s := by
  obtain ⟨v, -, hv, -⟩ := ingestAll_ok (s.arrivals.take (sendCount s payload)).flatten hc
  obtain ⟨x, hall, -⟩ := allSent_eq dest opcode payload hp
  refine ⟨_, exec_enSend dest opcode payload hv, ?_⟩
  rw [hall]
  simp only [sendEnd_busOut, withIngests, transmitted, List.drop_left, List.map_map]
  rfl

theorem plannedFrames_pass {s : State} (hp : s.params.Ok) (opcode : Byte) (payload : List Byte) :
    ∀ raw ∈ plannedFrames opcode payload s, Passes raw :=
  List.forall_mem_map.2 fun k _ => passes_plannedFrame hp opcode payload k

theorem map_ofRaw_plannedFrames {s : State} (hp : s.params.Ok) (opcode : Byte) (payload : List Byte) :
    (plannedFrames opcode payload s).map Record.ofRaw = plannedRecords opcode payload s := by
  rw [plannedFrames, List.map_map, ofRaw_plannedFrame hp, plannedRecords]

/-- The room the records of a send take (R88, R167). -/
theorem recordsBytes_plannedRecords_length {s : State} (hp : s.params.Ok) (opcode : Byte)
    (payload : List Byte) : (recordsBytes (plannedRecords opcode payload s)).length =
      sendCount s payload * 8 + payload.length := by
  rw [recordsBytes_length, payloads_plannedRecords hp, plannedRecords, List.length_map,
    List.length_range, Nat.mul_comm]

/-- A receiver that holds the records of one send and nothing else answers its message (R167). -/
theorem exec_enReceive_plannedRecords {a b : State} {opcode : Byte} {payload : List Byte}
    (ha : a.params.Ok) (hp : b.params.Ok) (hc : Cursors b) (hq : Quiet b)
    (h : HoldsRecords b (plannedRecords opcode payload a)) :
    ∃ t, exec .enReceive b = .next t ∧ fifo t = [] ∧
      t.hostOut = b.hostOut ++ messageBytes 0x09 (sentMessage opcode payload a) := by
  obtain ⟨-, hleft, hterm, -⟩ := drained_plannedRecords ha opcode payload
  obtain ⟨first, more, hfirst⟩ : ∃ first more, plannedRecords opcode payload a = first :: more :=
    List.exists_cons_of_ne_nil fun hnil => by rw [hnil] at hterm; cases hterm
  have hmsg := resultMessage_plannedRecords (opcode := opcode) (payload := payload) ha
    (hfirst ▸ List.mem_cons_self : first ∈ _)
  rw [hfirst] at h hleft hterm hmsg
  obtain ⟨t, ht, hrest, hout⟩ := exec_enReceive_complete hp hc hq h hterm
  rw [hleft] at hrest
  rw [hmsg] at hout
  exact ⟨t, ht, hrest.2, hout⟩

/-- Settles O46: the frames of the send are ingested one by one, and the receive drains their records. -/
theorem sendIngestReceiveRoundTrip : Obligations.SendIngestReceiveRoundTrip := by
  intro dest opcode payload a b ha hb hq hempty hspace flag sum
  obtain ⟨a', hsend, hsent⟩ := exec_enSend_plannedFrames dest opcode payload ha.params ha.cursors
  have hrecords := map_ofRaw_plannedFrames ha.params opcode payload
  have hroom : (recordsBytes ([] ++ (plannedFrames opcode payload a).map Record.ofRaw)).length ≤
      b.slots.toNat - 1 := by
    rwa [List.nil_append, hrecords, recordsBytes_plannedRecords_length ha.params]
  obtain ⟨b', m, w, hingest, hb', hcursors, hheld⟩ := execAll_enIngest hb.cursors (rs := [])
    ⟨by simp, hempty⟩ (plannedFrames_pass ha.params opcode payload) hroom
  rw [List.nil_append, hrecords] at hheld
  have hparams : b'.params = b.params := by rw [hb']
  have hquiet : Quiet b' := by rw [hb']; exact hq
  obtain ⟨b'', hreceive, hleft, hout⟩ := exec_enReceive_plannedRecords ha.params
    (hparams ▸ hb.params) hcursors hquiet hheld
  refine ⟨a', b', b'', hsend, hsent ▸ hingest, ?_, hreceive, hleft, hout⟩
  rw [hb', plannedFrames, List.length_map, List.length_range]

end Sys2Proof.Machine
end

section
/-! The test an `EN_RECEIVE` makes first, and `EN_PENDING`, which answers its complement
(spec/43_receive.md R181, R198). -/

namespace Sys2Proof.Machine

/-- The next state of an `EN_RECEIVE` on an empty buffer, with its answer written out (R101, R181). -/
theorem exec_enReceive_nothing {s : State} (h : s.rd = s.wr) :
    exec .enReceive s = .next { s with
      rx := .start, hostOut := s.hostOut ++ [0x08, 0, 0, 0, 0, 0, 0, 0, 0, 0] } := by
  rw [exec_enReceive_empty (isEmpty_iff.2 h), ← messageStream_rxEmpty]
  rfl

/-- Settles O38. -/
theorem receiveOnEmptyBuffer : Obligations.ReceiveOnEmptyBuffer := fun _ => exec_enReceive_nothing

/-- An `EN_RECEIVE` on a buffer that is not empty answers one of the four other statuses first
(R180, R198). -/
theorem receive_answers {s t : State} (h : receive s = .ok t) :
    ∃ code ∈ [0x09, 0x0A, 0x0B, 0x0C], ∃ bs : List Byte, t.hostOut = s.hostOut ++ code :: bs := by
  obtain ⟨u, st, hw, hst, rfl⟩ := receive_writing h
  refine ⟨st.code, ?_, (messageStream st u.rx.message).tail, ?_⟩
  · fin_cases hst <;> decide
  · rw [deliver_hostOut, hw.kept.hostOut]
    rfl

/-- Settles O37: `EN_PENDING` answers the complement of step a1, and behind step a1 no status is
`ST_RX_EMPTY`. -/
theorem pendingIsNotEmpty : Obligations.PendingIsNotEmpty := by
  intro s
  have hflag : boolByte (!isEmpty s) = if s.rd = s.wr then 0 else 1 := by
    by_cases h : s.rd = s.wr <;> simp [boolByte, isEmpty, h]
  refine ⟨decodeWord_commandWord 0xB 0, ?_, fun he => ⟨_, exec_enReceive_nothing he, rfl⟩,
    fun hne t ht => ?_⟩
  · rw [Did.enPending.exec_eq, hflag]
    rfl
  · rw [exec_enReceive_notEmpty (decide_eq_false hne), finish_eq_next] at ht
    obtain ⟨code, hcode, bs, hout⟩ := receive_answers ht
    rw [hout, List.drop_left, List.head?_cons]
    fin_cases hcode <;> decide

end Sys2Proof.Machine
end

section
/-! An `EN_RECEIVE` on whole records with notifications at any boundaries: the ways it can end, said once,
and what each answers and leaves (spec/43_receive.md R185 to R191, R199; spec/70_reset_and_hazards.md R261,
R262). -/

namespace Sys2Proof.Machine

open Sys2Proof.Config

/-! ## Boundaries passed and answered -/

/-- From `s` to `t` the next `n` boundaries were passed, and the ingest agent was answered `sts` there. -/
structure Answered (s t : State) (n : Nat) (sts : List Byte) : Prop where
  arrivals : t.arrivals = s.arrivals.drop n
  ingestOut : t.ingestOut = s.ingestOut ++ sts
  length : sts.length = (s.arrivals.take n).flatten.length

theorem Notified.exists_answered {s t : State} {n : Nat} {new : List Record} (h : Notified s t n new) :
    ∃ sts, Answered s t n sts ∧ new = admitted (s.arrivals.take n).flatten sts := by
  obtain ⟨harr, sts, hout, hlen, hnew⟩ := h
  exact ⟨sts, ⟨harr, hout, hlen⟩, hnew⟩

theorem Answered.trans {s t u : State} {n k : Nat} {sts sts' : List Byte} (h : Answered s t n sts)
    (h' : Answered t u k sts') : Answered s u (n + k) (sts ++ sts') where
  arrivals := by rw [h'.arrivals, h.arrivals, List.drop_drop]
  ingestOut := by rw [h'.ingestOut, h.ingestOut, List.append_assoc]
  length := by
    rw [List.length_append, h'.length, h.length, h.arrivals, List.take_add, List.flatten_append,
      List.length_append]

/-- What was admitted at two successive runs of boundaries. -/
theorem Answered.admitted_add {s t : State} {n : Nat} {sts : List Byte} (h : Answered s t n sts)
    (k : Nat) (sts' : List Byte) :
    admitted (s.arrivals.take (n + k)).flatten (sts ++ sts') =
      admitted (s.arrivals.take n).flatten sts ++ admitted (t.arrivals.take k).flatten sts' := by
  rw [List.take_add, List.flatten_append, admitted_append h.length, h.arrivals]

/-! ## The delivery -/

/-- An `EN_RECEIVE` begun in `s` has come to `u` with the message `m`, past `n` boundaries with the
answers `sts`; what is left is to deliver. -/
structure Outgoing (s u : State) (m : Message) (n : Nat) (sts : List Byte) : Prop where
  kept : HostKept s u
  freeCount : u.freeCount = s.freeCount
  message : u.rx.message = m
  answered : Answered s u n sts

/-- The whole next state: the storage, the two cursors and what crosses the boundary of the block are all
that a delivery leaves changed (R193, R31). -/
theorem Outgoing.deliver_eq {s u : State} {m : Message} {n : Nat} {sts : List Byte}
    (h : Outgoing s u m n sts) (st : Status) :
    deliver st u = { s with
      store := u.store, rd := u.rd, wr := u.wr, rx := .start, hostOut := (deliver st u).hostOut
      arrivals := u.arrivals, ingestOut := s.ingestOut ++ sts } := by
  obtain ⟨⟨hpar, hslots, hmsg, hown, htx, hin, -, hbin, hbout⟩, hfree, -, hans⟩ := h
  simp only [deliver, respond, hpar, hslots, hmsg, hown, htx, hin, hbin, hbout, hfree, hans.ingestOut]

/-- The answer goes out in numbers, behind what was answered before (R101). -/
theorem Outgoing.hostOut {s u : State} {m : Message} {n : Nat} {sts : List Byte}
    (h : Outgoing s u m n sts) (st : Status) :
    (deliver st u).hostOut = s.hostOut ++ messageBytes st.code m := by
  rw [deliver_hostOut, h.kept.hostOut, messageStream_eq, h.message]

theorem Outgoing.arrived {s u v : State} {m : Message} {n k : Nat} {sts sts' : List Byte}
    {new : List Record} (h : Outgoing s u m n sts) (ha : Arrived u v k new) (hx : v.rx = u.rx)
    (hans : Answered u v k sts') : Outgoing s v m (n + k) (sts ++ sts') :=
  ⟨h.kept.trans ha.progress.kept, ha.freeCount.trans h.freeCount, hx ▸ h.message, h.answered.trans hans⟩

/-- The writes of a requeue keep the message, pass one boundary each, and are answered there. -/
theorem Outgoing.afterWrites {s v w : State} {m : Message} {n : Nat} {sts : List Byte} {bs : List Byte}
    (h : Outgoing s v m n sts) (hw : hostWrites bs v = .ok w) :
    ∃ sts', Outgoing s w m (n + bs.length) (sts ++ sts') := by
  obtain ⟨harr, hx, hfree, sts', hout, hlen⟩ := hostWrites_arrivals hw
  exact ⟨sts', h.kept.trans (hostWrites_writing hw).kept, hfree.trans h.freeCount, hx ▸ h.message,
    h.answered.trans ⟨harr, hout, hlen⟩⟩

/-! ## How a call ends -/

theorem resultMessage_flag {queue : List Record} (first : Record)
    (h : hasTerminator queue = false) : (resultMessage first queue).flag = first.flag := by
  simp [resultMessage, h]

theorem resultMessage_payload {queue : List Record} (first : Record)
    (h : hasTerminator queue = false) : (resultMessage first queue).payload = payloads queue := by
  simp [resultMessage, (drained_of_no_terminator h).1]

theorem resultMessage_size {queue : List Record} (first : Record) (h : hasTerminator queue = false) :
    (resultMessage first queue).size = (payloads queue).length :=
  congrArg List.length (resultMessage_payload first h)

/-- The record the machine writes is the document-level one (R190). -/
theorem requeueRecord_of_message {w : RxWork} {first : Record} {queue : List Record}
    (hm : w.message = resultMessage first queue) (h : hasTerminator queue = false) :
    requeueRecord w = (requeuedRecord first queue).bytes := by
  have hsender : w.sender = first.sender := congrArg Message.sender hm
  have hflag : w.flag = first.flag := (congrArg Message.flag hm).trans (resultMessage_flag first h)
  have hopcode : w.opcode = first.opcode := congrArg Message.opcode hm
  have hid : w.id = first.id := congrArg Message.id hm
  have hagg : w.agg = payloads queue :=
    (congrArg Message.payload hm).trans (resultMessage_payload first h)
  rw [requeueRecord_eq, hsender, hflag, hopcode, hid, hagg, ← requeueFlag_eq]
  rfl

/-- The room that whole records leave. -/
theorem HoldsRecords.freeSpace_of_slots {s v : State} {rs : List Record} (h : HoldsRecords v rs)
    (hc : Cursors v) (hs : v.slots = s.slots) :
    freeSpace v = s.slots.toNat - 1 - (recordsBytes rs).length ∧
      (recordsBytes rs).length ≤ s.slots.toNat - 1 := by
  have hlen := h.2.length
  have hlt := occupied_lt hc
  rw [h.2.freeSpace_eq, ← hs]
  exact ⟨rfl, by omega⟩

theorem requeuedRecord_length (first : Record) (queue : List Record) :
    (requeuedRecord first queue).bytes.length = 8 + (payloads queue).length :=
  recordBytes_length _

/-- How an `EN_RECEIVE` ends whose drain of `queue`, `first` in front, ended in `u` (R185 to R191): one
constructor for each status.  `late` are the records that come at the boundary before the space test, in
`v`, and `w` is the state after the writes of the requeue. -/
inductive ReceiveEnd (u : State) (first : Record) (queue : List Record) : State → Prop
  | complete (hterm : hasTerminator queue = true) : ReceiveEnd u first queue (deliver .rxComplete u)
  | droppedTtl (hterm : hasTerminator queue = false) (httl : first.flag.toNat / 16 = 15) :
      ReceiveEnd u first queue (deliver .rxDroppedTtl u)
  | droppedNospace (hterm : hasTerminator queue = false) (httl : first.flag.toNat / 16 ≠ 15)
      {v : State} {late : List Record} (ha : Arrived u v 1 late) (hx : v.rx = u.rx)
      (hh : HoldsRecords v late) (hroom : freeSpace v < (payloads queue).length + 8) :
      ReceiveEnd u first queue (deliver .rxDroppedNospace v)
  | requeued (hterm : hasTerminator queue = false) (httl : first.flag.toNat / 16 ≠ 15)
      {v w : State} {late : List Record} (ha : Arrived u v 1 late) (hx : v.rx = u.rx)
      (hh : HoldsRecords v late) (hroom : (payloads queue).length + 8 ≤ freeSpace v)
      (hw : hostWrites (requeuedRecord first queue).bytes v = .ok w)
      (hquiet : (∀ frames ∈ v.arrivals.take (8 + (payloads queue).length), frames = []) →
        HoldsRecords w (late ++ [requeuedRecord first queue])) :
      ReceiveEnd u first queue (deliver .rxRequeued w)

/-- Every call whose drain ended ends in one of the four ways. -/
theorem exists_receiveEnd {u : State} {first : Record} {queue : List Record} (hc : Cursors u)
    (hu : HoldsRecords u (undrained queue)) (hmsg : u.rx.message = resultMessage first queue)
    (hcomp : u.rx.complete = hasTerminator queue) :
    ∃ t, (if u.rx.complete then .ok (deliver .rxComplete u) else requeue u) = .ok t ∧
      ReceiveEnd u first queue t := by
  cases hterm : hasTerminator queue with
  | true => exact ⟨_, by rw [hcomp, hterm, if_pos rfl], .complete hterm⟩
  | false =>
    have hsize : u.rx.size = (payloads queue).length :=
      (congrArg Message.size hmsg).trans (resultMessage_size first hterm)
    have hagg : u.rx.agg = payloads queue :=
      (congrArg Message.payload hmsg).trans (resultMessage_payload first hterm)
    have hflag : u.rx.flag = first.flag :=
      (congrArg Message.flag hmsg).trans (resultMessage_flag first hterm)
    have hlt := first.flag.isLt
    rw [(drained_of_no_terminator hterm).2] at hu
    rw [hcomp, hterm, if_neg Bool.false_ne_true]
    have hcases := requeue_arrived hc hu.2 (by rw [hsize, hagg])
    rw [requeueRecord_of_message hmsg hterm, hsize, hflag, ttl_toNat] at hcases
    rcases hcases with ⟨httl, hr⟩ | ⟨httl, v, late, -, ha, hx, hh, ⟨hroom, hr⟩ | ⟨hroom, w, hw, hr, hfi⟩⟩
    · exact ⟨_, hr, .droppedTtl hterm (by omega)⟩
    · exact ⟨_, hr, .droppedNospace hterm (by omega) ha hx hh hroom⟩
    · refine ⟨_, hr, .requeued hterm (by omega) ha hx hh hroom hw fun hq => ?_⟩
      have hfits : (requeuedRecord first queue).Fits := by
        have hfree := freeSpace_le (s := v)
        show (payloads queue).length ≤ 246
        omega
      refine ⟨List.forall_mem_append.2 ⟨hh.1, by simpa using hfits⟩, (hfi hq).trans ?_⟩
      rw [recordsBytes_append]
      simp [recordsBytes]

/-- An `EN_RECEIVE` on a buffer of whole records, with notifications at any boundaries: the aggregate is
full (U8), or the drain takes the stored records and those that came during it, and the call ends (R199). -/
theorem exec_enReceive_cases {s : State} {first : Record} {rs : List Record} (hc : Cursors s)
    (h : HoldsRecords s (first :: rs)) :
    (exec .enReceive s = .fault .aggregateFull ∧
        ∃ new, new.Sublist (s.arrivals.flatten.map Record.ofRaw) ∧
          s.params.aggFits (payloads (drained (first :: rs ++ new))).length = false) ∨
      ∃ u t new, exec .enReceive s = .next t ∧
        Arrived { s with rx := .start } u (drainBoundaries (first :: rs ++ new)) new ∧
        HoldsRecords u (undrained (first :: rs ++ new)) ∧
        u.rx.message = resultMessage first (first :: rs ++ new) ∧
        ReceiveEnd u first (first :: rs ++ new) t := by
  have hagain : exec .enReceive { s with rx := .start } = exec .enReceive s := rfl
  rcases receive_drained (s := { s with rx := .start }) hc h rfl with
    hfull | ⟨u, new, -, ha, hu, hmsg, hcomp, hexec⟩
  · exact .inl hfull
  · obtain ⟨t, ht, hend⟩ := exists_receiveEnd (ha.progress.cursors hc) hu hmsg hcomp
    exact .inr ⟨u, t, new, by rw [← hagain, hexec, ht, finish_ok], ha, hu, hmsg, hend⟩

theorem Arrived.outgoing {s u : State} {m : Message} {n : Nat} {new : List Record}
    (h : Arrived { s with rx := .start } u n new) (hm : u.rx.message = m) :
    ∃ sts, Outgoing s u m n sts ∧ new = admitted (s.arrivals.take n).flatten sts := by
  obtain ⟨⟨hkept, -⟩, hfree, -, hnot, -⟩ := h
  obtain ⟨sts, ⟨harr, hout, hlen⟩, hnew⟩ := hnot.exists_answered
  exact ⟨sts, ⟨(Progress.setRx s .start).kept.trans hkept, hfree, hm, harr, hout, hlen⟩, hnew⟩

/-- The boundary before the space test: what came there was admitted behind what came during the drain,
whatever the ingest agent is answered later. -/
theorem Outgoing.atSpaceTest {s u v : State} {m : Message} {n : Nat} {sts : List Byte}
    {late : List Record} (h : Outgoing s u m n sts) (ha : Arrived u v 1 late) (hx : v.rx = u.rx) :
    ∃ sts', Outgoing s v m (n + 1) sts' ∧ ∀ more,
      admitted (s.arrivals.take n).flatten sts =
        admitted (s.arrivals.take n).flatten (sts' ++ more) ∧
      admitted (s.arrivals.take n).flatten sts ++ late =
        admitted (s.arrivals.take (n + 1)).flatten (sts' ++ more) := by
  obtain ⟨sts', hans, rfl⟩ := ha.notified.exists_answered
  have hlen := h.answered.length
  refine ⟨sts ++ sts', h.arrived ha hx hans, fun more => ?_⟩
  rw [List.append_assoc, admitted_append_right hlen, h.answered.admitted_add,
    admitted_append_right hans.length]
  exact ⟨rfl, rfl⟩

/-- Settles O40, by the four ways a call can end. -/
theorem receiveUnderNotifications : Obligations.ReceiveUnderNotifications := by
  intro s first rs hi h
  rcases exec_enReceive_cases hi.cursors h with hfull | ⟨u, t, new, hexec, ha, hu, hmsg, hend⟩
  · exact .inl hfull
  refine .inr ?_
  obtain ⟨sts, hout, hnew⟩ := ha.outgoing hmsg
  cases hend with
  | complete hterm =>
    refine ⟨_, new, [], sts, hexec, hout.deliver_eq _, hnew, ?_⟩
    rw [if_pos hterm]
    exact ⟨⟨hout.hostOut _, hout.answered.arrivals, hout.answered.length⟩, hu⟩
  | droppedTtl hterm httl =>
    refine ⟨_, new, [], sts, hexec, hout.deliver_eq _, hnew, ?_⟩
    rw [(drained_of_no_terminator hterm).2] at hu
    rw [if_neg (Bool.eq_false_iff.1 hterm), if_pos httl]
    exact ⟨⟨hout.hostOut _, hout.answered.arrivals, hout.answered.length⟩, hu⟩
  | @droppedNospace hterm httl v late hav hx hh hroom =>
    obtain ⟨sts', hout', hadm⟩ := hout.atSpaceTest hav hx
    obtain ⟨hfirst, hboth⟩ := hadm []
    rw [← hnew, List.append_nil] at hfirst hboth
    obtain ⟨hfree, hle⟩ := hh.freeSpace_of_slots
      (hav.progress.cursors (ha.progress.cursors hi.cursors)) hout'.kept.slots
    refine ⟨_, new, late, sts', hexec, hout'.deliver_eq _, hfirst, ?_⟩
    rw [if_neg (Bool.eq_false_iff.1 hterm), if_neg httl,
      resultMessage_size first hterm, ← hfree]
    refine ⟨hboth, hle, ?_⟩
    rw [if_pos hroom]
    exact ⟨⟨hout'.hostOut _, hout'.answered.arrivals, hout'.answered.length⟩, hh⟩
  | @requeued hterm httl v w late hav hx hh hroom hw hquiet =>
    obtain ⟨sts', hout', hadm⟩ := hout.atSpaceTest hav hx
    obtain ⟨more, hout''⟩ := hout'.afterWrites hw
    rw [requeuedRecord_length] at hout''
    obtain ⟨hfirst, hboth⟩ := hadm more
    rw [← hnew] at hfirst hboth
    obtain ⟨hfree, hle⟩ := hh.freeSpace_of_slots
      (hav.progress.cursors (ha.progress.cursors hi.cursors)) hout'.kept.slots
    refine ⟨_, new, late, sts' ++ more, hexec, hout''.deliver_eq _, hfirst, ?_⟩
    rw [if_neg (Bool.eq_false_iff.1 hterm), if_neg httl,
      resultMessage_size first hterm, ← hfree]
    refine ⟨hboth, hle, ?_⟩
    rw [if_neg (Nat.not_lt.2 hroom), ← hout'.answered.arrivals]
    exact ⟨⟨hout''.hostOut _, hout''.answered.arrivals, hout''.answered.length⟩, hquiet⟩

end Sys2Proof.Machine
end

section
/-! An `EN_RECEIVE` that no notification interleaves is the function `receiveQueue` of the record queue
(spec/43_receive.md R195). -/

namespace Sys2Proof.Machine

open Sys2Proof.Config

/-! ## The document-level function, case by case -/

theorem receiveQueue_complete {first : Record} {rs : List Record}
    (h : hasTerminator (first :: rs) = true) : receiveQueue (first :: rs) =
      (0x09, resultMessage first (first :: rs), undrained (first :: rs)) := by
  simp only [receiveQueue, h, if_true]

theorem receiveQueue_droppedTtl {first : Record} {rs : List Record}
    (h : hasTerminator (first :: rs) = false) (httl : first.flag.toNat / 16 = 15) :
    receiveQueue (first :: rs) = (0x0B, resultMessage first (first :: rs), []) := by
  simp only [receiveQueue, h, httl, Bool.false_eq_true, if_true, if_false]

theorem receiveQueue_requeued {first : Record} {rs : List Record}
    (h : hasTerminator (first :: rs) = false) (httl : first.flag.toNat / 16 ≠ 15) :
    receiveQueue (first :: rs) = (0x0A, resultMessage first (first :: rs),
      [requeuedRecord first (first :: rs)]) := by
  simp only [receiveQueue, h, httl, Bool.false_eq_true, if_false]

/-! ## No notification -/

theorem Answered.quiet {s t : State} {n : Nat} {sts : List Byte} (h : Answered s t n sts)
    (hq : Quiet s) : Quiet t ∧ sts = [] := by
  have hlen := h.length
  rw [hq.flatten_take] at hlen
  refine ⟨fun frames hf => hq frames ?_, List.length_eq_zero_iff.1 hlen⟩
  rw [h.arrivals] at hf
  exact List.mem_of_mem_drop hf

/-- With no notification scheduled the ingest agent is answered nothing. -/
theorem Outgoing.deliver_eq_of_quiet {s u : State} {m : Message} {n : Nat} {sts : List Byte}
    (h : Outgoing s u m n sts) (hq : Quiet s) (st : Status) :
    deliver st u = { s with
      store := u.store, rd := u.rd, wr := u.wr, rx := .start, hostOut := (deliver st u).hostOut
      arrivals := u.arrivals } := by
  have heq := h.deliver_eq st
  rwa [(h.answered.quiet hq).2, List.append_nil] at heq

/-- The writes of a requeue that nothing interleaves leave `RD` and every slot but those they fill
(R195). -/
theorem hostWrites_slots {bs : List Byte} {s t : State} (hc : Cursors s)
    (hlen : bs.length ≤ freeSpace s) (hq : Quiet s) (h : hostWrites bs s = .ok t) :
    t.rd = s.rd ∧ ∀ a, (∀ j, j < bs.length → a ≠ (s.wr.toNat + j) % s.slots.toNat) →
      memRead t.store a = memRead s.store a := by
  obtain ⟨u, hu, hframe, -, hother⟩ := rbWrites_slots hc hlen
  rw [hostWrites_quiet (fun frames hf => hq frames (List.mem_of_mem_take hf)) hu] at h
  cases h
  rw [hframe]
  exact ⟨rfl, hother⟩

/-- Settles O39, by the ways a call can end; the space test finds the whole buffer free, which held the
message and more before. -/
theorem receiveRefinesRecordQueue : Obligations.ReceiveRefinesRecordQueue := by
  intro s rs hi hq h
  cases rs with
  | nil =>
    have hempty := isEmpty_iff.1 (h.isEmpty_of_nil hi.cursors)
    exact ⟨_, exec_enReceive_nothing hempty, h, hq, rfl, rfl, fun _ => ⟨rfl, rfl⟩,
      fun hcode => absurd hcode (by decide : (0x08 : Byte) ≠ 0x0A)⟩
  | cons first rs =>
    obtain ⟨u, ha, hu, hmsg, hcomp, hexec⟩ := exec_enReceive_quiet hi.params hi.cursors hq h
    have hcu := ha.progress.cursors hi.cursors
    obtain ⟨t, ht, hend⟩ := exists_receiveEnd hcu hu hmsg hcomp
    rw [ht, finish_ok] at hexec
    obtain ⟨-, hqu, -, hstore, hwr⟩ := ha.quiet hq
    obtain ⟨sts, hout, -⟩ := ha.outgoing hmsg
    cases hend with
    | complete hterm =>
      rw [receiveQueue_complete hterm]
      exact ⟨_, hexec, hu, hqu, hout.hostOut _, hout.deliver_eq_of_quiet hq _,
        fun _ => ⟨hstore, hwr⟩, fun hcode => absurd hcode (by decide : (0x09 : Byte) ≠ 0x0A)⟩
    | droppedTtl hterm httl =>
      rw [receiveQueue_droppedTtl hterm httl]
      rw [(drained_of_no_terminator hterm).2] at hu
      exact ⟨_, hexec, hu, hqu, hout.hostOut _, hout.deliver_eq_of_quiet hq _,
        fun _ => ⟨hstore, hwr⟩, fun hcode => absurd hcode (by decide : (0x0B : Byte) ≠ 0x0A)⟩
    | @droppedNospace hterm httl v late hav hx hh hroom =>
      obtain ⟨rfl, -⟩ := hav.quiet hqu
      obtain ⟨hfree, -⟩ := hh.freeSpace_of_slots (hav.progress.cursors hcu)
        (hav.progress.kept.slots.trans ha.progress.kept.slots)
      have hlt := h.length_lt hi.cursors
      have hnil : (recordsBytes []).length = 0 := rfl
      rw [List.length_cons] at hlt
      change _ = s.slots.toNat - 1 - _ at hfree
      omega
    | @requeued hterm httl v w late hav hx hh hroom hw hquiet =>
      obtain ⟨rfl, hqv, -, hvstore, hvwr⟩ := hav.quiet hqu
      have hcv := hav.progress.cursors hcu
      obtain ⟨sts', hout', -⟩ := hout.atSpaceTest hav hx
      obtain ⟨more, hout''⟩ := hout'.afterWrites hw
      obtain ⟨hrd, hslots⟩ := hostWrites_slots hcv (by rw [requeuedRecord_length]; omega) hqv hw
      have hempty := isEmpty_iff.1 (hh.isEmpty_of_nil hcv)
      rw [requeuedRecord_length, hvwr, hwr, hout'.kept.slots, hvstore, hstore] at hslots
      rw [receiveQueue_requeued hterm httl]
      refine ⟨_, hexec, hquiet fun frames hf => hqv frames (List.mem_of_mem_take hf),
        (hout''.answered.quiet hq).1, hout''.hostOut _, hout''.deliver_eq_of_quiet hq _,
        fun hne => absurd rfl hne, fun _ => ⟨hrd.trans (hempty.trans (hvwr.trans hwr)), ?_⟩⟩
      rw [resultMessage_size first hterm]
      exact hslots

end Sys2Proof.Machine
end

section
/-! Two consequences of the refinement: the size of a received message, and the age of a partial one
(spec/43_receive.md R194, R196). -/

namespace Sys2Proof.Machine

open Sys2Proof.Config

/-! ## The size of a message -/

theorem receiveQueue_message (first : Record) (rs : List Record) :
    (receiveQueue (first :: rs)).2.1 = resultMessage first (first :: rs) := by
  unfold receiveQueue
  dsimp only
  split
  · rfl
  · split <;> rfl

/-- The aggregate is taken from the stored payloads (R184, R187). -/
theorem receiveQueue_size (rs : List Record) :
    (receiveQueue rs).2.1.payload.length = (receiveQueue rs).2.1.size ∧
      (receiveQueue rs).2.1.size ≤ (payloads rs).length := by
  cases rs with
  | nil => exact ⟨rfl, Nat.le_refl _⟩
  | cons first rs =>
    rw [receiveQueue_message]
    exact ⟨rfl, payloads_drained_le _⟩

/-- The payloads of the records that are in the buffer at once: each of these takes eight bytes more
(R88, R196). -/
theorem HoldsRecords.payloads_le {s : State} {rs : List Record} (hc : Cursors s)
    (h : HoldsRecords s rs) : (payloads rs).length ≤ 246 := by
  cases rs with
  | nil => exact Nat.zero_le _
  | cons first rs =>
    have hlt := h.length_lt hc
    have hslots := slots_le (s := s)
    rw [slotsMax] at hslots
    rw [List.length_cons] at hlt
    omega

theorem messageBytes_length (code : Byte) (m : Message) :
    (messageBytes code m).length = 10 + m.payload.length := by
  rw [messageBytes, List.length_append]
  rfl

/-- Settles O41: the message is no longer than the payloads in the buffer, and O39 gives the answer. -/
theorem receivedSizeBound : Obligations.ReceivedSizeBound := by
  intro s rs hi h m
  obtain ⟨hlen, hle⟩ := receiveQueue_size rs
  have hsize : (receiveQueue rs).2.1.size ≤ 246 := Nat.le_trans hle (h.payloads_le hi.cursors)
  refine ⟨hsize, aggFits_of_le hi.params hsize, fun hq => ?_⟩
  obtain ⟨t, hexec, -, -, hout, -⟩ := receiveRefinesRecordQueue s rs hi hq h
  refine ⟨by rw [hexec]; exact nofun, t, hexec, hout, hlen, ?_⟩
  rw [hout, List.length_append, messageBytes_length, hlen]
  omega

/-! ## The age of a partial message -/

theorem exec_keeps_inv {i : Instr} {s t : State} (hi : Inv s) (h : exec i s = .next t) : Inv t := by
  obtain ⟨hpar, hown, hfr⟩ := (exec_did h).contracts
  obtain ⟨hc, hm⟩ := (exec_did h).ringRun.keeps hi.cursors hi.store
  exact ⟨hpar ▸ hi.params, hc, hown hi.ownAddr, hm, hfr hi.frames⟩

/-- The flag of a requeue counts the call and keeps bits 1:0 (R190). -/
theorem requeuedRecord_flag_toNat {first : Record} (queue : List Record)
    (h : first.flag.toNat / 16 < 15) : (requeuedRecord first queue).flag.toNat =
      16 * (first.flag.toNat / 16 + 1) + first.flag.toNat % 4 := by
  rw [← requeueFlag_toNat h, ← requeueFlag_eq]
  rfl

/-- A buffer that holds one partial message of TTL `k` and nothing else, in the records `r :: rs`: what is
left of one that began with `first` and had the payload `body`. -/
structure Aged (u : State) (k : Nat) (first : Record) (body : List Byte) (r : Record)
    (rs : List Record) : Prop where
  inv : Inv u
  quiet : Quiet u
  holds : HoldsRecords u (r :: rs)
  unterminated : hasTerminator (r :: rs) = false
  ttl : r.flag.toNat / 16 = k
  frag : r.flag.toNat % 4 = first.flag.toNat % 4
  payload : payloads (r :: rs) = body
  sender : r.sender = first.sender
  opcode : r.opcode = first.opcode
  id : r.id = first.id

/-- A call below the largest TTL requeues the message, one older, in one record (R190, R194). -/
theorem Aged.after_call {u : State} {k : Nat} {first r : Record} {body : List Byte} {rs : List Record}
    (h : Aged u k first body r rs) (hk : k < 15) :
    ∃ t, exec .enReceive u = .next t ∧ (t.hostOut.drop u.hostOut.length).head? = some 0x0A ∧
      Aged t (k + 1) first body (requeuedRecord r (r :: rs)) [] ∧
      (requeuedRecord r (r :: rs)).flag.toNat = 16 * (k + 1) + first.flag.toNat % 4 := by
  have hflag : (requeuedRecord r (r :: rs)).flag.toNat = 16 * (k + 1) + first.flag.toNat % 4 := by
    rw [requeuedRecord_flag_toNat _ (h.ttl ▸ hk), h.ttl, h.frag]
  have hrefines := receiveRefinesRecordQueue u (r :: rs) h.inv h.quiet h.holds
  rw [receiveQueue_requeued h.unterminated (by rw [h.ttl]; omega)] at hrefines
  obtain ⟨t, hexec, hholds, hquiet, hout, -⟩ := hrefines
  have hterm : terminates (requeuedRecord r (r :: rs)).flag = false := by
    have hr := h.unterminated
    rw [hasTerminator_cons, Bool.or_eq_false_iff] at hr
    have hfrag := h.frag
    rw [Bool.eq_false_iff, Ne, terminates_iff] at hr ⊢
    omega
  refine ⟨t, hexec, by rw [hout, List.drop_left]; rfl, ?_, hflag⟩
  exact ⟨exec_keeps_inv h.inv hexec, hquiet, hholds, by rw [hasTerminator_cons, hterm]; rfl,
    by omega, by omega, (List.append_nil _).trans h.payload, h.sender, h.opcode, h.id⟩

/-- Any number of calls up to the largest TTL. -/
theorem Aged.after_calls {n : Nat} {u : State} {k : Nat} {first r : Record} {body : List Byte}
    {rs : List Record} (h : Aged u k first body r rs) (hn : k + n ≤ 15) :
    ∃ t r' rs', execAll (List.replicate n .enReceive) u = .next t ∧
      Aged t (k + n) first body r' rs' := by
  induction n generalizing u k r rs with
  | zero => exact ⟨u, r, rs, rfl, h⟩
  | succ n ih =>
    obtain ⟨v, hv, -, hage, -⟩ := h.after_call (by omega)
    obtain ⟨t, r', rs', ht, hlast⟩ := ih hage (by omega)
    refine ⟨t, r', rs', (execAll_cons hv _).trans ht, ?_⟩
    rwa [show k + (n + 1) = k + 1 + n by omega]

/-- Settles O42: fifteen calls age the message, the next one finds the largest TTL, and the last one an
empty buffer. -/
theorem partialMessageAges : Obligations.PartialMessageAges := by
  intro s first rs hi hq h hterm httl
  have hstart : Aged s 0 first (payloads (first :: rs)) first rs :=
    ⟨hi, hq, h, hterm, httl, rfl, rfl, rfl, rfl, rfl⟩
  refine ⟨fun k hk => ?_, ?_⟩
  · obtain ⟨u, r, rs', hu, hage⟩ := hstart.after_calls (n := k) (by omega)
    rw [Nat.zero_add] at hage
    obtain ⟨t, ht, hhead, hnext, hflag⟩ := hage.after_call hk
    exact ⟨u, t, _, hu, ht, hhead, hnext.holds, hflag, hage.payload, hnext.sender, hnext.opcode,
      hnext.id⟩
  · obtain ⟨u, r, rs', hu, hage⟩ := hstart.after_calls (n := 15) (by omega)
    have hrefines := receiveRefinesRecordQueue u (r :: rs') hage.inv hage.quiet hage.holds
    rw [receiveQueue_droppedTtl hage.unterminated hage.ttl] at hrefines
    obtain ⟨t, ht, hnone, -, hout, -⟩ := hrefines
    have hempty := isEmpty_iff.1 (hnone.isEmpty_of_nil (exec_keeps_inv hage.inv ht).cursors)
    exact ⟨u, t, _, hu, ht, by rw [hout, List.drop_left]; rfl, hnone.2,
      exec_enReceive_nothing hempty, hnone.2, rfl⟩

end Sys2Proof.Machine
end

section
/-! An `EN_RECEIVE` on bytes that are no whole records: a length byte below 7 stops it
(spec/93_implementation_defined.md U1, U4). -/

namespace Sys2Proof.Machine

open Sys2Proof.Config

/-! ## One round of the drain -/

theorem Holds.isEmpty_eq_false {s : State} {q : List Byte} (hc : Cursors s) (h : Holds s q)
    (hq : q ≠ []) : isEmpty s = false := by
  rw [Bool.eq_false_iff, Ne, h.isEmpty_iff hc, List.length_eq_zero_iff]
  exact hq

theorem drain_succ_of_error {bound : Nat} {s u : State} {r : Fault} (hn : notify s = .ok u)
    (he : isEmpty u = false) (h : drainRecord u = .error r) : drain (bound + 1) s = .error r := by
  simp [drain, hostEmpty, hn, he, h]

theorem drain_succ_of_ok {bound : Nat} {s u v : State} {f : Byte} (hn : notify s = .ok u)
    (he : isEmpty u = false) (h : drainRecord u = .ok (f, v)) (hf : terminates f = false) :
    drain (bound + 1) s = drain bound v := by
  simp [drain, hostEmpty, hn, he, h, hf]

/-! ## A length byte below 7 -/

/-- The parts of the bytes a drain takes as one record (R88). -/
theorem Literal.split {c : List Byte} (h : Literal c) :
    ∃ l header payload, c = l :: (header ++ payload) ∧ header.length = 7 ∧
      l.toNat = 7 + payload.length ∧ header.getD 1 0 = c.getD 2 0 := by
  obtain ⟨hlen, hcount⟩ := h
  cases c with
  | nil => cases hlen
  | cons l c =>
    rw [List.length_cons] at hlen hcount
    have hl : l.toNat = c.length := Nat.succ.inj hcount
    refine ⟨l, c.take 7, c.drop 7, by rw [List.take_append_drop], ?_, ?_, ?_⟩
    · rw [List.length_take]; omega
    · rw [List.length_drop]; omega
    · rw [List.getD_eq_getElem?_getD, List.getElem?_take_of_lt (by decide), List.getD_cons_succ,
        List.getD_eq_getElem?_getD]

/-- How a drain stops in `s` that meets a length byte below 7 with the bytes `q` behind it (U4, U1). -/
structure StopsShort (s : State) (q : List Byte) (r : Fault) : Prop where
  either : r = .shortPrefix ∨ r = .readEmpty
  long : 7 ≤ q.length → r = .shortPrefix
  brief : Quiet s → q.length < 7 → r = .readEmpty

/-- Records that arrive stand behind `q`: they can only make up for bytes missing there. -/
theorem StopsShort.before {s t : State} {n : Nat} {new : List Record} {q : List Byte} {r : Fault}
    (h : StopsShort t (q ++ recordsBytes new) r) (ha : Arrived s t n new) : StopsShort s q r where
  either := h.either
  long hq := h.long (by rw [List.length_append]; omega)
  brief hs hq := by
    obtain ⟨rfl, ht, -⟩ := ha.quiet hs
    exact h.brief ht (by rwa [recordsBytes, List.flatMap_nil, List.append_nil])

theorem drainRecord_stopsShort {l : Byte} {q : List Byte} {s : State} (hc : Cursors s)
    (hl : l.toNat < 7) (h : Holds s (l :: q)) :
    ∃ r, drainRecord s = .error r ∧ StopsShort s q r := by
  obtain ⟨heither, hlong, hbrief⟩ := drainRecord_short hc hl h
  rcases heither with hr | hr
  · refine ⟨_, hr, .inl rfl, fun _ => rfl, fun hs hq => ?_⟩
    rw [hbrief hs hq] at hr
    cases hr
  · refine ⟨_, hr, .inr rfl, fun hq => ?_, fun _ _ => rfl⟩
    rw [hlong hq] at hr
    cases hr

/-- A drain takes whatever records bound themselves before a length byte below 7, and stops there; what
was stored at once fits the aggregate (U4, R196). -/
theorem drain_stopsShort {bound : Nat} {cs : List (List Byte)} {l : Byte} {q : List Byte} {s : State}
    (hp : s.params.Ok) (hc : Cursors s) (hcs : ∀ c ∈ cs, Literal c ∧ endsMessage (c.getD 2 0) = false)
    (h : Holds s (cs.flatten ++ l :: q)) (hl : l.toNat < 7) (hb : backlog s < bound)
    (hagg : s.rx.agg.length + cs.flatten.length ≤ 254) :
    ∃ r, drain bound s = .error r ∧ StopsShort s q r := by
  induction bound generalizing cs s q with
  | zero => exact absurd hb (Nat.not_lt_zero _)
  | succ bound ih =>
    obtain ⟨u, new, hn, ha, hx, hu⟩ := notify_arrived hc h
    have hcu := ha.progress.cursors hc
    have hpu : u.params = s.params := ha.progress.kept.params
    have hne := hu.isEmpty_eq_false hcu (by simp)
    rw [List.append_assoc, List.cons_append] at hu
    cases cs with
    | nil =>
      obtain ⟨r, hr, hstop⟩ := drainRecord_stopsShort hcu hl hu
      exact ⟨r, drain_succ_of_error hn hne hr, hstop.before ha⟩
    | cons c cs =>
      obtain ⟨⟨hlit, hend⟩, hmore⟩ := List.forall_mem_cons.1 hcs
      obtain ⟨l', header, payload, rfl, hheader, hl', hflag⟩ := hlit.split
      rw [endsMessage_eq, ← hflag] at hend
      have hlen : ((l' :: (header ++ payload)) :: cs).flatten.length =
          8 + payload.length + cs.flatten.length := by simp [hheader]; omega
      have hfits : u.params.aggFits (u.rx.agg.length + payload.length) = true := by
        rw [hpu, hx]
        exact aggFits_of_le hp (by omega)
      rcases drainRecord_literal hcu hheader hl' (q := cs.flatten ++ l :: (q ++ recordsBytes new))
        (by simpa using hu) with ⟨hfull, -⟩ | ⟨v, new', hr, hav, hvx, hv⟩
      · rw [hfits] at hfull
        cases hfull
      have hagg' : v.rx.agg = s.rx.agg ++ payload := by rw [hvx, ← hx]; rfl
      have hbv := (drainRecord_progress hr).2 hcu
      have hbu := ha.progress.backlog hc
      obtain ⟨r, hdrain, hstop⟩ := ih (hav.progress.kept.params.trans hpu ▸ hp)
        (hav.progress.cursors hcu) hmore (q := q ++ recordsBytes (new ++ new'))
        (by simpa [recordsBytes_append] using hv) (by omega)
        (by rw [hagg', List.length_append]; omega)
      exact ⟨r, (drain_succ_of_ok hn hne hr hend).trans hdrain, hstop.before (ha.trans hav)⟩

/-- Settles O43: the drain stops at the length byte, and with it the call. -/
theorem receiveFaultsOnShortPrefix : Obligations.ReceiveFaultsOnShortPrefix := by
  intro s cs l q hi hcs h hl
  have hne := h.isEmpty_eq_false hi.cursors (by simp)
  have hlen : cs.flatten.length + (q.length + 1) < 255 := by
    have hocc := h.length
    have hlt := occupied_lt hi.cursors
    have hslots := slots_le (s := s)
    rw [slotsMax] at hslots
    rw [List.length_append, List.length_cons] at hocc
    omega
  obtain ⟨r, hdrain, heither, hlong, hbrief⟩ := drain_stopsShort (s := { s with rx := .start })
    hi.params hi.cursors hcs h hl (Nat.lt_succ_self _) (by rw [RxWork.start, List.length_nil]; omega)
  have hexec : exec .enReceive s = .fault r := by
    rw [exec_enReceive_notEmpty hne, finish_eq_fault]
    exact bind_eq_error.2 (.inl hdrain)
  rw [hexec]
  refine ⟨?_, fun hq => congrArg _ (hlong hq), fun hs hq => congrArg _ (hbrief hs hq)⟩
  exact heither.imp (congrArg _) (congrArg _)

end Sys2Proof.Machine
end

section
/-! The checksum function in its three forms, and `EN_CKSUM` as a request (spec/44_checksum.md R210 to
R213). -/

namespace Sys2Proof.Machine

/-- Settles O29. -/
theorem checksumClosedForm : Obligations.ChecksumClosedForm := ck_toNat

/-- Settles O28: reducing the two packed halves first does not change their sum modulo 65536. -/
theorem checksumFormula : Obligations.ChecksumFormula := by
  intro sender flag opcode id length a b
  have hsum : (a + b) % 65536 =
      (256 * (sender.toNat + flag.toNat + length.toNat) + opcode.toNat + id.toNat) % 65536 := by
    omega
  rw [hsum, ck_toNat]

/-- The carry out of `flag + length` is lost in the shift, so the sum may be formed in 8 bits or wider
(R211, R213 (c)). -/
theorem zeroExtend_add_shiftLeft (a b : Byte) :
    (a + b).zeroExtend 16 <<< 8 = (a.zeroExtend 16 + b.zeroExtend 16) <<< 8 := by
  apply BitVec.eq_of_toNat_eq
  simp only [BitVec.toNat_shiftLeft, BitVec.zeroExtend, BitVec.toNat_setWidth, BitVec.toNat_add,
    Nat.shiftLeft_eq]
  omega

/-- Settles O30: with the lost carry aside, the unit adds the four terms of `CK` in another grouping. -/
theorem checksumAccumulatorForm : Obligations.ChecksumAccumulatorForm := by
  intro sender flag opcode id length
  simp only [ckAccumulator, ck, zeroExtend_add_shiftLeft, zero_add, add_assoc]

/-- Settles O31: the two answered bytes are those of `CK`, and put together again they are its value. -/
theorem cksumAnswersChecksum : Obligations.CksumAnswersChecksum := by
  intro sender flag opcode id length s
  refine ⟨decodeWord_encodeWord (i := .enCksum sender flag opcode id length) rfl, hiByte _, loByte _,
    (Did.enCksum sender flag opcode id length).exec_eq, ?_⟩
  rw [← be16_toNat, be16_hiByte_loByte]

end Sys2Proof.Machine
end

section
/-! What a step can end in: a block without a whole request waits (spec/60_exceptions.md R240), and every
operation returns but for the points left undefined (spec/60_exceptions.md R220;
spec/93_implementation_defined.md U1, U4, U8). -/

namespace Sys2Proof.Machine

/-- Settles O6: the boundary does not touch the stream, so there is still no whole request behind it. -/
theorem stepIdlesOnIncompleteRequest : Obligations.StepIdlesOnIncompleteRequest := by
  intro s s' hnotify hdecode
  rw [← fetch_of_notify hnotify] at hdecode
  rcases hdecode with hfetch | hfetch <;> simp only [step, hnotify, hfetch]

/-! ## Every operation -/

/-- The outcome is a next state, or a fault the spec asks a model for: U1, U4 or U8. -/
def ReturnsOrUndefined (o : Host.Outcome State Fault Refusal) : Prop :=
  (∃ t, o = .next t) ∨ ∃ r : Fault, r.ofDrain ∧ o = .fault r

theorem ReturnsOrUndefined.next {o : Host.Outcome State Fault Refusal} {t : State} (h : o = .next t) :
    ReturnsOrUndefined o := .inl ⟨t, h⟩

theorem ReturnsOrUndefined.fault {o : Host.Outcome State Fault Refusal} {r : Fault} (hr : r.ofDrain)
    (h : o = .fault r) : ReturnsOrUndefined o := .inr ⟨r, hr, h⟩

/-- The definition with its three faults one by one. -/
theorem returnsOrUndefined_iff {o : Host.Outcome State Fault Refusal} :
    ReturnsOrUndefined o ↔
      (∃ t, o = .next t) ∨ o = .fault .readEmpty ∨ o = .fault .shortPrefix ∨
        o = .fault .aggregateFull := by
  simp only [ReturnsOrUndefined, Fault.ofDrain, or_and_right, exists_or, exists_eq_left]

theorem Did.returns {i : Instr} {s t : State} (h : Did s i t) : ReturnsOrUndefined (exec i s) :=
  .next h.exec_eq

/-- A read stops on the empty buffer only (U1). -/
theorem exec_rbRead_returns {s : State} (hc : Cursors s) : ReturnsOrUndefined (exec .rbRead s) := by
  cases he : isEmpty s with
  | true => exact .fault (.inl rfl) (exec_rbRead_empty he)
  | false =>
    obtain ⟨v, t, hread⟩ := rbRead_ok hc he
    exact (Did.rbRead hread).returns

/-- The boundaries inside a send never stop it, since ingests do not. -/
theorem exec_enSend_returns (dest : Addr7) (opcode : Byte) (payload : List Byte) {s : State}
    (hc : Cursors s) : ReturnsOrUndefined (exec (.enSend dest opcode payload) s) := by
  obtain ⟨v, -, hingests, -⟩ := ingestAll_ok (s.arrivals.take (sendCount s payload)).flatten hc
  exact .next (exec_enSend dest opcode payload hingests)

/-- Behind the test of step a1 a receive stops as `receive` does (U1, U4, U8). -/
theorem exec_enReceive_returns {s : State} (hc : Cursors s) :
    ReturnsOrUndefined (exec .enReceive s) := by
  cases he : isEmpty s with
  | true => exact (Did.enReceiveEmpty he).returns
  | false =>
    cases hr : receive { s with rx := .start } with
    | ok t => exact (Did.enReceive he hr).returns
    | error r =>
      have hfault : exec .enReceive s = .fault r := by
        rw [exec_enReceive_notEmpty he, hr, finish_error]
      exact .fault (receive_error (s := { s with rx := .start }) hc hr) hfault

/-- Under the cursor invariant every operation returns but for the undefined points (R220). -/
theorem exec_returns (i : Instr) {s : State} (hc : Cursors s) : ReturnsOrUndefined (exec i s) := by
  cases i with
  | rbInit cap => exact (Did.rbInit cap).returns
  | rbWrite b =>
    obtain ⟨st, t, hwrite⟩ := rbWrite_ok b hc
    exact (Did.rbWrite hwrite).returns
  | rbRead => exact exec_rbRead_returns hc
  | rbPeek k =>
    obtain ⟨v, t, hpeek⟩ := rbPeek_ok k.toNat hc
    exact (Did.rbPeek hpeek).returns
  | rbEmpty => exact Did.rbEmpty.returns
  | rbAvail => exact Did.rbAvail.returns
  | enIngest raw =>
    obtain ⟨t, hingest, -⟩ := ingest_ok raw hc
    exact (Did.enIngest hingest).returns
  | enSend dest opcode payload => exact exec_enSend_returns dest opcode payload hc
  | enReceive => exact exec_enReceive_returns hc
  | enPending => exact Did.enPending.returns
  | enCksum sender flag opcode id length => exact (Did.enCksum sender flag opcode id length).returns
  | enSetaddr a => exact (Did.enSetaddr a).returns

/-! ## Every step -/

/-- The boundary never stops; behind it only a request can. -/
theorem step_returns {s : State} (hc : Cursors s) : ReturnsOrUndefined (step s) := by
  obtain ⟨u, -, hnotify, hcu, -⟩ := notify_ok hc
  cases hdecode : decode s.hostIn with
  | request i rest =>
    rw [stepRunsDecodedRequest s u i rest hnotify hdecode]
    exact exec_returns i hcu
  | illegal why rest => exact .next (step_of_illegal hnotify hdecode)
  | noWord => exact .next (stepIdlesOnIncompleteRequest s u hnotify (.inl hdecode))
  | noOperands => exact .next (stepIdlesOnIncompleteRequest s u hnotify (.inr hdecode))

/-- Settles O7: of the invariant, the cursor invariant is enough (R28). -/
theorem stepStopsOnlyForUndefinedPoints : Obligations.StepStopsOnlyForUndefinedPoints :=
  fun _ hi => returnsOrUndefined_iff.1 (step_returns hi.cursors)

end Sys2Proof.Machine
end

section
/-! The two hazards of an `EN_RECEIVE` that a frame interleaves, as runs from one state
(spec/70_reset_and_hazards.md R261, R262). -/

namespace Sys2Proof.Machine

open Sys2Proof.Config

/-! ## Bytes that do not parse as records -/

/-- A buffer holds one sequence of bytes only. -/
theorem Holds.unique {s : State} {q q' : List Byte} (h : Holds s q) (h' : Holds s q') : q = q' :=
  List.map_injective_iff.2 (Option.some_injective Byte) (h.symm.trans h')

/-- Stored bytes are bytes some write stored (U3). -/
theorem Holds.written {s : State} {q : List Byte} (h : Holds s q) : Written s := by
  unfold Holds at h
  simp [written_iff, h]

/-- The first byte of a queue of records counts the rest of its first record, and whole records stand
behind that (R88). -/
theorem recordsBytes_parse {rs : List Record} {l : Byte} {q : List Byte} (hfit : ∀ r ∈ rs, r.Fits)
    (h : recordsBytes rs = l :: q) :
    l.toNat ≤ q.length ∧ ∃ rs' : List Record, (∀ r ∈ rs', r.Fits) ∧
      recordsBytes rs' = q.drop l.toNat := by
  cases rs with
  | nil => cases h
  | cons r rs =>
    obtain ⟨hr, hrs⟩ := List.forall_mem_cons.1 hfit
    rw [recordsBytes, List.flatMap_cons, Record.bytes] at h
    obtain ⟨rfl, rfl⟩ := List.cons.inj h
    have hl : (BitVec.ofNat 8 (7 + r.payload.length)).toNat = 7 + r.payload.length := by
      rw [BitVec.toNat_ofNat]
      omega
    rw [hl]
    refine ⟨by simp; omega, rs, hrs, ?_⟩
    rw [Nat.add_comm]
    simp [recordsBytes]

/-! ## The end of a call, from the end of its drain -/

/-- What is left of a call depends on the state at the end of its drain only (R180). -/
theorem exec_enReceive_of_drainEnd {s u : State} (h : drainEnd s = some u)
    (hc : u.rx.complete = false) : exec .enReceive s = finish (requeue u) := by
  unfold drainEnd at h
  split at h
  · cases h
  · next he =>
    dsimp only at h
    split at h
    · next v hv =>
      cases h
      have hc' : (totals v.rx).complete = false := hc
      rw [exec_enReceive_notEmpty (Bool.eq_false_iff.2 he), receive, hv, ok_bind]
      simp only [hc', Bool.false_eq_true, if_false]
    · cases h

/-- Steps a8 to a12 behind the test of the TTL, where `v` is the state of the space test (R189, R190). -/
theorem requeue_of_hostAvail {u v : State} (httl : (ttl u.rx.flag).toNat < 15)
    (hav : hostAvail u = .ok (freeSpace v, v)) :
    requeue u = if freeSpace v < v.rx.size + 8 then .ok (deliver .rxDroppedNospace v)
      else do
        let w ← hostWrites (requeueRecord v.rx) v
        return deliver .rxRequeued w := by
  have h : ¬ ttlMax ≤ (ttl u.rx.flag).toNat := by rw [ttlMax]; omega
  simp only [requeue, h, hav, headerSize, ok_bind, if_false]
  rfl

/-! ## One fragment and a frame to come -/

/-- The first fragment of a message (frame F0 of spec/95_test_vectors.md). -/
def fragment : Record := ⟨9, 0x01, 0x10, 3, 0xF0EC, [1, 2, 3, 4, 5]⟩

/-- The frame that interleaves the call (frame X of spec/95_test_vectors.md). -/
def lateFrame : List Byte := [0x04, 0x00, 0x33, 0x00, 0xFA, 0xCC, 0x01, 0xEE]

/-- A buffer of 20 bytes that holds the fragment alone.  It has room for the requeued fragment, or for the
record of `lateFrame`, but not for both. -/
def waiting : State :=
  { State.resetWith ⟨32, 20, some 246⟩ with store := (List.range 13).zip fragment.bytes, wr := 13 }

/-- The same with the frame to come at the boundary behind the next `n`. -/
def racing (n : Nat) : State := { waiting with arrivals := List.replicate n [] ++ [[lateFrame]] }

/-- The state at the end of the drain of the fragment (R187). -/
def drainedWaiting (later : List (List (List Byte))) : State :=
  { waiting with
    rd := 13, rx := ⟨9, 0x01, 0x10, 3, 0xF0EC, 5, false, [1, 2, 3, 4, 5], false⟩, arrivals := later }

/-- The message every call below answers. -/
def fragmentMessage : Message := resultMessage fragment [fragment]

theorem waiting_inv : Inv waiting :=
  ⟨by decide, by decide, by decide, by decide, by decide⟩

theorem waiting_records : HoldsRecords waiting [fragment] :=
  ⟨by decide, by show fifo waiting = _; decide⟩

theorem racing_inv (n : Nat) : Inv (racing n) where
  params := waiting_inv.params
  cursors := waiting_inv.cursors
  ownAddr := waiting_inv.ownAddr
  store := waiting_inv.store
  frames := by
    intro frames hmem raw hraw
    rcases List.mem_append.1 hmem with h | h
    · rw [List.eq_of_mem_replicate h] at hraw
      cases hraw
    · rw [List.mem_singleton.1 h] at hraw
      rw [List.mem_singleton.1 hraw]
      decide

/-- Without the frame the fragment is requeued, and whole records are left (R195). -/
theorem waiting_requeues : ∃ t, exec .enReceive waiting = .next t ∧
    t.hostOut = waiting.hostOut ++ messageBytes 0x0A fragmentMessage ∧ Framed t := by
  have hquiet : Quiet waiting := fun frames h => nomatch h
  have hrefines := receiveRefinesRecordQueue waiting [fragment] waiting_inv hquiet waiting_records
  rw [receiveQueue_requeued (by decide) (by decide)] at hrefines
  obtain ⟨t, ht, hrecords, -, hout, -⟩ := hrefines
  exact ⟨t, ht, hout, _, hrecords⟩

/-! ## The phases of the call with the frame to come -/

/-- The drain passes 16 boundaries: ten for the record, five for its payload, and one to find the buffer
empty.  The frame comes at one of the 14 that may follow, before the space test or before a write. -/
theorem drainEnd_racing {k : Nat} (hk : k < 14) :
    drainEnd (racing (16 + k)) = some (drainedWaiting (List.replicate k [] ++ [[lateFrame]])) := by
  revert k
  decide +kernel

/-- The frame was admitted, and from slot 13 on, where the drained fragment ended, the bytes `q` were
written. -/
def overwritten (q : List Byte) : State :=
  { drainedWaiting [] with
    store := (List.range 21).zip (q.drop 8 ++ fragment.bytes.drop (q.length - 8) ++ q.take 8)
    wr := BitVec.ofNat 8 ((13 + q.length) % 21), ingestOut := [0x00] }

/-- A delivery from there answers the drained message. -/
theorem deliver_overwritten_hostOut (st : Status) (q : List Byte) :
    (deliver st (overwritten q)).hostOut = waiting.hostOut ++ messageBytes st.code fragmentMessage := by
  have hmessage : (overwritten q).rx.message = fragmentMessage := by
    show (drainedWaiting []).rx.message = _
    decide
  rw [deliver_hostOut, messageStream_eq, hmessage]
  rfl

/-! ## Hazard H1 -/

/-- The frame comes between the drain and the space test (R199). -/
theorem hostAvail_drainedWaiting : hostAvail (drainedWaiting [[lateFrame]]) =
    .ok (freeSpace (overwritten (Record.ofRaw lateFrame).bytes),
      overwritten (Record.ofRaw lateFrame).bytes) := by rfl

/-- The record of the frame leaves 11 free bytes, and the requeue takes 13. -/
theorem racing_drops : exec .enReceive (racing 16) =
    .next (deliver .rxDroppedNospace (overwritten (Record.ofRaw lateFrame).bytes)) := by
  have hfull : freeSpace (overwritten (Record.ofRaw lateFrame).bytes) <
      (overwritten (Record.ofRaw lateFrame).bytes).rx.size + 8 := by decide
  rw [exec_enReceive_of_drainEnd (drainEnd_racing (k := 0) (by decide)) rfl, List.replicate_zero,
    List.nil_append, requeue_of_hostAvail (by decide) hostAvail_drainedWaiting, if_pos hfull, finish_ok]

/-- Settles O45: the frame comes at the 17th boundary of the call, the first behind the drain. -/
theorem drainRaceDropsPartial : Obligations.DrainRaceDropsPartial := by
  obtain ⟨t, ht⟩ := waiting_requeues
  have hrecord : HoldsRecords (deliver .rxDroppedNospace (overwritten (Record.ofRaw lateFrame).bytes))
      [Record.ofRaw lateFrame] := ⟨by decide, by show fifo _ = _; decide⟩
  exact ⟨waiting, t, drainedWaiting [[lateFrame]], _, lateFrame, fragmentMessage, 16, waiting_inv,
    ⟨_, waiting_records⟩, rfl, ht, ⟨drainEnd_racing (k := 0) (by decide), rfl, rfl⟩, racing_drops,
    deliver_overwritten_hostOut _ _, rfl, hrecord⟩

/-! ## Hazard H2 -/

/-- The state after the space test, with the frame to come before the eleventh write (R199). -/
def requeueing : State := drainedWaiting (List.replicate 10 [] ++ [[lateFrame]])

/-- The space test finds all of the buffer free: the frame comes later. -/
theorem hostAvail_requeueing :
    hostAvail (drainedWaiting (List.replicate 11 [] ++ [[lateFrame]])) =
      .ok (freeSpace requeueing, requeueing) := rfl

theorem requeueing_has_room : requeueing.rx.size + 8 ≤ freeSpace requeueing := by decide

/-- What the frame makes of the requeued record: ten bytes of that record, the record of the frame, and the
one byte more that there is room for. -/
def torn : List Byte :=
  let bytes := (requeuedRecord fragment [fragment]).bytes
  bytes.take 10 ++ (Record.ofRaw lateFrame).bytes ++ (bytes.drop 10).take 1

/-- The last two writes find the buffer full, and no one notices (R262). -/
theorem hostWrites_requeueing :
    hostWrites (requeueRecord requeueing.rx) requeueing = .ok (overwritten torn) := by rfl

theorem racing_tears : exec .enReceive (racing 27) = .next (deliver .rxRequeued (overwritten torn)) := by
  rw [exec_enReceive_of_drainEnd (drainEnd_racing (k := 11) (by decide)) rfl,
    requeue_of_hostAvail (by decide) hostAvail_requeueing, if_neg (Nat.not_lt.2 requeueing_has_room),
    hostWrites_requeueing, ok_bind, pure_eq_ok, finish_ok]

theorem requeueStart_racing : requeueStart (racing 27) = some requeueing :=
  requeueStart_eq_some (drainEnd_racing (k := 11) (by decide)) rfl (by decide) hostAvail_requeueing
    requeueing_has_room

/-- The first record ends inside the record of the frame, and the next byte counts 51 more. -/
theorem Holds.not_framed_of_torn {s : State} (h : Holds s torn) : ¬ Framed s := by
  rintro ⟨rs, hfit, hrs⟩
  have hbytes : recordsBytes rs = torn := hrs.unique h
  obtain ⟨-, rs', hfit', hrest⟩ := recordsBytes_parse hfit hbytes
  have hrest' : recordsBytes rs' = [0x33, 0x00, 0xFA, 0xCC, 0x01, 0xEE, 3] := hrest
  obtain ⟨hle, -⟩ := recordsBytes_parse hfit' hrest'
  exact absurd hle (by decide)

/-- Settles O44: the frame comes at the 28th boundary of the call, ten writes behind the space test. -/
theorem requeueRaceBreaksFraming : Obligations.RequeueRaceBreaksFraming := by
  obtain ⟨u, hu⟩ := waiting_requeues
  have hrecords : HoldsRecords (racing 27) [fragment] := waiting_records
  have htorn : Holds (deliver .rxRequeued (overwritten torn)) torn := by show fifo _ = _; decide
  exact ⟨racing 27, _, u, requeueing, lateFrame, fragmentMessage, 27, 10, racing_inv 27,
    hrecords.2.written, ⟨_, hrecords⟩, rfl, hu, ⟨requeueStart_racing, rfl, by decide⟩, racing_tears,
    deliver_overwritten_hostOut _ _, rfl, htorn.not_framed_of_torn⟩

end Sys2Proof.Machine
end
